-- ==== Sys2Proof/Word.lean ====
section
/-! DEFINITION. The word types of MTID and the names of its sources, slots and byte selectors. -/

namespace Sys2Proof

/-- A byte of the register window: `BUSW = 8` (00_scope.md R8). -/
abbrev Byte := BitVec 8

/-- A tick value, a delay or a deadline: `W = 32` (00_scope.md R7). -/
abbrev Word := BitVec 32

/-- A step word `Sw` (30_encoding.md R80). -/
abbrev StepWord := BitVec 16

/-- A handler reference, opaque to the block: `HREF_W = 16` (00_scope.md R9, 10_state.md R34). -/
abbrev HandlerRef := BitVec 16

/-- The three request sources (42_interrupt_router.md R140): TIM 0, RTC 1, EXT 2. -/
inductive Source where
  | tim
  | rtc
  | ext
  deriving DecidableEq, Repr

/-- The four handler slots (42_interrupt_router.md R140): SYSTICK 0, RTC 1, EXT 2, PTICK 3. -/
inductive Slot where
  | systick
  | rtc
  | ext
  | ptick
  deriving DecidableEq, Repr

/-- Which byte of a handler reference: `b` of 30_encoding.md R81, 0 low, 1 high. -/
inductive RefByte where
  | low
  | high
  deriving DecidableEq, Repr

end Sys2Proof
end

