-- ==== Sys2Proof/Config.lean ====
section
/-! DEFINITION. The parameters of 00_scope.md R7 to R11 and 20_memory.md R60 that are not widths of types. -/

namespace Sys2Proof

/-- `PRIO`, the order in which sources requesting together are acknowledged, first listed wins
(00_scope.md R9, 42_interrupt_router.md R144). The order is the spec's own decision D10 (log entry 6). -/
def Config.prio : List Source := [.tim, .rtc, .ext]

/-- `TICK_RESET`, the value of `TICK` after reset (00_scope.md R10). -/
def Config.tickReset : Word := 0

/-- `T_TICK`, the period of the periodic timer: OPEN, read by no rule (00_scope.md R11; log entry 7). -/
opaque Config.tTick : Nat

/-- `BASE`, where the register window sits in the CPU's address map: OPEN, read by no rule
(20_memory.md R60; log entry 7). -/
opaque Config.base : Nat

end Sys2Proof
end

