-- ==== Sys2Proof/Syntax.lean ====
section
/-! DEFINITION. The steps of MTID: one constructor per row of the operation map (30_encoding.md R93), in its order. -/

namespace Sys2Proof

/-- A step. `n` is a byte number, `j` a handler slot, `b` a byte of a reference, `v` the byte written, `e` the
five event bits (30_encoding.md R81, R82). -/
inductive Instr where
  /-- `RD.TICK n` (40_tick_counter.md R104). -/
  | rdTick (n : Fin 4)
  /-- `RD.DELAY n` (41_deadline_wait.md R120). -/
  | rdDelay (n : Fin 4)
  /-- `RD.TARGET n` (41_deadline_wait.md R122). -/
  | rdTarget (n : Fin 4)
  /-- `RD.CTRL` (43_control_status.md R170). -/
  | rdCtrl
  /-- `RD.CMD` (41_deadline_wait.md R137). -/
  | rdCmd
  /-- `RD.STATUS` (43_control_status.md R172). -/
  | rdStatus
  /-- `RD.IEN` (43_control_status.md R175). -/
  | rdIen
  /-- `RD.PEND` (43_control_status.md R177). -/
  | rdPend
  /-- `RD.OVR` (43_control_status.md R178). -/
  | rdOvr
  /-- `RD.ERR` (43_control_status.md R179). -/
  | rdErr
  /-- `RD.SVCR` (43_control_status.md R180). -/
  | rdSvcr
  /-- `RD.RSVD` at offset `0x14 + o` (20_memory.md R68; log entry 11). -/
  | rdRsvd (o : Fin 4)
  /-- `RD.HREF j,b` (43_control_status.md R181). -/
  | rdHref (j : Slot) (b : RefByte)
  /-- `WR.TICK n,v` (40_tick_counter.md R103). -/
  | wrTick (n : Fin 4) (v : Byte)
  /-- `WR.DELAY n,v` (41_deadline_wait.md R121). -/
  | wrDelay (n : Fin 4) (v : Byte)
  /-- `WR.TARGET n,v` (41_deadline_wait.md R123). -/
  | wrTarget (n : Fin 4) (v : Byte)
  /-- `WR.CTRL v` (43_control_status.md R171). -/
  | wrCtrl (v : Byte)
  /-- `CMD.ARM` (41_deadline_wait.md R128). -/
  | cmdArm
  /-- `CMD.BAD v`, `v` any byte but 0x01 (41_deadline_wait.md R137). -/
  | cmdBad (v : Byte)
  /-- `WR.STATUS v` (43_control_status.md R173). -/
  | wrStatus (v : Byte)
  /-- `WR.IEN v` (43_control_status.md R176). -/
  | wrIen (v : Byte)
  /-- `WR.PEND v` (43_control_status.md R173). -/
  | wrPend (v : Byte)
  /-- `WR.OVR v` (43_control_status.md R173). -/
  | wrOvr (v : Byte)
  /-- `WR.ERR v` (43_control_status.md R173). -/
  | wrErr (v : Byte)
  /-- `WR.SVCR v` (43_control_status.md R173). -/
  | wrSvcr (v : Byte)
  /-- `WR.RSVD v` at offset `0x14 + o` (20_memory.md R68; log entry 11). -/
  | wrRsvd (o : Fin 4) (v : Byte)
  /-- `WR.HREF j,b,v` (43_control_status.md R182). -/
  | wrHref (j : Slot) (b : RefByte) (v : Byte)
  /-- `EVT.NONE` (42_interrupt_router.md R152). -/
  | evtNone
  /-- `EVT.RAISE.TIM` (42_interrupt_router.md R143). -/
  | evtRaiseTim
  /-- `EVT.RAISE.RTC` (42_interrupt_router.md R143). -/
  | evtRaiseRtc
  /-- `EVT.RAISE.EXT` (42_interrupt_router.md R143). -/
  | evtRaiseExt
  /-- `EVT.HRET` (42_interrupt_router.md R150). -/
  | evtHret
  /-- `EVT.IACK` (42_interrupt_router.md R146). -/
  | evtIack
  /-- `EVT.MULTI e`, more than one of the bits TIM 0, RTC 1, EXT 2, HRET 3, IACK 4 set (42_interrupt_router.md R152). -/
  | evtMulti (e : BitVec 5)
  /-- `INT.ENTER` (42_interrupt_router.md R147). -/
  | intEnter
  /-- `INT.CLEAR` (42_interrupt_router.md R151). -/
  | intClear
  /-- `INT.POLL` (41_deadline_wait.md R129). -/
  | intPoll
  /-- `SYS.RESET` (70_reset_and_hazards.md R230). -/
  | sysReset
  /-- `ILLEGAL`: the word `w` spells no step (30_encoding.md R85). -/
  | illegal (w : StepWord)
  deriving DecidableEq, Repr

end Sys2Proof
end

