-- ==== Sys2Proof/WellFormed.lean ====
section
/-! DEFINITION. Which terms of `Instr` a step word can spell (30_encoding.md R84, R85): the rows after which another
row stands first in decode order do not hold the words of that other row. -/

namespace Sys2Proof

/-- The event words with at most one bit set, which the one-event rows and `EVT.NONE` decode first (30_encoding.md R84). -/
def fewerThanTwoEvents (e : BitVec 5) : Bool :=
  e == 0b00000 || e == 0b00001 || e == 0b00010 || e == 0b00100 || e == 0b01000 || e == 0b10000

/-- The step words that spell no step (30_encoding.md R85): class EVT with a non-zero bit in 13:5; class INT with a
non-zero bit in 13:2 or `U = 11`; class SYS other than 0xC000. -/
def isIllegalWord (w : StepWord) : Bool :=
  match w.extractLsb' 14 2 with
  | 0b00 => false
  | 0b01 => w.extractLsb' 5 9 != 0
  | 0b10 => w.extractLsb' 2 12 != 0 || w.extractLsb' 0 2 == 0b11
  | _    => w.extractLsb' 0 14 != 0

/-- An instruction that some step word spells. `CMD.BAD` excludes the code of `CMD.ARM` (30_encoding.md R87);
`EVT.MULTI` has more than one bit set (42_interrupt_router.md R152); `ILLEGAL` carries an illegal word. -/
def Instr.wf : Instr → Bool
  | .cmdBad v   => v != 0x01
  | .evtMulti e => !fewerThanTwoEvents e
  | .illegal w  => isIllegalWord w
  | .rdTick _ | .rdDelay _ | .rdTarget _ | .rdCtrl | .rdCmd | .rdStatus | .rdIen | .rdPend | .rdOvr | .rdErr
  | .rdSvcr | .rdRsvd _ | .rdHref _ _ | .wrTick _ _ | .wrDelay _ _ | .wrTarget _ _ | .wrCtrl _ | .cmdArm
  | .wrStatus _ | .wrIen _ | .wrPend _ | .wrOvr _ | .wrErr _ | .wrSvcr _ | .wrRsvd _ _ | .wrHref _ _ _
  | .evtNone | .evtRaiseTim | .evtRaiseRtc | .evtRaiseExt | .evtHret | .evtIack
  | .intEnter | .intClear | .intPoll | .sysReset => true

end Sys2Proof
end

