-- ==== Sys2Proof/Decode.lean ====
section
/-! DEFINITION. Decoding of step words by the operation map (30_encoding.md R84, R93), and the encoder. -/

namespace Sys2Proof

/-- The number of a slot (42_interrupt_router.md R140). -/
def Slot.index : Slot → BitVec 2
  | .systick => 0
  | .rtc     => 1
  | .ext     => 2
  | .ptick   => 3

/-- The slot with a number (42_interrupt_router.md R140). -/
def Slot.ofIndex (x : BitVec 2) : Slot :=
  match x.toFin with
  | 0 => .systick
  | 1 => .rtc
  | 2 => .ext
  | 3 => .ptick

/-- The number of a byte of a handler reference: 0 low, 1 high (30_encoding.md R81). -/
def RefByte.index : RefByte → BitVec 1
  | .low  => 0
  | .high => 1

/-- The byte of a handler reference with a number. -/
def RefByte.ofIndex (x : BitVec 1) : RefByte := if x = 0 then .low else .high

/-! ### Fields of a step word (30_encoding.md R81 to R83) -/

/-- `OFF[1:0] = Sw[9:8]`: the byte number of `TICK`, `DELAY`, `TARGET`, and the place in 0x14..0x17. -/
def fieldN (w : StepWord) : Fin 4 := (w.extractLsb' 8 2).toFin

/-- `OFF[2:1] = Sw[10:9]`: the slot of a handler table access. -/
def fieldJ (w : StepWord) : Slot := Slot.ofIndex (w.extractLsb' 9 2)

/-- `OFF[0] = Sw[8]`: the byte of a handler reference. -/
def fieldB (w : StepWord) : RefByte := RefByte.ofIndex (w.extractLsb' 8 1)

/-- `DATA = Sw[7:0]`: the byte written. -/
def fieldV (w : StepWord) : Byte := w.extractLsb' 0 8

/-- `e = Sw[4:0]`: the event bits. -/
def fieldE (w : StepWord) : BitVec 5 := w.extractLsb' 0 5

/-! ### The operation map -/

/-- A row of the operation map: the words `w` with `w & mask == mtch` spell `op w`. -/
structure OpRow where
  mtch : StepWord
  mask : StepWord
  op   : StepWord → Instr

/-- The row's match and mask admit the word. -/
def OpRow.covers (r : OpRow) (w : StepWord) : Bool := (w &&& r.mask) == r.mtch

/-- Rows 1 to 13 of 30_encoding.md R93: bus reads. -/
def busReadRows : List OpRow := [
  ⟨0x0000, 0xFC00, fun w => .rdTick (fieldN w)⟩,
  ⟨0x0400, 0xFC00, fun w => .rdDelay (fieldN w)⟩,
  ⟨0x0800, 0xFC00, fun w => .rdTarget (fieldN w)⟩,
  ⟨0x0C00, 0xFF00, fun _ => .rdCtrl⟩,
  ⟨0x0D00, 0xFF00, fun _ => .rdCmd⟩,
  ⟨0x0E00, 0xFF00, fun _ => .rdStatus⟩,
  ⟨0x0F00, 0xFF00, fun _ => .rdIen⟩,
  ⟨0x1000, 0xFF00, fun _ => .rdPend⟩,
  ⟨0x1100, 0xFF00, fun _ => .rdOvr⟩,
  ⟨0x1200, 0xFF00, fun _ => .rdErr⟩,
  ⟨0x1300, 0xFF00, fun _ => .rdSvcr⟩,
  ⟨0x1400, 0xFC00, fun w => .rdRsvd (fieldN w)⟩,
  ⟨0x1800, 0xF800, fun w => .rdHref (fieldJ w) (fieldB w)⟩]

/-- Rows 14 to 27: bus writes. -/
def busWriteRows : List OpRow := [
  ⟨0x2000, 0xFC00, fun w => .wrTick (fieldN w) (fieldV w)⟩,
  ⟨0x2400, 0xFC00, fun w => .wrDelay (fieldN w) (fieldV w)⟩,
  ⟨0x2800, 0xFC00, fun w => .wrTarget (fieldN w) (fieldV w)⟩,
  ⟨0x2C00, 0xFF00, fun w => .wrCtrl (fieldV w)⟩,
  ⟨0x2D01, 0xFFFF, fun _ => .cmdArm⟩,
  ⟨0x2D00, 0xFF00, fun w => .cmdBad (fieldV w)⟩,
  ⟨0x2E00, 0xFF00, fun w => .wrStatus (fieldV w)⟩,
  ⟨0x2F00, 0xFF00, fun w => .wrIen (fieldV w)⟩,
  ⟨0x3000, 0xFF00, fun w => .wrPend (fieldV w)⟩,
  ⟨0x3100, 0xFF00, fun w => .wrOvr (fieldV w)⟩,
  ⟨0x3200, 0xFF00, fun w => .wrErr (fieldV w)⟩,
  ⟨0x3300, 0xFF00, fun w => .wrSvcr (fieldV w)⟩,
  ⟨0x3400, 0xFC00, fun w => .wrRsvd (fieldN w) (fieldV w)⟩,
  ⟨0x3800, 0xF800, fun w => .wrHref (fieldJ w) (fieldB w) (fieldV w)⟩]

/-- Rows 28 to 34: event words. -/
def eventRows : List OpRow := [
  ⟨0x4000, 0xFFFF, fun _ => .evtNone⟩,
  ⟨0x4001, 0xFFFF, fun _ => .evtRaiseTim⟩,
  ⟨0x4002, 0xFFFF, fun _ => .evtRaiseRtc⟩,
  ⟨0x4004, 0xFFFF, fun _ => .evtRaiseExt⟩,
  ⟨0x4008, 0xFFFF, fun _ => .evtHret⟩,
  ⟨0x4010, 0xFFFF, fun _ => .evtIack⟩,
  ⟨0x4000, 0xFFE0, fun w => .evtMulti (fieldE w)⟩]

/-- Rows 35 to 39: internal steps, reset, and the row that covers every word. -/
def lastRows : List OpRow := [
  ⟨0x8000, 0xFFFF, fun _ => .intEnter⟩,
  ⟨0x8001, 0xFFFF, fun _ => .intClear⟩,
  ⟨0x8002, 0xFFFF, fun _ => .intPoll⟩,
  ⟨0xC000, 0xFFFF, fun _ => .sysReset⟩,
  ⟨0x0000, 0x0000, fun w => .illegal w⟩]

/-- The 39 rows in decode order (30_encoding.md R84, R93). -/
def opcodeRows : List OpRow := busReadRows ++ busWriteRows ++ eventRows ++ lastRows

/-- The operation of a step word: that of the first row that covers it (30_encoding.md R84). Total: a word no other
row covers is rejected by name, as `ILLEGAL` (R85). -/
def decode (w : StepWord) : Instr :=
  match opcodeRows.find? (fun r => r.covers w) with
  | some r => r.op w
  | none   => .illegal w

/-- The instruction of a row's bits, numbered as `Sw[15:0]` is; every bit above `nbits` is 0 (log entry 18). -/
def decodeTableWord (nbits w : Nat) : Option Instr :=
  if nbits ≤ 16 then some (decode (BitVec.ofNat 16 (w % 2 ^ nbits))) else none

/-! ### The encoder -/

/-- Format BUS (30_encoding.md R81), from the ports `bus_we`, `bus_addr`, `bus_wdata` (10_state.md R45). -/
def busWord (we : Bool) (addr : BitVec 5) (wdata : Byte) : StepWord :=
  0b00#2 ++ BitVec.ofBool we ++ addr ++ wdata

/-- Format EVT (30_encoding.md R82): the five event inputs sampled together, `e = {iack, hret, ext, rtc, tim}`. -/
def evtWord (e : BitVec 5) : StepWord := 0b01#2 ++ 0#9 ++ e

/-- Format INT (30_encoding.md R83). -/
def intWord (u : BitVec 2) : StepWord := 0b10#2 ++ 0#12 ++ u

/-- Format SYS: the word of `RESET` (30_encoding.md R83). -/
def sysWord : StepWord := 0b11#2 ++ 0#14

/-- Offset `4*i + n` of byte `n` of data register `i` (10_state.md R24); `i = 5` gives the reserved 0x14..0x17. -/
def wordOff (i : BitVec 3) (n : Fin 4) : BitVec 5 := i ++ BitVec.ofFin (w := 2) n

/-- Offset `0x18 + 2j + b` of byte `b` of `HREF[j]` (20_memory.md R62). -/
def hrefOff (j : Slot) (b : RefByte) : BitVec 5 := 0b11#2 ++ j.index ++ b.index

/-- The canonical step word of an instruction: `DATA = 0x00` on a read (30_encoding.md R86). -/
def encode : Instr → StepWord
  | .rdTick n      => busWord false (wordOff 0 n) 0x00
  | .rdDelay n     => busWord false (wordOff 1 n) 0x00
  | .rdTarget n    => busWord false (wordOff 2 n) 0x00
  | .rdCtrl        => busWord false 0x0C 0x00
  | .rdCmd         => busWord false 0x0D 0x00
  | .rdStatus      => busWord false 0x0E 0x00
  | .rdIen         => busWord false 0x0F 0x00
  | .rdPend        => busWord false 0x10 0x00
  | .rdOvr         => busWord false 0x11 0x00
  | .rdErr         => busWord false 0x12 0x00
  | .rdSvcr        => busWord false 0x13 0x00
  | .rdRsvd o      => busWord false (wordOff 5 o) 0x00
  | .rdHref j b    => busWord false (hrefOff j b) 0x00
  | .wrTick n v    => busWord true (wordOff 0 n) v
  | .wrDelay n v   => busWord true (wordOff 1 n) v
  | .wrTarget n v  => busWord true (wordOff 2 n) v
  | .wrCtrl v      => busWord true 0x0C v
  | .cmdArm        => busWord true 0x0D 0x01
  | .cmdBad v      => busWord true 0x0D v
  | .wrStatus v    => busWord true 0x0E v
  | .wrIen v       => busWord true 0x0F v
  | .wrPend v      => busWord true 0x10 v
  | .wrOvr v       => busWord true 0x11 v
  | .wrErr v       => busWord true 0x12 v
  | .wrSvcr v      => busWord true 0x13 v
  | .wrRsvd o v    => busWord true (wordOff 5 o) v
  | .wrHref j b v  => busWord true (hrefOff j b) v
  | .evtNone       => evtWord 0b00000
  | .evtRaiseTim   => evtWord 0b00001
  | .evtRaiseRtc   => evtWord 0b00010
  | .evtRaiseExt   => evtWord 0b00100
  | .evtHret       => evtWord 0b01000
  | .evtIack       => evtWord 0b10000
  | .evtMulti e    => evtWord e
  | .intEnter      => intWord 0b00
  | .intClear      => intWord 0b01
  | .intPoll       => intWord 0b10
  | .sysReset      => sysWord
  | .illegal w     => w

end Sys2Proof
end

