-- ==== Sys2Proof/Machine/State.lean ====
section
/-! DEFINITION. The state of MTID (10_state.md R20), the results of the latest bus transaction, the steps still to
come, the ways a step can stop, and the state after reset (10_state.md R41). -/

namespace Sys2Proof.Machine

/-- `WS`, the wait sequencer state (10_state.md R27). -/
inductive WaitState where
  /-- `W_IDLE`: no wait in progress. -/
  | idle
  /-- `W_CHECK`: a wait in progress, the CPU awake and about to test the loop condition. -/
  | check
  /-- `W_HALT`: a wait in progress, the CPU in low power. -/
  | halt
  deriving DecidableEq, Repr

/-- A pair `(s,k)` with `k` in `0 .. nh(s)-1`, that is, one handler in the list of one source (10_state.md R26,
42_interrupt_router.md R141; log entry 12). -/
inductive Handler where
  /-- `(TIM,0)` -/
  | tim0
  /-- `(TIM,1)` -/
  | tim1
  /-- `(RTC,0)` -/
  | rtc0
  /-- `(EXT,0)` -/
  | ext0
  deriving DecidableEq, Repr

/-- `SVC`, the service sequencer state (10_state.md R26). -/
inductive Svc where
  /-- `IDLE`: no service in progress. -/
  | idle
  /-- `ACK(s)`: source `s` acknowledged, no handler started. -/
  | ack (s : Source)
  /-- `HND(s,k)`: handler `k` of source `s` dispatched and not yet returned. -/
  | hnd (h : Handler)
  /-- `CLR(s)`: all handlers of `s` returned, flag not yet cleared. -/
  | clr (s : Source)
  deriving DecidableEq, Repr

/-- The handler table `HREF[0..3]` (10_state.md R34), one reference per slot. -/
structure HandlerTable where
  systick : HandlerRef
  rtc     : HandlerRef
  ext     : HandlerRef
  ptick   : HandlerRef
  deriving DecidableEq, Repr

/-- The record `S` of 10_state.md R20: the whole state of MTID. Bit `s` of `ien`, `pend`, `ovr` is source `s`:
0 TIM, 1 RTC, 2 EXT (10_state.md R40). -/
structure Block where
  tick   : Word
  delay  : Word
  target : Word
  ord    : Bool
  lock   : Bool
  ws     : WaitState
  ien    : BitVec 3
  pend   : BitVec 3
  ovr    : BitVec 3
  svc    : Svc
  href   : HandlerTable
  err    : BitVec 4
  deriving DecidableEq, Repr

/-- What the latest step drove on `bus_rdata` and `bus_err` (10_state.md R36; log entry 3). -/
inductive BusOut where
  /-- The latest step was no bus transaction. -/
  | none
  /-- A bus read: the byte on `bus_rdata`, and whether `bus_err` was asserted. -/
  | read (rdata : Byte) (err : Bool)
  /-- A bus write: whether `bus_err` was asserted; the spec gives `bus_rdata` no value. -/
  | write (err : Bool)
  deriving DecidableEq, Repr

/-- MTID with its surroundings: the record `S`, the results of the latest step, and the step words its agents cause
next, first one first (00_scope.md R5, R6; log entries 1 and 2). -/
structure State where
  blk    : Block
  busOut : BusOut
  script : List StepWord
  deriving DecidableEq, Repr

/-- MTID never stops with a fault: what the spec calls a fault (`ERR`, `OVR`) is recorded in the state and the machine
goes on (60_exceptions.md R200, R204, R222). No constructor, so nobody raises one; safe. -/
inductive Fault where
  deriving DecidableEq, Repr

/-- Why a step has no next state. -/
inductive Refusal where
  /-- Raised by `exec` for an instruction without a meaning yet. Safe: the run stops. -/
  | notModelled (mnemonic : String)
  /-- Raised by the meaning of `ILLEGAL`: the word spells no step (30_encoding.md R85). Safe: the spec has no
  transition here either. -/
  | illegalStepWord (w : StepWord)
  /-- Raised by the meaning of `INT.ENTER` when `SVC` is not `ACK(s)`: not enabled (42_interrupt_router.md R147).
  Safe: the spec has no transition here either. -/
  | enterNotEnabled
  /-- Raised by the meaning of `INT.CLEAR` when `SVC` is not `CLR(s)`: not enabled (42_interrupt_router.md R151).
  Safe: the spec has no transition here either. -/
  | clearNotEnabled
  /-- Raised by the meaning of `INT.POLL` when `WS` is not `W_CHECK`: not enabled (41_deadline_wait.md R129).
  Safe: the spec has no transition here either. -/
  | pollNotEnabled
  /-- Raised by `step` when the script is empty: no agent causes a step (log entry 2). Safe: the run ends. -/
  | endOfScript
  deriving DecidableEq, Repr

/-- The record `S` after reset (10_state.md R41). -/
def Block.reset : Block where
  tick   := Config.tickReset
  delay  := 0
  target := 0
  ord    := false
  lock   := false
  ws     := .idle
  ien    := 0
  pend   := 0
  ovr    := 0
  svc    := .idle
  href   := ⟨0, 0, 0, 0⟩
  err    := 0

/-- The machine right after reset: the record of 10_state.md R41, no bus transaction made, no step given. -/
def State.reset : State where
  blk    := Block.reset
  busOut := .none
  script := []

end Sys2Proof.Machine
end

