-- ==== Sys2Proof/Machine/Operands.lean ====
section
/-! DEFINITION. Operand forms: bytes of registers, bits of the per-source registers, the handler lists and the
handler table. -/

namespace Sys2Proof

/-- The number of a source: TIM 0, RTC 1, EXT 2 (42_interrupt_router.md R140). -/
def Source.index : Source → Nat
  | .tim => 0
  | .rtc => 1
  | .ext => 2

/-- The number of a source as the two bits of `vec` and `SVCR[3:2]` (10_state.md R36, R39). -/
def Source.bits (s : Source) : BitVec 2 := BitVec.ofNat 2 s.index

/-- The per-source register with only bit `s` set. -/
def Source.mask : Source → BitVec 3
  | .tim => 0b001
  | .rtc => 0b010
  | .ext => 0b100

end Sys2Proof

namespace Sys2Proof.Machine

/-! ### Bytes of registers: little-endian (20_memory.md R62) -/

/-- Byte `n` of a data register, bits `[8n+7 : 8n]` (10_state.md R24). -/
def wordByte (x : Word) (n : Fin 4) : Byte := x.extractLsb' (8 * n.val) 8

/-- A data register with byte `n` replaced; the other three bytes keep their values (41_deadline_wait.md R121). -/
def setWordByte (x : Word) (n : Fin 4) (v : Byte) : Word :=
  (x &&& ~~~(0xFF#32 <<< (8 * n.val))) ||| (v.setWidth 32 <<< (8 * n.val))

/-- Byte `b` of a handler reference: low is bits `[7:0]`, high `[15:8]` (20_memory.md R62). -/
def refByte (h : HandlerRef) : RefByte → Byte
  | .low  => h.extractLsb' 0 8
  | .high => h.extractLsb' 8 8

/-- A handler reference with byte `b` replaced; the other byte keeps its value (43_control_status.md R182). -/
def setRefByte (h : HandlerRef) (b : RefByte) (v : Byte) : HandlerRef :=
  match b with
  | .low  => h.extractLsb' 8 8 ++ v
  | .high => v ++ h.extractLsb' 0 8

/-- The data registers `x[0] = TICK`, `x[1] = DELAY`, `x[2] = TARGET` (10_state.md R24). -/
def Block.x (b : Block) : Fin 3 → Word
  | 0 => b.tick
  | 1 => b.delay
  | 2 => b.target

/-! ### Bits of `IEN`, `PEND`, `OVR` -/

/-- Bit `s` of a per-source register (10_state.md R30, R40). -/
def flag (f : BitVec 3) (s : Source) : Bool := f.getLsbD s.index

/-- `f[s] <- 1`. -/
def setFlag (f : BitVec 3) (s : Source) : BitVec 3 := f ||| s.mask

/-- `f[s] <- 0`. -/
def clearFlag (f : BitVec 3) (s : Source) : BitVec 3 := f &&& ~~~s.mask

/-! ### Handler lists (42_interrupt_router.md R141) -/

/-- `nh(s)`, the number of handlers of a source. -/
def nh : Source → Nat
  | .tim => 2
  | .rtc => 1
  | .ext => 1

/-- The source `s` of a pair `(s,k)`. -/
def Handler.source : Handler → Source
  | .tim0 | .tim1 => .tim
  | .rtc0 => .rtc
  | .ext0 => .ext

/-- The handler number `k` of a pair `(s,k)`. -/
def Handler.step : Handler → Nat
  | .tim0 | .rtc0 | .ext0 => 0
  | .tim1 => 1

/-- The pair `(s,0)`: the first handler of a source. -/
def firstHandler : Source → Handler
  | .tim => .tim0
  | .rtc => .rtc0
  | .ext => .ext0

/-- The pair `(s,k+1)`, when `k + 1 < nh(s)`. -/
def Handler.next? : Handler → Option Handler
  | .tim0 => some .tim1
  | .tim1 | .rtc0 | .ext0 => none

/-- `slot(s,k)`, the slot of a handler: for TIM SYSTICK then PTICK. -/
def Handler.slot : Handler → Slot
  | .tim0 => .systick
  | .tim1 => .ptick
  | .rtc0 => .rtc
  | .ext0 => .ext

/-! ### The handler table (10_state.md R34) -/

/-- `HREF[j]`. -/
def HandlerTable.get (t : HandlerTable) : Slot → HandlerRef
  | .systick => t.systick
  | .rtc     => t.rtc
  | .ext     => t.ext
  | .ptick   => t.ptick

/-- `HREF[j] <- h`. -/
def HandlerTable.set (t : HandlerTable) (j : Slot) (h : HandlerRef) : HandlerTable :=
  match j with
  | .systick => { t with systick := h }
  | .rtc     => { t with rtc := h }
  | .ext     => { t with ext := h }
  | .ptick   => { t with ptick := h }

end Sys2Proof.Machine
end

