-- ==== Sys2Proof/Machine/Flags.lean ====
section
/-! DEFINITION. The derived signals (10_state.md R35), the output ports (R36), the bytes the status registers read as
(R37 to R40), and the enabling conditions of the internal steps. -/

namespace Sys2Proof.Machine

/-! ### Derived signals (10_state.md R35) -/

/-- `match(S) = (TICK == TARGET)` (41_deadline_wait.md R125). -/
def Block.matches (b : Block) : Bool := b.tick == b.target

/-- `reached(S) = ((TICK -_32 TARGET) < 2^31)`, unsigned (41_deadline_wait.md R126). -/
def Block.reached (b : Block) : Bool := decide ((b.tick - b.target).toNat < 2 ^ 31)

/-- `done(S)`: `reached` when `ORD = 1`, else `match` (41_deadline_wait.md R127). -/
def Block.done (b : Block) : Bool := if b.ord then b.reached else b.matches

/-- `req(S) = PEND & IEN` (42_interrupt_router.md R142). -/
def Block.req (b : Block) : BitVec 3 := b.pend &&& b.ien

/-- `irq(S)`: no service, no re-test outstanding, some request (42_interrupt_router.md R145). -/
def Block.irq (b : Block) : Bool := b.svc == .idle && b.ws != .check && b.req != 0

/-- `sel(S)`: the first source in `PRIO` whose `req` bit is 1; none where the spec leaves it undefined
(42_interrupt_router.md R144). -/
def Block.sel (b : Block) : Option Source := Config.prio.find? (fun s => flag b.req s)

/-- `lp_req(S)`: the low-power request (60_exceptions.md R220). -/
def Block.lpReq (b : Block) : Bool := b.ws == .halt && b.svc == .idle

/-- `wait_busy(S)`. -/
def Block.waitBusy (b : Block) : Bool := b.ws != .idle

/-- `insvc(S)`: the CPU is in interrupt context (60_exceptions.md R212). -/
def Block.inSvc (b : Block) : Bool := b.svc != .idle

/-! ### Output ports (10_state.md R36), beside `match`, `reached`, `irq`, `lp_req`, `wait_busy` above -/

/-- `tick_q[31:0]`. -/
def Block.tickQ (b : Block) : Word := b.tick

/-- `vec[1:0]`: the selected source, 0 when nothing requests. -/
def Block.vec (b : Block) : BitVec 2 :=
  match b.sel with
  | some s => s.bits
  | none   => 0

/-- The handler being dispatched, while `SVC` is some `HND(s,k)` (42_interrupt_router.md R148). -/
def Block.handler? (b : Block) : Option Handler :=
  match b.svc with
  | .hnd h => some h
  | .idle | .ack _ | .clr _ => none

/-- `disp_valid`. -/
def Block.dispValid (b : Block) : Bool := b.handler?.isSome

/-- `disp_slot[1:0]`: `slot(s,k)` during a dispatch, else 0. -/
def Block.dispSlot (b : Block) : BitVec 2 :=
  match b.handler? with
  | some h => h.slot.index
  | none   => 0

/-- `disp_href[15:0]`: `HREF[slot(s,k)]` during a dispatch, else 0: the `pc <- HREF[j]` of 00_scope.md R13. -/
def Block.dispHref (b : Block) : HandlerRef :=
  match b.handler? with
  | some h => b.href.get h.slot
  | none   => 0

/-- `bus_err`: asserted by the latest step; low on a step that is no bus transaction (60_exceptions.md R200, R204). -/
def State.busErr (s : State) : Bool :=
  match s.busOut with
  | .none        => false
  | .read _ err  => err
  | .write err   => err

/-- `bus_rdata[7:0]` after a bus read; no value after any other step (log entry 3). -/
def State.busRdata (s : State) : Option Byte :=
  match s.busOut with
  | .read d _         => some d
  | .none | .write _  => none

/-! ### The bytes of the control and status registers -/

/-- `CTRL`: `{0b000000, LOCK, ORD}` (10_state.md R37). -/
def Block.ctrlByte (b : Block) : Byte := 0b000000#6 ++ BitVec.ofBool b.lock ++ BitVec.ofBool b.ord

/-- `STATUS`: `{0b00, REQ, INSVC, REACHED, MATCH, HALT, WAIT}` (10_state.md R38). -/
def Block.statusByte (b : Block) : Byte :=
  0b00#2 ++ BitVec.ofBool (b.req != 0) ++ BitVec.ofBool b.inSvc ++ BitVec.ofBool b.reached
    ++ BitVec.ofBool b.matches ++ BitVec.ofBool (b.ws == .halt) ++ BitVec.ofBool b.waitBusy

/-- A per-source register as a byte: bits 7:3 read 0 (10_state.md R40). -/
def sourceByte (f : BitVec 3) : Byte := 0b00000#5 ++ f

/-- `ERR` as a byte: bits 7:4 read 0 (10_state.md R40). -/
def Block.errByte (b : Block) : Byte := 0b0000#4 ++ b.err

/-- `SVCR`: `{0, SLOT, STEP, SRC, PHASE}` (10_state.md R39). -/
def Block.svcrByte (b : Block) : Byte :=
  match b.svc with
  | .idle  => 0x00
  | .ack s => 0b0000#4 ++ s.bits ++ 1#2
  | .hnd h => 0b0#1 ++ h.slot.index ++ BitVec.ofNat 1 h.step ++ h.source.bits ++ 2#2
  | .clr s => 0b0000#4 ++ s.bits ++ 3#2

/-! ### When an internal step is enabled -/

/-- `INT.ENTER` is enabled iff `SVC == ACK(s)` (42_interrupt_router.md R147). -/
def Block.enterEnabled (b : Block) : Bool :=
  match b.svc with
  | .ack _ => true
  | .idle | .hnd _ | .clr _ => false

/-- `INT.CLEAR` is enabled iff `SVC == CLR(s)` (42_interrupt_router.md R151). -/
def Block.clearEnabled (b : Block) : Bool :=
  match b.svc with
  | .clr _ => true
  | .idle | .ack _ | .hnd _ => false

/-- `INT.POLL` is enabled iff `WS == W_CHECK` (41_deadline_wait.md R129). -/
def Block.pollEnabled (b : Block) : Bool := b.ws == .check

end Sys2Proof.Machine
end

