-- ==== Sys2Proof/Machine/Ops.lean ====
section
/-! DEFINITION. The shared operations: field updates, the error record, bus transactions and BusError, the events,
interrupt entry (acknowledge, enter) and return (handler return, clear), and the wait sequencer's test. -/

namespace Sys2Proof.Machine

/-! ### Field updates `F <- v` (00_scope.md R13) -/

def Block.setTick (b : Block) (v : Word) : Block := { b with tick := v }
def Block.setDelay (b : Block) (v : Word) : Block := { b with delay := v }
def Block.setTarget (b : Block) (v : Word) : Block := { b with target := v }
def Block.setOrd (b : Block) (v : Bool) : Block := { b with ord := v }
def Block.setLock (b : Block) (v : Bool) : Block := { b with lock := v }
def Block.setWs (b : Block) (v : WaitState) : Block := { b with ws := v }
def Block.setIen (b : Block) (v : BitVec 3) : Block := { b with ien := v }
def Block.setPend (b : Block) (v : BitVec 3) : Block := { b with pend := v }
def Block.setOvr (b : Block) (v : BitVec 3) : Block := { b with ovr := v }
def Block.setSvc (b : Block) (v : Svc) : Block := { b with svc := v }
def Block.setHref (b : Block) (v : HandlerTable) : Block := { b with href := v }
def Block.setErr (b : Block) (v : BitVec 4) : Block := { b with err := v }

def State.setBlk (s : State) (v : Block) : State := { s with blk := v }
def State.setBusOut (s : State) (v : BusOut) : State := { s with busOut := v }
def State.setScript (s : State) (v : List StepWord) : State := { s with script := v }

/-! ### Errors (60_exceptions.md R200, R201) -/

/-- The cause codes 1 to 8 of 60_exceptions.md R201. -/
inductive ErrCode where
  | rsvdAddr
  | readOnly
  | badCmd
  | inService
  | busy
  | locked
  | notLocked
  | spuriousHret
  deriving DecidableEq, Repr

/-- The value recorded in `ERR[3:0]` (60_exceptions.md R201). -/
def ErrCode.code : ErrCode → BitVec 4
  | .rsvdAddr     => 1
  | .readOnly     => 2
  | .badCmd       => 3
  | .inService    => 4
  | .busy         => 5
  | .locked       => 6
  | .notLocked    => 7
  | .spuriousHret => 8

/-- `if ERR == 0 then ERR <- code` (60_exceptions.md R200 (3), R203). -/
def Block.recordErr (b : Block) (c : ErrCode) : Block :=
  if b.err = 0 then b.setErr c.code else b

/-! ### Bus transactions

`raise BusError(code)` (60_exceptions.md R200) is the error case of the two operations below, and nothing else:
`bus_err` asserted, read data 0x00, the first code recorded, no other field changed. -/

/-- A bus read: the byte on `bus_rdata` and no state written (20_memory.md R64), or BusError. -/
def State.busRead (s : State) : Except ErrCode Byte → State
  | .ok d    => s.setBusOut (.read d false)
  | .error c => (s.setBlk (s.blk.recordErr c)).setBusOut (.read 0x00 true)

/-- A bus write: the effect of the one rule for the offset (20_memory.md R65), or BusError. -/
def State.busWrite (s : State) : Except ErrCode Block → State
  | .ok b    => (s.setBlk b).setBusOut (.write false)
  | .error c => (s.setBlk (s.blk.recordErr c)).setBusOut (.write true)

/-- A step that is no bus transaction (60_exceptions.md R204: `bus_err` is not asserted). -/
def State.quietStep (s : State) (b : Block) : State := (s.setBlk b).setBusOut .none

/-! ### Events (42_interrupt_router.md) -/

/-- `RAISE(s)` (R143): set the pending flag, or record that the event was merged. -/
def Block.raise (b : Block) (s : Source) : Block :=
  if flag b.pend s then b.setOvr (setFlag b.ovr s) else b.setPend (setFlag b.pend s)

/-! ### Interrupt entry and return

MTID saves nothing at entry and restores nothing at return but `SVC` (60_exceptions.md R207, R210); `IEN` is not
changed. Control goes to `HREF[slot(s,k)]`, which `Block.dispHref` drives while `SVC` is `HND(s,k)`. -/

/-- `IACK` (R146): `if irq(S) then SVC <- ACK(sel(S))`, else no change. -/
def Block.iack (b : Block) : Block :=
  if b.irq then
    match b.sel with
    | some s => b.setSvc (.ack s)
    | none   => b
  else b

/-- `Advance()`: `TICK <- TICK +_32 1` (40_tick_counter.md R100). -/
def Block.advance (b : Block) : Block := b.setTick (b.tick + 1)

/-- `ENTER` (R147) for the acknowledged source `s`: advance the counter if `s` is TIM, dispatch the first handler. -/
def Block.enter (b : Block) (s : Source) : Block :=
  match s with
  | .tim       => b.advance.setSvc (.hnd (firstHandler .tim))
  | .rtc | .ext => b.setSvc (.hnd (firstHandler s))

/-- `HRET` (R150): dispatch the next handler, or mark the service for clearing; a return with no handler running
records SPURIOUS_HRET (60_exceptions.md R204). -/
def Block.hret (b : Block) : Block :=
  match b.svc with
  | .hnd h =>
    match h.next? with
    | some h' => b.setSvc (.hnd h')
    | none    => b.setSvc (.clr h.source)
  | .idle | .ack _ | .clr _ => b.recordErr .spuriousHret

/-- A halted wait is re-tested after a service (41_deadline_wait.md R130). -/
def WaitState.afterService : WaitState → WaitState
  | .halt  => .check
  | .idle  => .idle
  | .check => .check

/-- `CLEAR` (R151) of the service of `s`: clear its flag, end the service, wake a halted wait. -/
def Block.clear (b : Block) (s : Source) : Block :=
  ((b.setPend (clearFlag b.pend s)).setSvc .idle).setWs b.ws.afterService

/-- `EVT.MULTI e` (R152): the events of `e` one after the other, each reading the state the one before it left, in the
order TIM, RTC, EXT, HRET, IACK. -/
def Block.events (b : Block) (e : BitVec 5) : Block :=
  let b1 := if e.getLsbD 0 then b.raise .tim else b
  let b2 := if e.getLsbD 1 then b1.raise .rtc else b1
  let b3 := if e.getLsbD 2 then b2.raise .ext else b2
  let b4 := if e.getLsbD 3 then b3.hret else b3
  if e.getLsbD 4 then b4.iack else b4

/-! ### The wait (41_deadline_wait.md) -/

/-- An accepted `ARM` (R128): `TARGET <- TICK +_32 DELAY`, `WS <- W_CHECK`, in one step. -/
def Block.arm (b : Block) : Block := (b.setTarget (b.tick + b.delay)).setWs .check

/-- `POLL` (R129): one evaluation of the loop condition. -/
def Block.poll (b : Block) : Block := if b.done then b.setWs .idle else b.setWs .halt

end Sys2Proof.Machine
end

