-- ==== Sys2Proof/Machine/Control.lean ====
section
/-! DEFINITION. Control, status and handler table registers (43_control_status.md), and the reserved offsets
(20_memory.md R68). -/

namespace Sys2Proof.Machine

/-- `RD.CTRL` (43_control_status.md R170). -/
def execRdCtrl (s : State) : Host.Outcome State Fault Refusal :=
  .next (s.busRead (.ok s.blk.ctrlByte))

/-- `RD.STATUS` (43_control_status.md R172). -/
def execRdStatus (s : State) : Host.Outcome State Fault Refusal :=
  .next (s.busRead (.ok s.blk.statusByte))

/-- `RD.IEN` (43_control_status.md R175). -/
def execRdIen (s : State) : Host.Outcome State Fault Refusal :=
  .next (s.busRead (.ok (sourceByte s.blk.ien)))

/-- `RD.PEND` (43_control_status.md R177). -/
def execRdPend (s : State) : Host.Outcome State Fault Refusal :=
  .next (s.busRead (.ok (sourceByte s.blk.pend)))

/-- `RD.OVR` (43_control_status.md R178). -/
def execRdOvr (s : State) : Host.Outcome State Fault Refusal :=
  .next (s.busRead (.ok (sourceByte s.blk.ovr)))

/-- `RD.ERR` (43_control_status.md R179). -/
def execRdErr (s : State) : Host.Outcome State Fault Refusal :=
  .next (s.busRead (.ok s.blk.errByte))

/-- `RD.SVCR` (43_control_status.md R180). -/
def execRdSvcr (s : State) : Host.Outcome State Fault Refusal :=
  .next (s.busRead (.ok s.blk.svcrByte))

/-- `RD.RSVD` (20_memory.md R68): RSVD_ADDR, the read returns 0x00. -/
def execRdRsvd (_o : Fin 4) (s : State) : Host.Outcome State Fault Refusal :=
  .next (s.busRead (.error .rsvdAddr))

/-- `RD.HREF j,b` (43_control_status.md R181). -/
def execRdHref (j : Slot) (b : RefByte) (s : State) : Host.Outcome State Fault Refusal :=
  .next (s.busRead (.ok (refByte (s.blk.href.get j) b)))

/-- The effect of `WR.CTRL v` (43_control_status.md R171): `ORD <- v[0]`, `LOCK <- LOCK | v[1]`. -/
def writeCtrl (v : Byte) (b : Block) : Except ErrCode Block :=
  if b.ws ≠ .idle then .error .busy
  else .ok ((b.setOrd (v.getLsbD 0)).setLock (b.lock || v.getLsbD 1))

/-- `WR.CTRL v` (43_control_status.md R171). -/
def execWrCtrl (v : Byte) (s : State) : Host.Outcome State Fault Refusal :=
  .next (s.busWrite (writeCtrl v s.blk))

/-- `WR.STATUS v` (43_control_status.md R173): READ_ONLY. -/
def execWrStatus (_v : Byte) (s : State) : Host.Outcome State Fault Refusal :=
  .next (s.busWrite (.error .readOnly))

/-- The effect of `WR.IEN v` (43_control_status.md R176). -/
def writeIen (v : Byte) (b : Block) : Except ErrCode Block :=
  if v.extractLsb' 0 3 ≠ 0 ∧ b.lock = false then .error .notLocked
  else .ok (b.setIen (v.extractLsb' 0 3))

/-- `WR.IEN v` (43_control_status.md R176). -/
def execWrIen (v : Byte) (s : State) : Host.Outcome State Fault Refusal :=
  .next (s.busWrite (writeIen v s.blk))

/-- `WR.PEND v` (43_control_status.md R173): READ_ONLY. -/
def execWrPend (_v : Byte) (s : State) : Host.Outcome State Fault Refusal :=
  .next (s.busWrite (.error .readOnly))

/-- `WR.OVR v` (43_control_status.md R173): READ_ONLY. -/
def execWrOvr (_v : Byte) (s : State) : Host.Outcome State Fault Refusal :=
  .next (s.busWrite (.error .readOnly))

/-- `WR.ERR v` (43_control_status.md R173): READ_ONLY. -/
def execWrErr (_v : Byte) (s : State) : Host.Outcome State Fault Refusal :=
  .next (s.busWrite (.error .readOnly))

/-- `WR.SVCR v` (43_control_status.md R173): READ_ONLY. -/
def execWrSvcr (_v : Byte) (s : State) : Host.Outcome State Fault Refusal :=
  .next (s.busWrite (.error .readOnly))

/-- `WR.RSVD v` (20_memory.md R68): RSVD_ADDR. -/
def execWrRsvd (_o : Fin 4) (_v : Byte) (s : State) : Host.Outcome State Fault Refusal :=
  .next (s.busWrite (.error .rsvdAddr))

/-- The effect of `WR.HREF j,b,v` (43_control_status.md R182). -/
def writeHref (j : Slot) (b : RefByte) (v : Byte) (k : Block) : Except ErrCode Block :=
  if k.lock then .error .locked
  else .ok (k.setHref (k.href.set j (setRefByte (k.href.get j) b v)))

/-- `WR.HREF j,b,v` (43_control_status.md R182). -/
def execWrHref (j : Slot) (b : RefByte) (v : Byte) (s : State) : Host.Outcome State Fault Refusal :=
  .next (s.busWrite (writeHref j b v s.blk))

end Sys2Proof.Machine
end

