-- ==== Sys2Proof/Machine/Deadline.lean ====
section
/-! DEFINITION. The deadline unit: `RD.DELAY`, `WR.DELAY`, `RD.TARGET`, `WR.TARGET`, `CMD.ARM`, `CMD.BAD`, `RD.CMD`,
`INT.POLL` (41_deadline_wait.md). -/

namespace Sys2Proof.Machine

/-- `RD.DELAY n` (41_deadline_wait.md R120). -/
def execRdDelay (n : Fin 4) (s : State) : Host.Outcome State Fault Refusal :=
  .next (s.busRead (.ok (wordByte s.blk.delay n)))

/-- `RD.TARGET n` (41_deadline_wait.md R122). -/
def execRdTarget (n : Fin 4) (s : State) : Host.Outcome State Fault Refusal :=
  .next (s.busRead (.ok (wordByte s.blk.target n)))

/-- `RD.CMD` (41_deadline_wait.md R137): reads 0x00. -/
def execRdCmd (s : State) : Host.Outcome State Fault Refusal :=
  .next (s.busRead (.ok 0x00))

/-- The effect of `WR.DELAY n,v` (41_deadline_wait.md R121). -/
def writeDelay (n : Fin 4) (v : Byte) (b : Block) : Except ErrCode Block :=
  if b.ws ≠ .idle then .error .busy else .ok (b.setDelay (setWordByte b.delay n v))

/-- `WR.DELAY n,v` (41_deadline_wait.md R121). -/
def execWrDelay (n : Fin 4) (v : Byte) (s : State) : Host.Outcome State Fault Refusal :=
  .next (s.busWrite (writeDelay n v s.blk))

/-- `WR.TARGET n,v` (41_deadline_wait.md R123): READ_ONLY. -/
def execWrTarget (_n : Fin 4) (_v : Byte) (s : State) : Host.Outcome State Fault Refusal :=
  .next (s.busWrite (.error .readOnly))

/-- The effect of `CMD.ARM` (41_deadline_wait.md R128); IN_SERVICE is tested first (60_exceptions.md R202). -/
def writeArm (b : Block) : Except ErrCode Block :=
  if b.svc ≠ .idle then .error .inService
  else if b.ws ≠ .idle then .error .busy
  else .ok b.arm

/-- `CMD.ARM` (41_deadline_wait.md R128). -/
def execCmdArm (s : State) : Host.Outcome State Fault Refusal :=
  .next (s.busWrite (writeArm s.blk))

/-- `CMD.BAD v` (41_deadline_wait.md R137): BAD_CMD. -/
def execCmdBad (_v : Byte) (s : State) : Host.Outcome State Fault Refusal :=
  .next (s.busWrite (.error .badCmd))

/-- `INT.POLL` (41_deadline_wait.md R129), enabled iff `WS == W_CHECK`. -/
def execIntPoll (s : State) : Host.Outcome State Fault Refusal :=
  if s.blk.pollEnabled then .next (s.quietStep s.blk.poll) else .refused .pollNotEnabled

end Sys2Proof.Machine
end

