-- ==== Sys2Proof/Machine/Router.lean ====
section
/-! DEFINITION. The interrupt router: the event words, `INT.ENTER`, `INT.CLEAR` (42_interrupt_router.md). -/

namespace Sys2Proof.Machine

/-- `EVT.NONE` (42_interrupt_router.md R152): changes nothing. -/
def execEvtNone (s : State) : Host.Outcome State Fault Refusal :=
  .next (s.quietStep s.blk)

/-- `EVT.RAISE.TIM` (42_interrupt_router.md R143). -/
def execEvtRaiseTim (s : State) : Host.Outcome State Fault Refusal :=
  .next (s.quietStep (s.blk.raise .tim))

/-- `EVT.RAISE.RTC` (42_interrupt_router.md R143). -/
def execEvtRaiseRtc (s : State) : Host.Outcome State Fault Refusal :=
  .next (s.quietStep (s.blk.raise .rtc))

/-- `EVT.RAISE.EXT` (42_interrupt_router.md R143). -/
def execEvtRaiseExt (s : State) : Host.Outcome State Fault Refusal :=
  .next (s.quietStep (s.blk.raise .ext))

/-- `EVT.HRET` (42_interrupt_router.md R150). -/
def execEvtHret (s : State) : Host.Outcome State Fault Refusal :=
  .next (s.quietStep s.blk.hret)

/-- `EVT.IACK` (42_interrupt_router.md R146). -/
def execEvtIack (s : State) : Host.Outcome State Fault Refusal :=
  .next (s.quietStep s.blk.iack)

/-- `EVT.MULTI e` (42_interrupt_router.md R152). -/
def execEvtMulti (e : BitVec 5) (s : State) : Host.Outcome State Fault Refusal :=
  .next (s.quietStep (s.blk.events e))

/-- `INT.ENTER` (42_interrupt_router.md R147), enabled iff `SVC == ACK(s)`. -/
def execIntEnter (s : State) : Host.Outcome State Fault Refusal :=
  match s.blk.svc with
  | .ack src => .next (s.quietStep (s.blk.enter src))
  | .idle | .hnd _ | .clr _ => .refused .enterNotEnabled

/-- `INT.CLEAR` (42_interrupt_router.md R151), enabled iff `SVC == CLR(s)`. -/
def execIntClear (s : State) : Host.Outcome State Fault Refusal :=
  match s.blk.svc with
  | .clr src => .next (s.quietStep (s.blk.clear src))
  | .idle | .ack _ | .hnd _ => .refused .clearNotEnabled

end Sys2Proof.Machine
end

