-- ==== Sys2Proof/Machine/Sys.lean ====
section
/-! DEFINITION. `SYS.RESET` (70_reset_and_hazards.md R230) and `ILLEGAL` (30_encoding.md R85). -/

namespace Sys2Proof.Machine

/-- `SYS.RESET` (70_reset_and_hazards.md R230): every field of `S` takes its reset value, whatever it held. -/
def execSysReset (s : State) : Host.Outcome State Fault Refusal :=
  .next (s.quietStep Block.reset)

/-- `ILLEGAL` (30_encoding.md R85): the word spells no step; the step function refuses it. -/
def execIllegal (w : StepWord) (_s : State) : Host.Outcome State Fault Refusal :=
  .refused (.illegalStepWord w)

end Sys2Proof.Machine
end

