-- ==== Sys2Proof/Machine/Tick.lean ====
section
/-! DEFINITION. The tick counter's register: `RD.TICK`, `WR.TICK` (40_tick_counter.md). -/

namespace Sys2Proof.Machine

/-- `RD.TICK n` (40_tick_counter.md R104). -/
def execRdTick (n : Fin 4) (s : State) : Host.Outcome State Fault Refusal :=
  .next (s.busRead (.ok (wordByte s.blk.tick n)))

/-- `WR.TICK n,v` (40_tick_counter.md R103): READ_ONLY. -/
def execWrTick (_n : Fin 4) (_v : Byte) (s : State) : Host.Outcome State Fault Refusal :=
  .next (s.busWrite (.error .readOnly))

end Sys2Proof.Machine
end

