-- ==== Sys2Proof/Machine/Dispatch.lean ====
section
/-! DEFINITION. The effect of a step: one arm per constructor of `Instr`. -/

namespace Sys2Proof.Machine

def exec (i : Instr) (s : State) : Host.Outcome State Fault Refusal :=
  match i with
  | .rdTick n => Sys2Proof.Machine.execRdTick n s
  | .rdDelay n => Sys2Proof.Machine.execRdDelay n s
  | .rdTarget n => Sys2Proof.Machine.execRdTarget n s
  | .rdCtrl => Sys2Proof.Machine.execRdCtrl s
  | .rdCmd => Sys2Proof.Machine.execRdCmd s
  | .rdStatus => Sys2Proof.Machine.execRdStatus s
  | .rdIen => Sys2Proof.Machine.execRdIen s
  | .rdPend => Sys2Proof.Machine.execRdPend s
  | .rdOvr => Sys2Proof.Machine.execRdOvr s
  | .rdErr => Sys2Proof.Machine.execRdErr s
  | .rdSvcr => Sys2Proof.Machine.execRdSvcr s
  | .rdRsvd o => Sys2Proof.Machine.execRdRsvd o s
  | .rdHref j b => Sys2Proof.Machine.execRdHref j b s
  | .wrTick n v => Sys2Proof.Machine.execWrTick n v s
  | .wrDelay n v => Sys2Proof.Machine.execWrDelay n v s
  | .wrTarget n v => Sys2Proof.Machine.execWrTarget n v s
  | .wrCtrl v => Sys2Proof.Machine.execWrCtrl v s
  | .cmdArm => Sys2Proof.Machine.execCmdArm s
  | .cmdBad v => Sys2Proof.Machine.execCmdBad v s
  | .wrStatus v => Sys2Proof.Machine.execWrStatus v s
  | .wrIen v => Sys2Proof.Machine.execWrIen v s
  | .wrPend v => Sys2Proof.Machine.execWrPend v s
  | .wrOvr v => Sys2Proof.Machine.execWrOvr v s
  | .wrErr v => Sys2Proof.Machine.execWrErr v s
  | .wrSvcr v => Sys2Proof.Machine.execWrSvcr v s
  | .wrRsvd o v => Sys2Proof.Machine.execWrRsvd o v s
  | .wrHref j b v => Sys2Proof.Machine.execWrHref j b v s
  | .evtNone => Sys2Proof.Machine.execEvtNone s
  | .evtRaiseTim => Sys2Proof.Machine.execEvtRaiseTim s
  | .evtRaiseRtc => Sys2Proof.Machine.execEvtRaiseRtc s
  | .evtRaiseExt => Sys2Proof.Machine.execEvtRaiseExt s
  | .evtHret => Sys2Proof.Machine.execEvtHret s
  | .evtIack => Sys2Proof.Machine.execEvtIack s
  | .evtMulti e => Sys2Proof.Machine.execEvtMulti e s
  | .intEnter => Sys2Proof.Machine.execIntEnter s
  | .intClear => Sys2Proof.Machine.execIntClear s
  | .intPoll => Sys2Proof.Machine.execIntPoll s
  | .sysReset => Sys2Proof.Machine.execSysReset s
  | .illegal w => Sys2Proof.Machine.execIllegal w s

end Sys2Proof.Machine
end

