-- ==== Sys2Proof/Machine/Step.lean ====
section
/-! DEFINITION. One step: the next step word of the script, decoded and carried out (00_scope.md R5). -/

namespace Sys2Proof.Machine

/-- The instruction the next step runs, if an agent causes one. -/
def State.nextInstr? (s : State) : Option Instr := s.script.head?.map decode

/-- One step: take the first word of the script, decode it, carry it out. With no word left no agent causes a step. -/
def step (s : State) : Host.Outcome State Fault Refusal :=
  match s.script with
  | []        => .refused .endOfScript
  | w :: rest => exec (decode w) (s.setScript rest)

/-- The machine whose next step runs the instruction with bits `w`: the word stands first in the script
(log entries 2 and 18). -/
def State.withFetchWord (s : State) (nbits w : Nat) : State :=
  s.setScript (BitVec.ofNat 16 (w % 2 ^ nbits) :: s.script)

end Sys2Proof.Machine
end

