-- ==== Sys2Proof/Machine/Pseudo.lean ====
section
/-! DEFINITION. The pseudo-operations (30_encoding.md R91, R92): lists of steps, and the readers
that follow the loop of `NOW.R` and its low-byte-first form (40_tick_counter.md R107). -/

namespace Sys2Proof.Machine

/-- `SETVEC j, h` (30_encoding.md R91). -/
def setVec (j : Slot) (h : HandlerRef) : List Instr :=
  [.wrHref j .low (refByte h .low), .wrHref j .high (refByte h .high)]

/-- `BRINGUP h0, h1, h2, h3` (30_encoding.md R91): the block's share of the boot duty (70_reset_and_hazards.md R236). -/
def bringUp (h0 h1 h2 h3 : HandlerRef) : List Instr :=
  setVec .systick h0 ++ setVec .rtc h1 ++ setVec .ext h2 ++ setVec .ptick h3 ++ [.wrCtrl 0x02, .wrIen 0x07]

/-- `SERVICE.TIM`, `SERVICE.RTC`, `SERVICE.EXT` (30_encoding.md R91). -/
def service : Source → List Instr
  | .tim => [.evtIack, .intEnter, .evtHret, .evtHret, .intClear]
  | .rtc => [.evtIack, .intEnter, .evtHret, .intClear]
  | .ext => [.evtIack, .intEnter, .evtHret, .intClear]

/-- The one-event raise of a source (42_interrupt_router.md R143). -/
def raiseOf : Source → Instr
  | .tim => .evtRaiseTim
  | .rtc => .evtRaiseRtc
  | .ext => .evtRaiseExt

/-- `ADVANCE` (30_encoding.md R91): one whole periodic-timer interrupt. -/
def advanceOps : List Instr := raiseOf .tim :: service .tim

/-- The four reads `RD TICK0` to `RD TICK3`. -/
def readTickUp : List Instr := [.rdTick 0, .rdTick 1, .rdTick 2, .rdTick 3]

/-- The four reads `RD TICK3` to `RD TICK0`. -/
def readTickDown : List Instr := [.rdTick 3, .rdTick 2, .rdTick 1, .rdTick 0]

/-- `NOW.G`, the guarded read (30_encoding.md R91, 40_tick_counter.md R106); `m` is the byte its first step returns. -/
def nowGuarded (m : Byte) : List Instr :=
  [.rdIen, .wrIen (m &&& 0xFE)] ++ readTickUp ++ [.wrIen m]

/-- The two forms of the read-verify-reread (40_tick_counter.md R107): `down`, which is `NOW.R`, and the low byte first. -/
inductive ReadOrder where
  /-- `TICK3` to `TICK0`: byte 0 is read at steps 4 and 8. -/
  | down
  /-- `TICK0` to `TICK3`: byte 0 is read at steps 1 and 5. -/
  | up
  deriving DecidableEq, Repr

/-- The four reads of one value in an order. -/
def ReadOrder.reads : ReadOrder → List Instr
  | .down => readTickDown
  | .up   => readTickUp

/-- The step of a turn that first reads byte 0; the second such step is four later (40_tick_counter.md R107). -/
def ReadOrder.lowStep : ReadOrder → Nat
  | .down => 4
  | .up   => 1

/-- The eight reads of one turn (40_tick_counter.md R107). -/
def ReadOrder.turn (o : ReadOrder) : List Instr := o.reads ++ o.reads

/-- The eight reads of one turn of `NOW.R` (30_encoding.md R91). -/
def nowReread : List Instr := ReadOrder.down.turn

/-- The value a reader assembles from the bytes read at byte offsets 3, 2, 1, 0 (30_encoding.md R89). -/
def assemble (b3 b2 b1 b0 : Byte) : Word := b3 ++ b2 ++ b1 ++ b0

/-- The value of four bytes read one after the other in an order. -/
def ReadOrder.value : ReadOrder → Byte → Byte → Byte → Byte → Word
  | .down, w, x, y, z => assemble w x y z
  | .up,   w, x, y, z => assemble z y x w

/-- How far a reader that rereads has come (30_encoding.md R91, 40_tick_counter.md R107; log entry 22). -/
inductive Rereader where
  /-- In a turn; the bytes this turn's reads have returned, first one first. -/
  | reading (got : List Byte)
  /-- A turn gave `a == b`: the value accepted. -/
  | accepted (v : Word)
  deriving DecidableEq, Repr

/-- The reader at the start of a turn. -/
def Rereader.start : Rereader := .reading []

/-- The step the reader issues next; none once a value is accepted. -/
def Rereader.next? (o : ReadOrder) : Rereader → Option Instr
  | .reading got => o.turn[got.length]?
  | .accepted _  => none

/-- The loop (30_encoding.md R91, 40_tick_counter.md R107): the first four bytes give `a`, the second four `b`; after the
eighth the value is accepted if `a == b`, else the reader repeats from the start. -/
def Rereader.take (o : ReadOrder) : Rereader → Byte → Rereader
  | .reading [a1, a2, a3, a4, b1, b2, b3], b4 =>
    if o.value a1 a2 a3 a4 = o.value b1 b2 b3 b4 then .accepted (o.value a1 a2 a3 a4) else .start
  | .reading got, d => .reading (got ++ [d])
  | .accepted v, _ => .accepted v

/-- How many steps of its turn the reader has made. -/
def Rereader.stepsDone : Rereader → Nat
  | .reading got => got.length
  | .accepted _  => 8

/-- The reader stands between the two reads of byte 0 of its turn. -/
def Rereader.betweenLowReads (o : ReadOrder) (r : Rereader) : Bool :=
  decide (o.lowStep ≤ r.stepsDone ∧ r.stepsDone < o.lowStep + 4)

/-- `WAITMS d` (30_encoding.md R92). -/
def waitMs (d : Word) : List Instr :=
  [.wrDelay 0 (wordByte d 0), .wrDelay 1 (wordByte d 1), .wrDelay 2 (wordByte d 2), .wrDelay 3 (wordByte d 3), .cmdArm]

/-- A schedule of one whole wait: `WAITMS d`, a `POLL`, then `d` times an `ADVANCE` and a `POLL` (95_test_vectors.md S3). -/
def waitSchedule (d : Word) : List Instr :=
  waitMs d ++ [.intPoll] ++ (List.replicate d.toNat (advanceOps ++ [.intPoll])).flatten

/-- A plain read of `TICK`, low byte first, with one timer interrupt after its first step (40_tick_counter.md R105). -/
def tornRead : List Instr := [.rdTick 0] ++ advanceOps ++ [.rdTick 1, .rdTick 2, .rdTick 3]

end Sys2Proof.Machine
end

