-- ==== Sys2Proof/Machine/Text.lean ====
section
/-! DEFINITION. The textual syntax of steps (30_encoding.md R90), with the register names of 20_memory.md R67
(log entry 21). -/

namespace Sys2Proof.Machine

/-- One hexadecimal digit. -/
def hexDigit (x : BitVec 4) : Char :=
  ['0', '1', '2', '3', '4', '5', '6', '7', '8', '9', 'A', 'B', 'C', 'D', 'E', 'F'].getD x.toNat '0'

/-- A byte as `0xNN`. -/
def hexByte (v : Byte) : List Char :=
  ['0', 'x', hexDigit (v.extractLsb' 4 4), hexDigit (v.extractLsb' 0 4)]

/-- A decimal digit of a byte number or slot number. -/
def digit (n : Nat) : List Char := [Char.ofNat (48 + n)]

/-- `HREFjL` or `HREFjH`. -/
def hrefName (j : Slot) (b : RefByte) : List Char :=
  "HREF".toList ++ digit j.index.toNat ++ match b with
    | .low  => ['L']
    | .high => ['H']

/-- A line `WR <reg>, <byte>`. -/
def writeText (reg : List Char) (v : Byte) : List Char := "WR ".toList ++ reg ++ [',', ' '] ++ hexByte v

/-- The event names of a word, in the order TIM, RTC, EXT, HRET, IACK. -/
def eventNames (e : BitVec 5) : List (List Char) :=
  (if e.getLsbD 0 then ["TIM".toList] else []) ++ (if e.getLsbD 1 then ["RTC".toList] else [])
    ++ (if e.getLsbD 2 then ["EXT".toList] else []) ++ (if e.getLsbD 3 then ["HRET".toList] else [])
    ++ (if e.getLsbD 4 then ["IACK".toList] else [])

/-- The line that writes a step (30_encoding.md R90); none for `ILLEGAL`, which the syntax cannot write. -/
def stepText : Instr → Option (List Char)
  | .rdTick n     => some ("RD TICK".toList ++ digit n.val)
  | .rdDelay n    => some ("RD DELAY".toList ++ digit n.val)
  | .rdTarget n   => some ("RD TARGET".toList ++ digit n.val)
  | .rdCtrl       => some "RD CTRL".toList
  | .rdCmd        => some "RD CMD".toList
  | .rdStatus     => some "RD STATUS".toList
  | .rdIen        => some "RD IEN".toList
  | .rdPend       => some "RD PEND".toList
  | .rdOvr        => some "RD OVR".toList
  | .rdErr        => some "RD ERR".toList
  | .rdSvcr       => some "RD SVCR".toList
  | .rdRsvd o     => some ("RD ".toList ++ hexByte (0x14 + BitVec.ofNat 8 o.val))
  | .rdHref j b   => some ("RD ".toList ++ hrefName j b)
  | .wrTick n v   => some (writeText ("TICK".toList ++ digit n.val) v)
  | .wrDelay n v  => some (writeText ("DELAY".toList ++ digit n.val) v)
  | .wrTarget n v => some (writeText ("TARGET".toList ++ digit n.val) v)
  | .wrCtrl v     => some (writeText "CTRL".toList v)
  | .cmdArm       => some "ARM".toList
  | .cmdBad v     => some (writeText "CMD".toList v)
  | .wrStatus v   => some (writeText "STATUS".toList v)
  | .wrIen v      => some (writeText "IEN".toList v)
  | .wrPend v     => some (writeText "PEND".toList v)
  | .wrOvr v      => some (writeText "OVR".toList v)
  | .wrErr v      => some (writeText "ERR".toList v)
  | .wrSvcr v     => some (writeText "SVCR".toList v)
  | .wrRsvd o v   => some (writeText (hexByte (0x14 + BitVec.ofNat 8 o.val)) v)
  | .wrHref j b v => some (writeText (hrefName j b) v)
  | .evtNone      => some "EVT".toList
  | .evtRaiseTim  => some "RAISE TIM".toList
  | .evtRaiseRtc  => some "RAISE RTC".toList
  | .evtRaiseExt  => some "RAISE EXT".toList
  | .evtHret      => some "HRET".toList
  | .evtIack      => some "IACK".toList
  | .evtMulti e   => some ("EVT ".toList ++ (['+'].intercalate (eventNames e)))
  | .intEnter     => some "ENTER".toList
  | .intClear     => some "CLEAR".toList
  | .intPoll      => some "POLL".toList
  | .sysReset     => some "RESET".toList
  | .illegal _    => none

end Sys2Proof.Machine
end

