-- ==== Sys2Proof/Machine/Window.lean ====
section
/-! DEFINITION. The register window as one address space (20_memory.md R60, R67): `MemRead(off, 1)` and
`MemWrite(off, 1, v)` of 00_scope.md R13, over the effects the meanings use. -/

namespace Sys2Proof.Machine

/-- The three high bits of an offset: which group of four registers. -/
def offGroup (off : BitVec 5) : BitVec 3 := off.extractLsb' 2 3

/-- The two low bits of an offset: the byte number of a data register. -/
def offByte (off : BitVec 5) : Fin 4 := (off.extractLsb' 0 2).toFin

/-- The slot of a handler table offset, `OFF[2:1]` (30_encoding.md R81). -/
def offSlot (off : BitVec 5) : Slot := Slot.ofIndex (off.extractLsb' 1 2)

/-- The byte of a handler table offset, `OFF[0]` (30_encoding.md R81). -/
def offRefByte (off : BitVec 5) : RefByte := RefByte.ofIndex (off.extractLsb' 0 1)

/-- `MemRead(off, 1)`: the byte the map of 20_memory.md R67 assigns to `off`, or BusError. -/
def memRead (off : BitVec 5) (b : Block) : Except ErrCode Byte :=
  match (offGroup off).toFin with
  | 0 => .ok (wordByte b.tick (offByte off))
  | 1 => .ok (wordByte b.delay (offByte off))
  | 2 => .ok (wordByte b.target (offByte off))
  | 3 =>
    match offByte off with
    | 0 => .ok b.ctrlByte
    | 1 => .ok 0x00
    | 2 => .ok b.statusByte
    | 3 => .ok (sourceByte b.ien)
  | 4 =>
    match offByte off with
    | 0 => .ok (sourceByte b.pend)
    | 1 => .ok (sourceByte b.ovr)
    | 2 => .ok b.errByte
    | 3 => .ok b.svcrByte
  | 5 => .error .rsvdAddr
  | 6 | 7 => .ok (refByte (b.href.get (offSlot off)) (offRefByte off))

/-- `MemWrite(off, 1, v)`: the effect of the one rule the map of 20_memory.md R67 names for `off`, or BusError. -/
def memWrite (off : BitVec 5) (v : Byte) (b : Block) : Except ErrCode Block :=
  match (offGroup off).toFin with
  | 0 => .error .readOnly
  | 1 => writeDelay (offByte off) v b
  | 2 => .error .readOnly
  | 3 =>
    match offByte off with
    | 0 => writeCtrl v b
    | 1 => if v = 0x01 then writeArm b else .error .badCmd
    | 2 => .error .readOnly
    | 3 => writeIen v b
  | 4 => .error .readOnly
  | 5 => .error .rsvdAddr
  | 6 | 7 => writeHref (offSlot off) (offRefByte off) v b

end Sys2Proof.Machine
end

