-- ==== Sys2Proof/Safety.lean ====
section
/-! DEFINITION. The terms claims use: the well-formedness of a state (10_state.md R43), the host contract
(60_exceptions.md R218), quiet states (R221), runs and the advances in them (40_tick_counter.md R102), and the
progress assumptions (60_exceptions.md R219). -/

namespace Sys2Proof

/-! ### Classes of steps -/

/-- The bus transactions: rows 1 to 27 of 30_encoding.md R93. -/
def Instr.isBus : Instr → Bool
  | .rdTick _ | .rdDelay _ | .rdTarget _ | .rdCtrl | .rdCmd | .rdStatus | .rdIen | .rdPend | .rdOvr | .rdErr
  | .rdSvcr | .rdRsvd _ | .rdHref _ _ | .wrTick _ _ | .wrDelay _ _ | .wrTarget _ _ | .wrCtrl _ | .cmdArm
  | .cmdBad _ | .wrStatus _ | .wrIen _ | .wrPend _ | .wrOvr _ | .wrErr _ | .wrSvcr _ | .wrRsvd _ _
  | .wrHref _ _ _ => true
  | .evtNone | .evtRaiseTim | .evtRaiseRtc | .evtRaiseExt | .evtHret | .evtIack | .evtMulti _
  | .intEnter | .intClear | .intPoll | .sysReset | .illegal _ => false

/-- The event bits a step samples, `{iack, hret, ext, rtc, tim}` (30_encoding.md R82); none on a step of another class. -/
def Instr.eventBits : Instr → BitVec 5
  | .evtRaiseTim => 0b00001
  | .evtRaiseRtc => 0b00010
  | .evtRaiseExt => 0b00100
  | .evtHret     => 0b01000
  | .evtIack     => 0b10000
  | .evtMulti e  => e
  | .rdTick _ | .rdDelay _ | .rdTarget _ | .rdCtrl | .rdCmd | .rdStatus | .rdIen | .rdPend | .rdOvr | .rdErr
  | .rdSvcr | .rdRsvd _ | .rdHref _ _ | .wrTick _ _ | .wrDelay _ _ | .wrTarget _ _ | .wrCtrl _ | .cmdArm
  | .cmdBad _ | .wrStatus _ | .wrIen _ | .wrPend _ | .wrOvr _ | .wrErr _ | .wrSvcr _ | .wrRsvd _ _
  | .wrHref _ _ _ | .evtNone | .intEnter | .intClear | .intPoll | .sysReset | .illegal _ => 0

/-- The step raises source `s` (42_interrupt_router.md R143). -/
def Instr.raises (i : Instr) (s : Source) : Bool := i.eventBits.getLsbD s.index

/-- The step carries a handler return (42_interrupt_router.md R150). -/
def Instr.returns (i : Instr) : Bool := i.eventBits.getLsbD 3

end Sys2Proof

namespace Sys2Proof.Machine

/-! ### Well-formed states (10_state.md R43) -/

/-- The source of the service in progress. -/
def Svc.source? : Svc → Option Source
  | .idle  => none
  | .ack s => some s
  | .hnd h => some h.source
  | .clr s => some s

/-- R43 (a): the source in service has its pending flag set. -/
def Block.servedIsPending (b : Block) : Bool :=
  match b.svc.source? with
  | some s => flag b.pend s
  | none   => true

/-- R43 (b): in `HND(s,k)`, `k < nh(s)`. -/
def Block.handlerInList (b : Block) : Bool :=
  match b.handler? with
  | some h => decide (h.step < nh h.source)
  | none   => true

/-- R43 (c): in `W_CHECK` no service is in progress. -/
def Block.checkOutsideService (b : Block) : Bool := b.ws != .check || b.svc == .idle

/-- R43 (d): a service in progress, or an enabled source, has the handler table locked. -/
def Block.lockedBeforeUse (b : Block) : Bool := (b.svc == .idle || b.lock) && (b.ien == 0 || b.lock)

/-- R43 (a) to (d): the well-formedness of a state. -/
def Block.wf (b : Block) : Bool :=
  b.servedIsPending && b.handlerInList && b.checkOutsideService && b.lockedBeforeUse

/-! ### Quiet states (60_exceptions.md R221) -/

/-- A quiet state: `SVC == IDLE`, `WS == W_IDLE`, `req(S) == 0`. -/
def Block.quiet (b : Block) : Bool := b.svc == .idle && b.ws == .idle && b.req == 0

/-! ### Errors and the host contract -/

/-- The cause of the BusError a transaction raises in a state, by the table of 60_exceptions.md R201. -/
def busCause (i : Instr) (b : Block) : Option ErrCode :=
  match i with
  | .rdRsvd _ | .wrRsvd _ _ => some .rsvdAddr
  | .wrTick _ _ | .wrTarget _ _ | .wrStatus _ | .wrPend _ | .wrOvr _ | .wrErr _ | .wrSvcr _ => some .readOnly
  | .cmdBad _ => some .badCmd
  | .cmdArm => if b.svc ≠ .idle then some .inService else if b.ws ≠ .idle then some .busy else none
  | .wrDelay _ _ | .wrCtrl _ => if b.ws ≠ .idle then some .busy else none
  | .wrHref _ _ _ => if b.lock then some .locked else none
  | .wrIen v => if v.toNat % 8 ≠ 0 ∧ b.lock = false then some .notLocked else none
  | .rdTick _ | .rdDelay _ | .rdTarget _ | .rdCtrl | .rdCmd | .rdStatus | .rdIen | .rdPend | .rdOvr | .rdErr
  | .rdSvcr | .rdHref _ _ | .evtNone | .evtRaiseTim | .evtRaiseRtc | .evtRaiseExt | .evtHret | .evtIack
  | .evtMulti _ | .intEnter | .intClear | .intPoll | .sysReset | .illegal _ => none

/-- What the host contract of 60_exceptions.md R218 asks of one step, as far as one step shows it: no normal-context
bus transaction while `wait_busy` (H6), and no `DELAY` or `CTRL` write by a handler then (R149); the table written
before lock-up, sources enabled after it (H1); one handler return per running handler (H3); no `ARM` from a handler
(H5); no write to a read-only register (H11); and, beyond R218 (log entry 14), no access to a reserved offset and no
command but `ARM`. -/
def keepsContract (i : Instr) (b : Block) : Bool :=
  (!(i.isBus && b.waitBusy && !b.inSvc)) &&
  match i with
  | .rdRsvd _ | .wrRsvd _ _ | .cmdBad _ => false
  | .wrTick _ _ | .wrTarget _ _ | .wrStatus _ | .wrPend _ | .wrOvr _ | .wrErr _ | .wrSvcr _ => false
  | .cmdArm => !b.inSvc
  | .wrDelay _ _ | .wrCtrl _ => !b.waitBusy
  | .wrHref _ _ _ => !b.lock
  | .wrIen v => v.extractLsb' 0 3 == 0 || b.lock
  | .evtHret => b.dispValid
  | .evtMulti e => !e.getLsbD 3 || b.dispValid
  | .rdTick _ | .rdDelay _ | .rdTarget _ | .rdCtrl | .rdCmd | .rdStatus | .rdIen | .rdPend | .rdOvr | .rdErr
  | .rdSvcr | .rdHref _ _ | .evtNone | .evtRaiseTim | .evtRaiseRtc | .evtRaiseExt | .evtIack
  | .intEnter | .intClear | .intPoll | .sysReset | .illegal _ => true

/-! ### Runs -/

/-- The outcome of one more instruction, if the condition holds and the outcome so far is a next state. -/
def thenIf (c : Bool) (i : Instr) : Host.Outcome State Fault Refusal → Host.Outcome State Fault Refusal
  | .next s    => if c then exec i s else .next s
  | .fault r   => .fault r
  | .refused r => .refused r

/-- The state once `BusError` with cause code `c` is recorded: `ERR` takes the code if it was 0, nothing else of `S`
changes (60_exceptions.md R200 (3), (4)). -/
def Block.withFirstError (b : Block) (c : BitVec 4) : Block := { b with err := if b.err = 0 then c else b.err }

/-- `reached(S)` on natural numbers: the wrapped difference is below `2^31` (41_deadline_wait.md R126). -/
def Block.deadlinePassed (b : Block) : Prop := (b.tick.toNat + 2 ^ 32 - b.target.toNat) % 2 ^ 32 < 2 ^ 31

/-- The condition that ends a wait (41_deadline_wait.md R127). -/
def Block.waitOver (b : Block) : Prop := if b.ord then b.deadlinePassed else b.tick = b.target

/-- The next step is a reset. -/
def State.resetNext (s : State) : Prop := s.nextInstr? = some .sysReset

/-- How many times the next step performs `Advance()`: 1 if it is `INT.ENTER` of source TIM, else 0
(40_tick_counter.md R100). -/
def State.advancesNext (s : State) : Nat :=
  if s.nextInstr? = some .intEnter ∧ s.blk.svc = .ack .tim then 1 else 0

/-- `RunWhile P s n t`: steps lead from `s` to `t`, every state a step is taken from meets `P`, and `n` of the steps
are `INT.ENTER` of source TIM. The script is any list of step words, so this is any interleaving of the agents. -/
inductive RunWhile (P : State → Prop) : State → Nat → State → Prop where
  | start (s : State) : RunWhile P s 0 s
  | step {s t u : State} {n : Nat} :
      RunWhile P s n t → P t → step t = .next u → RunWhile P s (n + t.advancesNext) u

/-- What a run records of the two reads of byte 0 in the present turn of a reader (40_tick_counter.md R107). -/
structure LowReads where
  /-- `TICK` at the first of them. -/
  first : Word
  /-- `TICK` at the second, once made. -/
  second : Word
  /-- The `INT.ENTER` steps of TIM between them. -/
  advances : Nat
  deriving DecidableEq, Repr

/-- The record after a step that is none of the reader's own and advances `n` times. -/
def LowReads.afterOther (x : LowReads) (o : ReadOrder) (r : Rereader) (n : Nat) : LowReads :=
  { x with advances := if r.betweenLowReads o then x.advances + n else x.advances }

/-- The record after a read of the reader's own while `TICK` is `tick`. -/
def LowReads.afterRead (x : LowReads) (o : ReadOrder) (r : Rereader) (tick : Word) : LowReads :=
  if r.stepsDone + 1 = o.lowStep then ⟨tick, tick, 0⟩
  else if r.stepsDone + 1 = o.lowStep + 4 then { x with second := tick }
  else x

/-- `RereadRun o s r x t`: a run without a reset from `s` to `t` in which a reader has reread in order `o` as far as `r`
(30_encoding.md R91, 40_tick_counter.md R107): each byte it took is what a bus read issued by `Rereader.next?` returned,
and between its reads any steps of any agents stand. `x` records the two reads of byte 0. -/
inductive RereadRun (o : ReadOrder) : State → Rereader → LowReads → State → Prop where
  | start (s : State) : RereadRun o s .start ⟨s.blk.tick, s.blk.tick, 0⟩ s
  | other {s t u : State} {r : Rereader} {x : LowReads} :
      RereadRun o s r x t → ¬t.resetNext → step t = .next u → RereadRun o s r (x.afterOther o r t.advancesNext) u
  | read {s t u : State} {r : Rereader} {x : LowReads} {i : Instr} {d : Byte} :
      RereadRun o s r x t → r.next? o = some i → t.nextInstr? = some i → step t = .next u → u.busRdata = some d →
      RereadRun o s (r.take o d) (x.afterRead o r t.blk.tick) u

/-- `k` steps of the machine, none of them stopping (60_exceptions.md R221: a run is a sequence of steps). -/
def runsTo (k : Nat) (s t : State) : Prop := Sys2Proof.core.run k s = .next t

/-! ### Progress assumptions (60_exceptions.md R219)

An infinite run: the word taken and the state at each step. None of the assumptions is guaranteed by MTID. -/

/-- The states of an infinite run in which step `n` takes word `w n`. -/
def InfiniteRun (w : Nat → StepWord) (st : Nat → State) : Prop :=
  ∀ n, exec (decode (w n)) (st n) = .next (st (n + 1))

/-- `FAIR_CPU`: whenever `irq` stays high, an accepted `EVT.IACK` eventually occurs. -/
def FairCpu (st : Nat → State) : Prop :=
  ∀ n, ∃ m, n ≤ m ∧
    ((st m).blk.irq = false ∨ ((st m).blk.svc = .idle ∧ ∃ s, (st (m + 1)).blk.svc = .ack s))

/-- `FAIR_HND`: every dispatched handler is eventually followed by its `EVT.HRET`. -/
def FairHnd (w : Nat → StepWord) (st : Nat → State) : Prop :=
  ∀ n, (st n).blk.dispValid = true → ∃ m, n ≤ m ∧ (decode (w m)).returns = true

/-- `FAIR_INT`: an enabled internal step eventually occurs. -/
def FairInt (w : Nat → StepWord) (st : Nat → State) : Prop :=
  ∀ n, ((st n).blk.enterEnabled = true → ∃ m, n ≤ m ∧ decode (w m) = .intEnter) ∧
    ((st n).blk.clearEnabled = true → ∃ m, n ≤ m ∧ decode (w m) = .intClear) ∧
    ((st n).blk.pollEnabled = true → ∃ m, n ≤ m ∧ decode (w m) = .intPoll)

/-- `FAIR_TIM`: source TIM raises infinitely often and `IEN[0]` is 1 from some point on. -/
def FairTim (w : Nat → StepWord) (st : Nat → State) : Prop :=
  (∀ n, ∃ m, n ≤ m ∧ (decode (w m)).raises .tim = true) ∧
    ∃ n, ∀ m, n ≤ m → flag (st m).blk.ien .tim = true

end Sys2Proof.Machine
end

