-- ==== Sys2Proof/Certificates/Slice0/Obligations.lean ====
section
/-! DEFINITION. The statements for the provers. Each docstring names the rules of the spec it formalises. In all of them
`busOut` is what the latest step drove on `bus_rdata` and `bus_err`, and a step that is no bus transaction drives
nothing (log entry 3); the script is the source of the steps, and no instruction touches it (log entries 1 and 2: the
model's choices). -/

open Sys2Proof Sys2Proof.Machine

/-! ### Encoding (30_encoding.md) -/

/-- R84, R93: decoding the canonical word of an instruction that some word spells gives the instruction back, with
every operand at every value. -/
def Obligations.DecodeOfEncodeIsIdentity : Prop :=
  ∀ i : Instr, i.wf = true → decode (encode i) = i

/-- R86 with the formats and the map (R81 to R84, R93): on a read `DATA` is ignored, and encoding what any word decodes to
gives its canonical spelling: the word itself, but for a read, whose `DATA` becomes 0x00. Every decoded instruction is
well-formed. That the reserved offsets come back is the model's choice of term (log entry 11), and which terms are
well-formed is too (log entry 16). -/
def Obligations.EncodeOfDecodeIsCanonical : Prop :=
  (∀ (off : BitVec 5) (d : Byte), decode (busWord false off d) = decode (busWord false off 0x00)) ∧
  (∀ w : StepWord, encode (decode w) = if w.extractLsb' 13 3 = 0 then w &&& 0xFF00 else w) ∧
  (∀ w : StepWord, (decode w).wf = true)

/-- R84: every step word has the operation of the first row whose match and mask admit it, and R93's match and mask
columns are the model's. -/
def Obligations.DecodeTakesFirstRow : Prop :=
  (∀ w : StepWord, ∃ (k : Nat) (r : OpRow), opcodeRows[k]? = some r ∧ w &&& r.mask = r.mtch ∧ decode w = r.op w ∧
    ∀ (j : Nat) (q : OpRow), j < k → opcodeRows[j]? = some q → w &&& q.mask ≠ q.mtch) ∧
  opcodeRows.map (fun r => (r.mtch.toNat, r.mask.toNat)) =
    [(0x0000, 0xFC00), (0x0400, 0xFC00), (0x0800, 0xFC00), (0x0C00, 0xFF00), (0x0D00, 0xFF00), (0x0E00, 0xFF00),
     (0x0F00, 0xFF00), (0x1000, 0xFF00), (0x1100, 0xFF00), (0x1200, 0xFF00), (0x1300, 0xFF00), (0x1400, 0xFC00),
     (0x1800, 0xF800), (0x2000, 0xFC00), (0x2400, 0xFC00), (0x2800, 0xFC00), (0x2C00, 0xFF00), (0x2D01, 0xFFFF),
     (0x2D00, 0xFF00), (0x2E00, 0xFF00), (0x2F00, 0xFF00), (0x3000, 0xFF00), (0x3100, 0xFF00), (0x3200, 0xFF00),
     (0x3300, 0xFF00), (0x3400, 0xFC00), (0x3800, 0xF800), (0x4000, 0xFFFF), (0x4001, 0xFFFF), (0x4002, 0xFFFF),
     (0x4004, 0xFFFF), (0x4008, 0xFFFF), (0x4010, 0xFFFF), (0x4000, 0xFFE0), (0x8000, 0xFFFF), (0x8001, 0xFFFF),
     (0x8002, 0xFFFF), (0xC000, 0xFFFF), (0x0000, 0x0000)]

/-- R84, its remark on overlaps, exactly (log entry 10): two rows admit a common word only when they are `CMD.ARM` and
`CMD.BAD`, `EVT.NONE` or a one-event row and `EVT.MULTI`, or any row and `ILLEGAL`; rows counted from 0. -/
def Obligations.RowsOverlapOnlyAsListed : Prop :=
  ∀ (j k : Nat) (p q : OpRow), j < k → opcodeRows[j]? = some p → opcodeRows[k]? = some q →
    ((∃ w : StepWord, p.covers w = true ∧ q.covers w = true) ↔
      (j = 17 ∧ k = 18) ∨ (27 ≤ j ∧ j ≤ 32 ∧ k = 33) ∨ k = 38)

/-- R85: the words that spell no step are those of class EVT with a non-zero bit in 13:5, of class INT with a non-zero
bit in 13:2 or `U = 11`, and of class SYS other than 0xC000; the step function refuses them in every state. -/
def Obligations.IllegalWordsSpellNoStep : Prop :=
  (∀ w : StepWord, (∃ x, decode w = .illegal x) ↔
    (w.extractLsb' 14 2 = 0b01 ∧ w.extractLsb' 5 9 ≠ 0) ∨
    (w.extractLsb' 14 2 = 0b10 ∧ (w.extractLsb' 2 12 ≠ 0 ∨ w.extractLsb' 0 2 = 0b11)) ∨
    (w.extractLsb' 14 2 = 0b11 ∧ w ≠ 0xC000)) ∧
  (∀ (w : StepWord) (s : State), exec (.illegal w) s = .refused (.illegalStepWord w)) ∧
  (∀ (w x : StepWord) (rest : List StepWord) (s : State), decode w = .illegal x → s.script = w :: rest →
    step s = .refused (.illegalStepWord w))

/-- R93: words of every class decode to the operation the map gives them (95_test_vectors.md 2.5). -/
def Obligations.SpecWordsDecode : Prop :=
  decode 0x0300 = .rdTick 3 ∧ decode 0x1700 = .rdRsvd 3 ∧ decode 0x1F00 = .rdHref .ptick .high ∧
  decode 0x27FF = .wrDelay 3 0xFF ∧ decode 0x2D01 = .cmdArm ∧ decode 0x2DFF = .cmdBad 0xFF ∧
  decode 0x2F07 = .wrIen 0x07 ∧ decode 0x3912 = .wrHref .systick .high 0x12 ∧ decode 0x4008 = .evtHret ∧
  decode 0x4011 = .evtMulti 0b10001 ∧ decode 0x8002 = .intPoll ∧ decode 0xC000 = .sysReset ∧
  decode 0x4020 = .illegal 0x4020

/-! ### The step -/

/-- R5, with the script as the source of steps (log entries 1, 2: the model's choice): a step carries out the
instruction its next word decodes to, on the state with that word taken off; with no word there is no step. -/
def Obligations.StepRunsDecodedInstruction : Prop :=
  (∀ (s : State) (w : StepWord) (rest : List StepWord), s.script = w :: rest →
    step s = exec (decode w) { s with script := rest }) ∧
  (∀ (s : State) (i : Instr) (rest : List StepWord), i.wf = true → s.script = encode i :: rest →
    step s = exec i { s with script := rest }) ∧
  (∀ s : State, s.script = [] → step s = .refused .endOfScript)

/-- R5: one step takes exactly one word of the script, and no instruction writes the script. -/
def Obligations.StepTakesOneWord : Prop :=
  (∀ (i : Instr) (s t : State), exec i s = .next t → t.script = s.script) ∧
  (∀ s t : State, step s = .next t → ∃ w, s.script = w :: t.script)

/-! ### Bus reads -/

/-- R104, R120, R122: `RD.TICK n`, `RD.DELAY n`, `RD.TARGET n` return byte `n` of their register in every state, raise
nothing and change no state; encodings 0x0000, 0x0400, 0x0800 with `n` in bits 9:8 and `DATA` ignored. -/
def Obligations.DataRegisterReadsReturnBytes : Prop :=
  (∀ (n : Fin 4) (d : Byte),
    decode (BitVec.ofNat 16 (0x0000 + 0x100 * n.val + d.toNat)) = .rdTick n ∧
    decode (BitVec.ofNat 16 (0x0400 + 0x100 * n.val + d.toNat)) = .rdDelay n ∧
    decode (BitVec.ofNat 16 (0x0800 + 0x100 * n.val + d.toNat)) = .rdTarget n) ∧
  (∀ (n : Fin 4) (s : State),
    exec (.rdTick n) s =
      .next { s with busOut := .read (BitVec.ofNat 8 (s.blk.tick.toNat / 256 ^ n.val)) false } ∧
    exec (.rdDelay n) s =
      .next { s with busOut := .read (BitVec.ofNat 8 (s.blk.delay.toNat / 256 ^ n.val)) false } ∧
    exec (.rdTarget n) s =
      .next { s with busOut := .read (BitVec.ofNat 8 (s.blk.target.toNat / 256 ^ n.val)) false })

/-- R170, R175, R177, R178, R179: `RD.CTRL`, `RD.IEN`, `RD.PEND`, `RD.OVR`, `RD.ERR` return their bits, reserved bits
0, and change no state; a handler always finds the pending flag of its source set. -/
def Obligations.ControlRegisterReadsReturnBits : Prop :=
  (∀ d : Byte,
    decode (BitVec.ofNat 16 (0x0C00 + d.toNat)) = .rdCtrl ∧ decode (BitVec.ofNat 16 (0x0F00 + d.toNat)) = .rdIen ∧
    decode (BitVec.ofNat 16 (0x1000 + d.toNat)) = .rdPend ∧ decode (BitVec.ofNat 16 (0x1100 + d.toNat)) = .rdOvr ∧
    decode (BitVec.ofNat 16 (0x1200 + d.toNat)) = .rdErr) ∧
  (∀ s : State,
    exec .rdCtrl s =
      .next { s with busOut := .read (BitVec.ofNat 8 (2 * s.blk.lock.toNat + s.blk.ord.toNat)) false } ∧
    exec .rdIen s = .next { s with busOut := .read (BitVec.ofNat 8 s.blk.ien.toNat) false } ∧
    exec .rdPend s = .next { s with busOut := .read (BitVec.ofNat 8 s.blk.pend.toNat) false } ∧
    exec .rdOvr s = .next { s with busOut := .read (BitVec.ofNat 8 s.blk.ovr.toNat) false } ∧
    exec .rdErr s = .next { s with busOut := .read (BitVec.ofNat 8 s.blk.err.toNat) false }) ∧
  (∀ (s : State) (h : Handler), s.blk.wf = true → s.blk.svc = .hnd h → flag s.blk.pend h.source = true)

/-- R172 with the bits of R38: `RD.STATUS` returns WAIT, HALT, MATCH, REACHED, INSVC, REQ in bits 0 to 5, 0 above, and
changes no state. -/
def Obligations.StatusReadReportsComparator : Prop :=
  (∀ d : Byte, decode (BitVec.ofNat 16 (0x0E00 + d.toNat)) = .rdStatus) ∧
  (∀ s : State, ∃ d : Byte, exec .rdStatus s = .next { s with busOut := .read d false } ∧
    (d.getLsbD 0 = true ↔ s.blk.ws ≠ .idle) ∧ (d.getLsbD 1 = true ↔ s.blk.ws = .halt) ∧
    (d.getLsbD 2 = true ↔ s.blk.tick = s.blk.target) ∧ (d.getLsbD 3 = true ↔ s.blk.deadlinePassed) ∧
    (d.getLsbD 4 = true ↔ s.blk.svc ≠ .idle) ∧
    (d.getLsbD 5 = true ↔ ∃ src, flag s.blk.pend src = true ∧ flag s.blk.ien src = true) ∧
    d.getLsbD 6 = false ∧ d.getLsbD 7 = false)

/-- R180 with the values of R39: `RD.SVCR` returns the byte of the service sequencer's state and changes no state. -/
def Obligations.SvcrReadReportsService : Prop :=
  (∀ d : Byte, decode (BitVec.ofNat 16 (0x1300 + d.toNat)) = .rdSvcr) ∧
  (∀ s : State, ∃ d : Byte, exec .rdSvcr s = .next { s with busOut := .read d false } ∧ d = (match s.blk.svc with
    | .idle     => 0x00
    | .ack .tim => 0x01
    | .ack .rtc => 0x05
    | .ack .ext => 0x09
    | .hnd .tim0 => 0x02
    | .hnd .tim1 => 0x72
    | .hnd .rtc0 => 0x26
    | .hnd .ext0 => 0x4A
    | .clr .tim => 0x03
    | .clr .rtc => 0x07
    | .clr .ext => 0x0B))

/-- R181: `RD.HREF j,b` returns byte `b` of `HREF[j]`, locked or not, and changes no state. -/
def Obligations.HandlerTableReadsReturnBytes : Prop :=
  (∀ (j : Slot) (d : Byte),
    decode (BitVec.ofNat 16 (0x1800 + 0x200 * j.index.toNat + d.toNat)) = .rdHref j .low ∧
    decode (BitVec.ofNat 16 (0x1900 + 0x200 * j.index.toNat + d.toNat)) = .rdHref j .high) ∧
  (∀ (j : Slot) (s : State),
    exec (.rdHref j .low) s =
      .next { s with busOut := .read (BitVec.ofNat 8 (s.blk.href.get j).toNat) false } ∧
    exec (.rdHref j .high) s =
      .next { s with busOut := .read (BitVec.ofNat 8 ((s.blk.href.get j).toNat / 256)) false })

/-- R68: any access to offsets 0x14 to 0x17 raises RSVD_ADDR, changes nothing else, and a read returns 0x00. -/
def Obligations.ReservedOffsetsRaise : Prop :=
  (∀ (o : Fin 4) (d : Byte),
    decode (busWord false (BitVec.ofNat 5 (0x14 + o.val)) d) = .rdRsvd o ∧
    decode (busWord true (BitVec.ofNat 5 (0x14 + o.val)) d) = .wrRsvd o d) ∧
  (∀ (o : Fin 4) (v : Byte) (s : State),
    exec (.rdRsvd o) s = .next { s with blk := s.blk.withFirstError 1, busOut := .read 0x00 true } ∧
    exec (.wrRsvd o v) s = .next { s with blk := s.blk.withFirstError 1, busOut := .write true })

/-- R103, R123, R173: a write to `TICK`, `TARGET`, `STATUS`, `PEND`, `OVR`, `ERR` or `SVCR` raises READ_ONLY and
changes nothing but `ERR`, which takes 2 if it was 0. -/
def Obligations.ReadOnlyWritesRaise : Prop :=
  (∀ (n : Fin 4) (v : Byte),
    decode (BitVec.ofNat 16 (0x2000 + 0x100 * n.val + v.toNat)) = .wrTick n v ∧
    decode (BitVec.ofNat 16 (0x2800 + 0x100 * n.val + v.toNat)) = .wrTarget n v ∧
    decode (BitVec.ofNat 16 (0x2E00 + v.toNat)) = .wrStatus v ∧
    decode (BitVec.ofNat 16 (0x3000 + v.toNat)) = .wrPend v ∧
    decode (BitVec.ofNat 16 (0x3100 + v.toNat)) = .wrOvr v ∧
    decode (BitVec.ofNat 16 (0x3200 + v.toNat)) = .wrErr v ∧
    decode (BitVec.ofNat 16 (0x3300 + v.toNat)) = .wrSvcr v) ∧
  (∀ (n : Fin 4) (v : Byte) (s : State),
    ∀ i ∈ ([.wrTick n v, .wrTarget n v, .wrStatus v, .wrPend v, .wrOvr v, .wrErr v, .wrSvcr v] : List Instr),
      exec i s = .next { s with blk := s.blk.withFirstError 2, busOut := .write true })

/-- R137: a write to `CMD` of any byte but 0x01 raises BAD_CMD and changes nothing else; `RD.CMD` returns 0x00. -/
def Obligations.CommandPortTakesOnlyArm : Prop :=
  (∀ v : Byte, v ≠ 0x01 → decode (BitVec.ofNat 16 (0x2D00 + v.toNat)) = .cmdBad v) ∧
  (∀ d : Byte, decode (BitVec.ofNat 16 (0x0D00 + d.toNat)) = .rdCmd) ∧
  (∀ (v : Byte) (s : State),
    exec (.cmdBad v) s = .next { s with blk := s.blk.withFirstError 3, busOut := .write true }) ∧
  (∀ s : State, exec .rdCmd s = .next { s with busOut := .read 0x00 false })

/-- R200, R201, R202: every bus transaction has a next state; `bus_err` is asserted exactly when the table of causes
names one, and then read data is 0x00, `ERR` takes the code if it was 0, and no other field of `S` changes; without a
cause `ERR` stays. `EVT.HRET` records code 8 exactly when no handler runs, with `bus_err` low. -/
def Obligations.BusErrorIsExactlyTheTable : Prop :=
  (∀ (i : Instr) (s : State), i.isBus = true → ∃ t, exec i s = .next t ∧
    (match busCause i s.blk with
    | some c => t.busErr = true ∧ t.blk = s.blk.withFirstError c.code ∧ (∀ d, t.busRdata = some d → d = 0x00)
    | none   => t.busErr = false ∧ t.blk.err = s.blk.err)) ∧
  (∀ s : State, ∃ t, exec .evtHret s = .next t ∧ t.busErr = false ∧
    t.blk.err = if s.blk.dispValid = false ∧ s.blk.err = 0 then ErrCode.code .spuriousHret else s.blk.err) ∧
  ([.rsvdAddr, .readOnly, .badCmd, .inService, .busy, .locked, .notLocked, .spuriousHret] : List ErrCode).map
    (fun c => c.code.toNat) = [1, 2, 3, 4, 5, 6, 7, 8]

/-- R64 with the map of R67: the bus read at each of the 32 offsets returns the byte the map assigns to it and changes
no state; only a reserved offset raises, which may write `ERR`. -/
def Obligations.BusReadsFollowTheMap : Prop :=
  ∀ (off : BitVec 5) (d : Byte) (s : State),
    match memRead off s.blk with
    | .ok v    => exec (decode (busWord false off d)) s = .next { s with busOut := .read v false }
    | .error c => off.toNat / 4 = 5 ∧ c = .rsvdAddr ∧
      exec (decode (busWord false off d)) s =
        .next { s with blk := s.blk.withFirstError 1, busOut := .read 0x00 true }

/-- R65 with the map of R67: the bus write at each of the 32 offsets has the effect of the one rule the map names for
it, or raises BusError, and no other effect. -/
def Obligations.BusWritesFollowTheMap : Prop :=
  ∀ (off : BitVec 5) (v : Byte) (s : State),
    match memWrite off v s.blk with
    | .ok b    => exec (decode (busWord true off v)) s = .next { s with blk := b, busOut := .write false }
    | .error c => exec (decode (busWord true off v)) s =
        .next { s with blk := s.blk.withFirstError c.code, busOut := .write true }

/-! ### Bus writes with an effect -/

/-- R121: outside a wait `WR.DELAY n,v` replaces byte `n` of `DELAY` by `v`, keeps the other three bytes and all else;
during a wait it raises BUSY (5). -/
def Obligations.DelayWriteReplacesOneByte : Prop :=
  (∀ (n : Fin 4) (v : Byte), decode (BitVec.ofNat 16 (0x2400 + 0x100 * n.val + v.toNat)) = .wrDelay n v) ∧
  (∀ (n : Fin 4) (v : Byte) (s : State), s.blk.ws ≠ .idle →
    exec (.wrDelay n v) s = .next { s with blk := s.blk.withFirstError 5, busOut := .write true }) ∧
  (∀ (n : Fin 4) (v : Byte) (s : State), s.blk.ws = .idle →
    ∃ x : Word, exec (.wrDelay n v) s = .next { s with blk := { s.blk with delay := x }, busOut := .write false } ∧
      ∀ m : Fin 4, x.toNat / 256 ^ m.val % 256 =
        if m = n then v.toNat else s.blk.delay.toNat / 256 ^ m.val % 256)

/-- R171: outside a wait `WR.CTRL v` writes `ORD <- v[0]` and `LOCK <- LOCK | v[1]`; during a wait it raises BUSY (5). -/
def Obligations.CtrlWriteSetsOrdAndLock : Prop :=
  (∀ v : Byte, decode (BitVec.ofNat 16 (0x2C00 + v.toNat)) = .wrCtrl v) ∧
  (∀ (v : Byte) (s : State), s.blk.ws ≠ .idle →
    exec (.wrCtrl v) s = .next { s with blk := s.blk.withFirstError 5, busOut := .write true }) ∧
  (∀ (v : Byte) (s : State), s.blk.ws = .idle →
    exec (.wrCtrl v) s = .next { s with
      blk := { s.blk with ord := decide (v.toNat % 2 = 1), lock := s.blk.lock || decide (v.toNat / 2 % 2 = 1) },
      busOut := .write false })

/-- R176: `WR.IEN v` writes `v[2:0]` in every context and every state of the sequencers, unless it would enable a
source before the table is locked: NOT_LOCKED (7). An enabled pending source requests at once. -/
def Obligations.IenWriteNeedsLock : Prop :=
  (∀ v : Byte, decode (BitVec.ofNat 16 (0x2F00 + v.toNat)) = .wrIen v) ∧
  (∀ (v : Byte) (s : State), v.toNat % 8 ≠ 0 → s.blk.lock = false →
    exec (.wrIen v) s = .next { s with blk := s.blk.withFirstError 7, busOut := .write true }) ∧
  (∀ (v : Byte) (s : State), v.toNat % 8 = 0 ∨ s.blk.lock = true →
    ∃ t, exec (.wrIen v) s = .next t ∧
      t = { s with blk := { s.blk with ien := BitVec.ofNat 3 v.toNat }, busOut := .write false } ∧
      (t.blk.irq = true ↔ s.blk.svc = .idle ∧ s.blk.ws ≠ .check ∧
        ∃ src, flag s.blk.pend src = true ∧ flag t.blk.ien src = true))

/-- R182: before lock-up `WR.HREF j,b,v` replaces byte `b` of `HREF[j]`, keeps its other byte, the other entries and
all else; after it, LOCKED (6). -/
def Obligations.HrefWriteReplacesOneByte : Prop :=
  (∀ (j : Slot) (v : Byte),
    decode (BitVec.ofNat 16 (0x3800 + 0x200 * j.index.toNat + v.toNat)) = .wrHref j .low v ∧
    decode (BitVec.ofNat 16 (0x3900 + 0x200 * j.index.toNat + v.toNat)) = .wrHref j .high v) ∧
  (∀ (j : Slot) (b : RefByte) (v : Byte) (s : State), s.blk.lock = true →
    exec (.wrHref j b v) s = .next { s with blk := s.blk.withFirstError 6, busOut := .write true }) ∧
  (∀ (j : Slot) (b : RefByte) (v : Byte) (s : State), s.blk.lock = false →
    ∃ h : HandlerTable, exec (.wrHref j b v) s = .next { s with blk := { s.blk with href := h }, busOut := .write false } ∧
      (∀ q : Slot, q ≠ j → h.get q = s.blk.href.get q) ∧
      (h.get j).toNat = match b with
        | .low  => (s.blk.href.get j).toNat / 256 * 256 + v.toNat
        | .high => 256 * v.toNat + (s.blk.href.get j).toNat % 256)

/-! ### The wait -/

/-- R128: `CMD.ARM` in normal context with no wait in progress writes `TARGET <- (TICK + DELAY) mod 2^32` and
`WS <- W_CHECK` in one step; from a handler it raises IN_SERVICE (4), tested first; during a wait BUSY (5). -/
def Obligations.ArmStartsTheWait : Prop :=
  decode 0x2D01 = .cmdArm ∧
  (∀ s : State, s.blk.svc ≠ .idle →
    exec .cmdArm s = .next { s with blk := s.blk.withFirstError 4, busOut := .write true }) ∧
  (∀ s : State, s.blk.svc = .idle → s.blk.ws ≠ .idle →
    exec .cmdArm s = .next { s with blk := s.blk.withFirstError 5, busOut := .write true }) ∧
  (∀ s : State, s.blk.svc = .idle → s.blk.ws = .idle →
    exec .cmdArm s = .next { s with
      blk := { s.blk with target := BitVec.ofNat 32 (s.blk.tick.toNat + s.blk.delay.toNat), ws := .check },
      busOut := .write false })

/-- R129: `INT.POLL` is enabled iff `WS == W_CHECK`; it ends the wait when `done`, else halts, and writes only `WS`. -/
def Obligations.PollTestsAndHalts : Prop :=
  decode 0x8002 = .intPoll ∧
  (∀ s : State, s.blk.ws = .check → s.blk.waitOver →
    exec .intPoll s = .next { s with blk := { s.blk with ws := .idle }, busOut := .none }) ∧
  (∀ s : State, s.blk.ws = .check → ¬s.blk.waitOver →
    exec .intPoll s = .next { s with blk := { s.blk with ws := .halt }, busOut := .none }) ∧
  (∀ s : State, s.blk.ws ≠ .check → exec .intPoll s = .refused .pollNotEnabled)

/-! ### The router -/

/-- R143: a raise of source `src` sets `PEND[src]` if it was 0, else `OVR[src]`, and changes nothing else, in every
state. -/
def Obligations.RaiseSetsPendingOrOverrun : Prop :=
  (decode 0x4001 = .evtRaiseTim ∧ decode 0x4002 = .evtRaiseRtc ∧ decode 0x4004 = .evtRaiseExt) ∧
  (∀ (src : Source) (s : State), ∃ p o : BitVec 3,
    exec (match src with | .tim => .evtRaiseTim | .rtc => .evtRaiseRtc | .ext => .evtRaiseExt) s =
      .next { s with blk := { s.blk with pend := p, ovr := o }, busOut := .none } ∧
    ∀ q : Source,
      (flag p q = true ↔ flag s.blk.pend q = true ∨ q = src) ∧
      (flag o q = true ↔ flag s.blk.ovr q = true ∨ (q = src ∧ flag s.blk.pend src = true)))

/-- R146 with the selection of R144 and the request of R145: `EVT.IACK` moves `SVC` to `ACK` of the first of TIM, RTC,
EXT that is pending and enabled, when no service runs and `WS` is not `W_CHECK`; else it changes nothing. -/
def Obligations.IackSelectsByPriority : Prop :=
  decode 0x4010 = .evtIack ∧
  (∀ s : State,
    (∀ src : Source, s.blk.svc = .idle → s.blk.ws ≠ .check →
      flag s.blk.pend src = true → flag s.blk.ien src = true →
      (∀ q : Source, q.index < src.index → ¬(flag s.blk.pend q = true ∧ flag s.blk.ien q = true)) →
      exec .evtIack s = .next { s with blk := { s.blk with svc := .ack src }, busOut := .none }) ∧
    ((s.blk.svc ≠ .idle ∨ s.blk.ws = .check ∨
        ∀ src : Source, ¬(flag s.blk.pend src = true ∧ flag s.blk.ien src = true)) →
      exec .evtIack s = .next { s with busOut := .none }))

/-- R147 with the dispatch of R148: `INT.ENTER` is enabled iff `SVC == ACK(src)`; it advances `TICK` by one when `src`
is TIM, dispatches the first handler, and changes nothing else. -/
def Obligations.EnterAdvancesAndDispatches : Prop :=
  decode 0x8000 = .intEnter ∧
  (∀ (src : Source) (s : State), s.blk.svc = .ack src → ∃ (h : Handler) (t : State),
    exec .intEnter s = .next t ∧
    t = { s with
      blk := { s.blk with
        tick := if src = .tim then BitVec.ofNat 32 (s.blk.tick.toNat + 1) else s.blk.tick, svc := .hnd h },
      busOut := .none } ∧
    h.source = src ∧ h.step = 0 ∧ t.blk.dispValid = true ∧
    t.blk.dispSlot = (match src with | .tim => 0 | .rtc => 1 | .ext => 2) ∧
    t.blk.dispHref = (match src with | .tim => s.blk.href.systick | .rtc => s.blk.href.rtc | .ext => s.blk.href.ext)) ∧
  (∀ s : State, (∀ src, s.blk.svc ≠ .ack src) → exec .intEnter s = .refused .enterNotEnabled)

/-- R150, R204: `EVT.HRET` takes `HND(0,0)` to `HND(0,1)`, dispatching slot 3, and the last handler of a source to
`CLR`; with no handler running its whole effect is `ERR <- 8` if `ERR` was 0. -/
def Obligations.HretDispatchesNextOrClears : Prop :=
  decode 0x4008 = .evtHret ∧
  (∀ s : State, s.blk.svc = .hnd .tim0 → ∃ t, exec .evtHret s = .next t ∧
    t = { s with blk := { s.blk with svc := .hnd .tim1 }, busOut := .none } ∧
    t.blk.dispSlot = 3 ∧ t.blk.dispHref = s.blk.href.ptick) ∧
  (∀ (h : Handler) (s : State), s.blk.svc = .hnd h → h ≠ .tim0 →
    exec .evtHret s = .next { s with blk := { s.blk with svc := .clr h.source }, busOut := .none }) ∧
  (∀ s : State, (∀ h, s.blk.svc ≠ .hnd h) →
    exec .evtHret s = .next { s with blk := s.blk.withFirstError 8, busOut := .none })

/-- R151: `INT.CLEAR` is enabled iff `SVC == CLR(src)`; it clears `PEND[src]`, ends the service, takes `W_HALT` to
`W_CHECK`, and changes nothing else. -/
def Obligations.ClearEndsTheService : Prop :=
  decode 0x8001 = .intClear ∧
  (∀ (src : Source) (s : State), s.blk.svc = .clr src → ∃ p : BitVec 3,
    exec .intClear s = .next { s with
      blk := { s.blk with pend := p, svc := .idle, ws := if s.blk.ws = .halt then .check else s.blk.ws },
      busOut := .none } ∧
    ∀ q : Source, flag p q = true ↔ flag s.blk.pend q = true ∧ q ≠ src) ∧
  (∀ s : State, (∀ src, s.blk.svc ≠ .clr src) → exec .intClear s = .refused .clearNotEnabled)

/-- R152: `EVT.NONE` changes nothing; an event word is the sequential composition of its one-bit events in the order
TIM, RTC, EXT, HRET, IACK; raises commute with each other and with `HRET`; with a return in the word and a handler
running no service starts (R152's remark, limited to a running handler: log entry 19). -/
def Obligations.EventWordsCompose : Prop :=
  (decode 0x4000 = .evtNone ∧ ∀ e : BitVec 5, fewerThanTwoEvents e = false → decode (0x4000 + e.setWidth 16) = .evtMulti e) ∧
  (∀ s : State, exec .evtNone s = .next { s with busOut := .none }) ∧
  (∀ (e : BitVec 5) (s : State), ∃ t, exec (.evtMulti e) s = .next t ∧
    thenIf (e.getLsbD 4) .evtIack (thenIf (e.getLsbD 3) .evtHret (thenIf (e.getLsbD 2) .evtRaiseExt
      (thenIf (e.getLsbD 1) .evtRaiseRtc (thenIf (e.getLsbD 0) .evtRaiseTim (exec .evtNone s))))) = .next t) ∧
  (∀ (i j : Instr) (s : State),
    i ∈ ([.evtRaiseTim, .evtRaiseRtc, .evtRaiseExt] : List Instr) →
    j ∈ ([.evtRaiseTim, .evtRaiseRtc, .evtRaiseExt, .evtHret] : List Instr) →
    thenIf true j (exec i s) = thenIf true i (exec j s)) ∧
  (∀ (e : BitVec 5) (h : Handler) (s t : State), e.getLsbD 3 = true → s.blk.svc = .hnd h →
    exec (.evtMulti e) s = .next t → ∀ src, t.blk.svc ≠ .ack src)

/-! ### Reset -/

/-- R230, R231: `SYS.RESET` gives every field of `S` its reset value from every state; then no source is enabled or
pending, no service or wait runs, `STATUS` reads 0x0C. -/
def Obligations.ResetSetsEveryField : Prop :=
  decode 0xC000 = .sysReset ∧
  (∀ s : State, exec .sysReset s = .next
    { blk := { tick := 0, delay := 0, target := 0, ord := false, lock := false, ws := .idle, ien := 0, pend := 0,
               ovr := 0, svc := .idle, href := ⟨0, 0, 0, 0⟩, err := 0 },
      busOut := .none, script := s.script }) ∧
  (∀ s t : State, exec .sysReset s = .next t →
    t.blk = State.reset.blk ∧ t.blk.statusByte = 0x0C ∧ t.blk.svcrByte = 0x00 ∧ t.blk.ctrlByte = 0x00 ∧
    t.blk.irq = false ∧ t.blk.lpReq = false ∧ t.blk.waitBusy = false ∧ t.blk.dispValid = false)

/-! ### Invariants and frames -/

/-- R43 (a) to (d): every step keeps the well-formedness of a state. -/
def Obligations.StepKeepsWellFormed : Prop :=
  ∀ s t : State, s.blk.wf = true → step s = .next t → t.blk.wf = true

/-- R43: the state after reset is well-formed. -/
def Obligations.ResetStateIsWellFormed : Prop := State.reset.blk.wf = true

/-- R43 (e), R29, R32, R203, R74: until a reset, an error code once recorded stays, `LOCK` once set stays, an overrun
once recorded stays (R43 (e) bit by bit for `OVR`: log entry 20), and a locked handler table does not change. -/
def Obligations.RecordsStickUntilReset : Prop :=
  ∀ (i : Instr) (s t : State), exec i s = .next t → i ≠ .sysReset →
    (s.blk.err ≠ 0 → t.blk.err = s.blk.err) ∧
    (s.blk.lock = true → t.blk.lock = true ∧ t.blk.href = s.blk.href) ∧
    (∀ src, flag s.blk.ovr src = true → flag t.blk.ovr src = true)

/-- R24, R21, R23: `TICK` is written only by `INT.ENTER` of TIM, `DELAY` only by `WR.DELAY`, `TARGET` only by
`CMD.ARM`, and all three by reset. -/
def Obligations.DataRegistersHaveOneWriter : Prop :=
  ∀ (i : Instr) (s t : State), exec i s = .next t → i ≠ .sysReset →
    (t.blk.tick = s.blk.tick ∨ (i = .intEnter ∧ s.blk.svc = .ack .tim ∧ t.blk.tick = s.blk.tick + 1)) ∧
    (t.blk.delay = s.blk.delay ∨ ∃ n v, i = .wrDelay n v) ∧
    (t.blk.target = s.blk.target ∨ (i = .cmdArm ∧ t.blk.target = s.blk.tick + s.blk.delay))

/-- The frame of each class of steps (R5, R65, R143, R146, R147, R150, R151, R129): a bus transaction writes no
`TICK`, `PEND`, `OVR` or `SVC`; an event or internal step writes no `DELAY`, `TARGET`, `ORD`, `LOCK`, `IEN` or `HREF`
and leaves `bus_err` low; an event word writes no `TICK` or `WS`; an internal step writes no `OVR` or `ERR`. -/
def Obligations.StepClassesKeepTheRest : Prop :=
  ∀ (i : Instr) (s t : State), exec i s = .next t →
    (i.isBus = true →
      t.blk.tick = s.blk.tick ∧ t.blk.pend = s.blk.pend ∧ t.blk.ovr = s.blk.ovr ∧ t.blk.svc = s.blk.svc) ∧
    (i.isBus = false → i ≠ .sysReset →
      t.blk.delay = s.blk.delay ∧ t.blk.target = s.blk.target ∧ t.blk.ord = s.blk.ord ∧ t.blk.lock = s.blk.lock ∧
      t.blk.ien = s.blk.ien ∧ t.blk.href = s.blk.href ∧ t.busErr = false ∧ t.busRdata = none) ∧
    ((∃ e, i = .evtMulti e) ∨ i ∈ ([.evtNone, .evtRaiseTim, .evtRaiseRtc, .evtRaiseExt, .evtHret, .evtIack] : List Instr) →
      t.blk.tick = s.blk.tick ∧ t.blk.ws = s.blk.ws) ∧
    (i ∈ ([.intEnter, .intClear, .intPoll] : List Instr) → t.blk.ovr = s.blk.ovr ∧ t.blk.err = s.blk.err)

/-- R102, R110: over any run without a reset, `TICK` changes by exactly the number of `INT.ENTER` steps of TIM,
modulo `2^32`, whatever else happens in between. -/
def Obligations.TickCountsTimerServices : Prop :=
  ∀ (s t : State) (n : Nat), RunWhile (fun u => ¬u.resetNext) s n t →
    t.blk.tick = s.blk.tick + BitVec.ofNat 32 n

/-- R153: while a service is in progress only `INT.ENTER`, a handler return and `INT.CLEAR` of that same service move
`SVC`, and reset: no other service starts. -/
def Obligations.ServicesDoNotNest : Prop :=
  ∀ (i : Instr) (s t : State), s.blk.svc ≠ .idle → exec i s = .next t → i ≠ .sysReset →
    t.blk.svc = s.blk.svc ∨
    (i = .intEnter ∧ ∃ src h, s.blk.svc = .ack src ∧ t.blk.svc = .hnd h ∧ h.source = src ∧ h.step = 0) ∨
    (i.returns = true ∧ ∃ h, s.blk.svc = .hnd h ∧
      ((h.step + 1 = nh h.source ∧ t.blk.svc = .clr h.source) ∨
        ∃ k, t.blk.svc = .hnd k ∧ k.source = h.source ∧ k.step = h.step + 1)) ∨
    (i = .intClear ∧ ∃ src, s.blk.svc = .clr src ∧ t.blk.svc = .idle)

/-- R108, R154: from an `INT.ENTER` of TIM until its handlers have returned, every bus read of `TICK` returns a byte of
the value before the `INT.ENTER` plus one. -/
def Obligations.HandlersSeePostIncrementTick : Prop :=
  ∀ (s t u : State) (n : Nat), s.nextInstr? = some .intEnter → s.blk.svc = .ack .tim → step s = .next t →
    RunWhile (fun x => ¬x.resetNext ∧ x.blk.dispValid = true) t n u →
    u.blk.tick = s.blk.tick + 1 ∧
    ∀ m : Fin 4, exec (.rdTick m) u =
      .next { u with busOut := .read (BitVec.ofNat 8 ((s.blk.tick + 1).toNat / 256 ^ m.val)) false }

/-- R130, R131, R135: the wait sequencer moves only from `W_IDLE` to `W_CHECK` by `CMD.ARM`, from `W_CHECK` to
`W_IDLE` by an `INT.POLL` that finds `done`, to `W_HALT` by one that does not, and from `W_HALT` to `W_CHECK` by
`INT.CLEAR`; and by reset. -/
def Obligations.WaitSequencerMoves : Prop :=
  ∀ (i : Instr) (s t : State), exec i s = .next t → i ≠ .sysReset →
    t.blk.ws = s.blk.ws ∨
    (i = .cmdArm ∧ s.blk.ws = .idle ∧ t.blk.ws = .check) ∨
    (i = .intPoll ∧ s.blk.ws = .check ∧ t.blk.ws = .idle ∧ s.blk.waitOver) ∨
    (i = .intPoll ∧ s.blk.ws = .check ∧ t.blk.ws = .halt ∧ ¬s.blk.waitOver) ∨
    (i = .intClear ∧ s.blk.ws = .halt ∧ t.blk.ws = .check)

/-! ### What a wait guarantees -/

/-- R132: an accepted `CMD.ARM` with `DELAY = D` in equality mode. Along every run from it without a reset, while the
wait lasts: at most `D` advances occur; the wait returns only after exactly `D`, with `TICK = TARGET`; and in
`W_CHECK` the next `INT.POLL` returns iff the `D` advances have occurred. -/
def Obligations.EqualityWaitTakesExactlyDelay : Prop :=
  ∀ (s a t : State) (n : Nat), s.nextInstr? = some .cmdArm → s.blk.svc = .idle → s.blk.ws = .idle →
    s.blk.ord = false → step s = .next a →
    RunWhile (fun x => ¬x.resetNext ∧ x.blk.ws ≠ .idle) a n t →
    n ≤ s.blk.delay.toNat ∧
    (t.blk.ws = .idle → n = s.blk.delay.toNat ∧ t.blk.tick = t.blk.target) ∧
    (t.blk.ws = .check → (t.blk.waitOver ↔ n = s.blk.delay.toNat))

/-- R133: the same in ordered mode for `D ≤ 2^31`; for `D > 2^31` the first `INT.POLL` ends the wait, with no advance
and no halt. -/
def Obligations.OrderedWaitNeedsHalfRange : Prop :=
  ∀ (s a t : State) (n : Nat), s.nextInstr? = some .cmdArm → s.blk.svc = .idle → s.blk.ws = .idle →
    s.blk.ord = true → step s = .next a →
    RunWhile (fun x => ¬x.resetNext ∧ x.blk.ws ≠ .idle) a n t →
    (s.blk.delay.toNat ≤ 2 ^ 31 →
      n ≤ s.blk.delay.toNat ∧ (t.blk.ws = .idle → n = s.blk.delay.toNat) ∧
      (t.blk.ws = .check → (t.blk.waitOver ↔ n = s.blk.delay.toNat))) ∧
    (2 ^ 31 < s.blk.delay.toNat → n = 0 ∧ t.blk.ws ≠ .halt ∧ (t.blk.ws = .check → t.blk.waitOver))

/-- R134: a wait with `D = 0`, in either mode, returns at its first `INT.POLL`: `TARGET = TICK` throughout, no advance,
never `W_HALT`, `lp_req` never asserted. -/
def Obligations.ZeroDelayNeverHalts : Prop :=
  ∀ (s a t : State) (n : Nat), s.nextInstr? = some .cmdArm → s.blk.svc = .idle → s.blk.ws = .idle →
    s.blk.delay = 0 → step s = .next a →
    RunWhile (fun x => ¬x.resetNext ∧ x.blk.ws ≠ .idle) a n t →
    n = 0 ∧ t.blk.tick = t.blk.target ∧ t.blk.ws ≠ .halt ∧ t.blk.lpReq = false ∧
      (t.blk.ws = .check → t.blk.waitOver)

/-- R136: after an accepted `CMD.ARM` with `D ≥ 1` in equality mode, along every run with no reset and no `INT.ENTER` of
TIM, `done` does not hold, the wait lasts and `TICK` stays; and with the timer source disabled no `INT.ENTER` of TIM
occurs, whatever the other agents do short of a reset. -/
def Obligations.WaitBlocksWithoutTimerServices : Prop :=
  ∀ (s a t : State) (n : Nat), s.nextInstr? = some .cmdArm → s.blk.svc = .idle → s.blk.ws = .idle →
    s.blk.ord = false → s.blk.delay ≠ 0 → step s = .next a →
    (RunWhile (fun x => ¬x.resetNext) a 0 t →
      ¬t.blk.waitOver ∧ t.blk.ws ≠ .idle ∧ t.blk.tick = s.blk.tick) ∧
    (RunWhile (fun x => ¬x.resetNext ∧ flag x.blk.ien .tim = false) a n t → n = 0)

/-- R92, R89: the five writes of `WAITMS d`, in normal context with no wait in progress, leave `DELAY = d`,
`TARGET = TICK +_32 d` and `WS = W_CHECK`, and change nothing else. -/
def Obligations.WaitMsArmsTheDeadline : Prop :=
  ∀ (d : Word) (rest : List StepWord) (s : State), s.blk.svc = .idle → s.blk.ws = .idle →
    s.script = (waitMs d).map encode ++ rest →
    runsTo 5 s { blk := { s.blk with delay := d, target := s.blk.tick + d, ws := .check },
                 busOut := .write false, script := rest }

/-- R132 as a schedule (S3, S4): with TIM enabled and equality mode, `WAITMS d`, a `POLL`, and `d` times an `ADVANCE`
and a `POLL`, return from the wait with `TICK` advanced by exactly `d`, for every `d` and every start, across the
wrap. With other sources pending it uses that TIM stands first in `PRIO` (R144, log entry 6). -/
def Obligations.WaitMsReturnsAfterServices : Prop :=
  ∀ (d : Word) (rest : List StepWord) (s : State), s.blk.svc = .idle → s.blk.ws = .idle → s.blk.ord = false →
    flag s.blk.ien .tim = true →
    s.script = (waitSchedule d).map encode ++ rest →
    ∃ t, runsTo (6 + 7 * d.toNat) s t ∧ t.script = rest ∧ t.blk.ws = .idle ∧ t.blk.svc = .idle ∧
      t.blk.tick = s.blk.tick + d ∧ t.blk.target = t.blk.tick ∧ t.blk.err = s.blk.err

/-! ### Reading the counter -/

/-- R105: the torn read. From `TICK = 0x000000FF`, a read of byte 0, one whole timer interrupt, and reads of bytes 1 to
3 assemble 0x000001FF, a value the counter never held. -/
def Obligations.PlainReadCanTear : Prop :=
  ∀ s : State, s.blk.tick = 0x000000FF → s.blk.svc = .idle → s.blk.ws = .idle → s.blk.pend = 0 →
    flag s.blk.ien .tim = true →
    s.script = tornRead.map encode →
    ∃ t0 t7 t8 t9 t10 : State, runsTo 1 s t0 ∧ runsTo 7 s t7 ∧ runsTo 8 s t8 ∧ runsTo 9 s t9 ∧ runsTo 10 s t10 ∧
      t0.busRdata = some 0xFF ∧ t8.busRdata = some 0x01 ∧ t9.busRdata = some 0x00 ∧ t10.busRdata = some 0x00 ∧
      t0.blk.tick = 0x000000FF ∧ t7.blk.tick = 0x00000100 ∧ t10.blk.tick = 0x00000100 ∧
      assemble 0x00 0x00 0x01 0xFF = 0x000001FF

/-- R106. From normal context, while `IEN[0] = 0` and no reset comes, `TICK` is constant, every read of it returns a byte
of that one value, and a pending timer event is kept. And the seven steps of `NOW.G` with `m` the byte its first step
returns clear `IEN[0]` alone, read the four bytes of `TICK`, and leave all as it was. -/
def Obligations.GuardedReadIsExact : Prop :=
  (∀ (s t : State) (n : Nat), s.blk.svc = .idle →
    RunWhile (fun x => ¬x.resetNext ∧ flag x.blk.ien .tim = false) s n t →
    t.blk.tick = s.blk.tick ∧ n = 0 ∧ (flag s.blk.pend .tim = true → flag t.blk.pend .tim = true) ∧
    ∀ k : Fin 4, exec (.rdTick k) t = .next { t with busOut := .read (wordByte s.blk.tick k) false }) ∧
  (∀ (s : State) (m : Byte) (rest : List StepWord), s.blk.wf = true → m = sourceByte s.blk.ien →
    s.script = (nowGuarded m).map encode ++ rest →
    (∃ u, runsTo 1 s u ∧ u.busRdata = some m) ∧
    (∃ u, runsTo 2 s u ∧ u.busErr = false ∧ u.blk = { s.blk with ien := u.blk.ien } ∧
      ∀ q : Source, flag u.blk.ien q = (flag s.blk.ien q && decide (q ≠ .tim))) ∧
    (∀ k : Fin 4, ∃ u, runsTo (3 + k.val) s u ∧ u.busRdata = some (wordByte s.blk.tick k)) ∧
    runsTo 7 s { blk := s.blk, busOut := .write false, script := rest })

/-- R107. If byte 0 of `TICK` reads the same at two steps with fewer than 256 advances between them, `TICK` was the
same at both and at every state in between. Hence, on every run, when a reader in either order accepts a value and fewer
than 256 advances lie between the two reads of byte 0 in its last turn (steps 4 and 8, or 1 and 5 when the low byte is
read first), none does and the value is what `TICK` was at both. For `NOW.R` it is `TICK` at the step that accepts. And
eight reads with no other step between them accept `TICK`. The reader as data beside a run is the model's form of the
loop (log entry 22). -/
def Obligations.RereadIsExact : Prop :=
  (∀ (s m t : State) (j k : Nat), RunWhile (fun x => ¬x.resetNext) s j m → RunWhile (fun x => ¬x.resetNext) m k t →
    j + k < 256 → wordByte s.blk.tick 0 = wordByte t.blk.tick 0 →
    m.blk.tick = s.blk.tick ∧ t.blk.tick = s.blk.tick) ∧
  (∀ (o : ReadOrder) (s t : State) (x : LowReads) (v : Word), RereadRun o s (.accepted v) x t → x.advances < 256 →
    x = ⟨v, v, 0⟩) ∧
  (∀ (s t u : State) (r : Rereader) (x : LowReads) (i : Instr) (d : Byte) (v : Word), RereadRun .down s r x t →
    r.next? .down = some i → t.nextInstr? = some i → step t = .next u → u.busRdata = some d →
    r.take .down d = .accepted v → x.advances < 256 →
    x.advances = 0 ∧ t.blk.tick = v ∧ u.blk.tick = v) ∧
  (∀ (o : ReadOrder) (s : State) (rest : List StepWord), s.script = o.turn.map encode ++ rest →
    ∃ t, RereadRun o s (.accepted s.blk.tick) ⟨s.blk.tick, s.blk.tick, 0⟩ t ∧ t.blk = s.blk ∧ t.script = rest)

/-! ### What the router guarantees -/

/-- R155 (S5): from a state with no event pending and source `src` enabled, one raise and its service dispatch exactly
the slots of `src`, in list order, clear its flag once, advance `TICK` by one for TIM and by none for the others, and
leave all else as it was but for the re-test of a halted wait. -/
def Obligations.OneEventOneService : Prop :=
  ∀ (src : Source) (rest : List StepWord) (s : State), s.blk.svc = .idle → s.blk.ws ≠ .check → s.blk.pend = 0 →
    flag s.blk.ien src = true → s.script = (raiseOf src :: service src).map encode ++ rest →
    ∃ t3 t4 t : State, runsTo 3 s t3 ∧ runsTo 4 s t4 ∧ runsTo (1 + (service src).length) s t ∧
      t3.blk.dispSlot = (match src with | .tim => 0 | .rtc => 1 | .ext => 2) ∧ t3.blk.dispValid = true ∧
      t4.blk.dispValid = decide (src = .tim) ∧ (src = .tim → t4.blk.dispSlot = 3) ∧
      t = { blk := { s.blk with
              tick := if src = .tim then s.blk.tick + 1 else s.blk.tick,
              ws := if s.blk.ws = .halt then .check else s.blk.ws },
            busOut := .none, script := rest }

/-- R31, R151, R157: a pending flag rises only by a raise of its source and falls only by the `INT.CLEAR` of its own
service, after which the source does not request; and by reset. -/
def Obligations.PendingFlagMoves : Prop :=
  ∀ (i : Instr) (s t : State) (src : Source), exec i s = .next t → i ≠ .sysReset →
    (flag s.blk.pend src = false → flag t.blk.pend src = true → i.raises src = true) ∧
    (flag s.blk.pend src = true → flag t.blk.pend src = false →
      i = .intClear ∧ s.blk.svc = .clr src ∧ flag t.blk.req src = false)

/-- R156: once a source is acknowledged its service runs to its end whatever `IEN` is: `INT.ENTER`, `EVT.HRET` and
`INT.CLEAR` do to all other fields what they would do with any other value of `IEN`. -/
def Obligations.ServiceIgnoresEnable : Prop :=
  ∀ (i : Instr) (e : BitVec 3) (s t : State), i ∈ ([.intEnter, .evtHret, .intClear] : List Instr) →
    exec i s = .next t →
    exec i { s with blk := { s.blk with ien := e } } = .next { t with blk := { t.blk with ien := e } }

/-- R203 with the contract of R218 (log entry 14): a step that keeps the contract raises no error. -/
def Obligations.ContractKeepsErrZero : Prop :=
  ∀ (i : Instr) (s t : State), keepsContract i s.blk = true → s.blk.err = 0 → exec i s = .next t →
    t.blk.err = 0 ∧ t.busErr = false

/-- R221: in a quiet state no internal step is enabled and `irq` is low; it is left only by a bus transaction or a
raise. -/
def Obligations.QuietStatesStayQuiet : Prop :=
  ∀ s : State, s.blk.quiet = true →
    s.blk.irq = false ∧
    (∀ i ∈ ([.intEnter, .intClear, .intPoll] : List Instr), ∃ r, exec i s = .refused r) ∧
    (∀ (i : Instr) (t : State), i.isBus = false → (∀ src, i.raises src = false) → exec i s = .next t →
      t.blk.quiet = true)

/-- R66: reading an offset twice returns the same byte; writing the same byte twice to `DELAYn`, `CTRL`, `IEN` or `HREF`
leaves the state of the first write; a second `ARM` raises BUSY. -/
def Obligations.RepeatedAccessesAreIdempotent : Prop :=
  (∀ (off : BitVec 5) (d : Byte) (s t u : State), exec (decode (busWord false off d)) s = .next t →
    exec (decode (busWord false off d)) t = .next u → u.busRdata = t.busRdata ∧ u.blk = t.blk) ∧
  (∀ (i : Instr) (s t u : State),
    ((∃ n v, i = .wrDelay n v) ∨ (∃ v, i = .wrCtrl v) ∨ (∃ v, i = .wrIen v) ∨ (∃ j b v, i = .wrHref j b v)) →
    exec i s = .next t → exec i t = .next u → u.blk = t.blk) ∧
  (∀ s t : State, s.blk.svc = .idle → s.blk.ws = .idle → exec .cmdArm s = .next t →
    exec .cmdArm t = .next { t with blk := t.blk.withFirstError 5, busOut := .write true })

/-! ### The comparator and power -/

/-- R125, R126, R127: `reached` holds for the `2^31` ticks from the deadline onward and not for the `2^31` before it;
equivalently bit 31 of the difference is 0, or the difference as a two's-complement number is not negative; `match`
is equality and implies `reached`; they are bits 2 and 3 of `STATUS`; `done` is the one `ORD` selects. -/
def Obligations.ComparatorOrdersAcrossTheWrap : Prop :=
  (∀ (b : Block) (k : Nat), k < 2 ^ 32 → b.tick = b.target + BitVec.ofNat 32 k → (b.reached = true ↔ k < 2 ^ 31)) ∧
  (∀ b : Block, (b.reached = true ↔ (b.tick - b.target).getLsbD 31 = false) ∧
    (b.reached = true ↔ 0 ≤ (b.tick - b.target).toInt) ∧
    (b.matches = true ↔ b.tick = b.target) ∧ (b.matches = true → b.reached = true) ∧
    b.statusByte.getLsbD 2 = b.matches ∧ b.statusByte.getLsbD 3 = b.reached ∧
    b.done = if b.ord then b.reached else b.matches)

/-- R220: `lp_req` rises only by an `INT.POLL` that does not find `done`, and falls only by an acknowledge that the
router accepts, or by reset. -/
def Obligations.HaltIsEnteredByPollLeftByAcknowledge : Prop :=
  ∀ (i : Instr) (s t : State), exec i s = .next t →
    (s.blk.lpReq = false → t.blk.lpReq = true → i = .intPoll ∧ ¬s.blk.waitOver) ∧
    (s.blk.lpReq = true → t.blk.lpReq = false →
      i = .sysReset ∨ (i.eventBits.getLsbD 4 = true ∧ ∃ src, t.blk.svc = .ack src ∧ flag t.blk.req src = true))

/-! ### Boot and progress -/

/-- R91, R236: the ten writes of `BRINGUP h0, h1, h2, h3`, from a state with the table unlocked and no wait, leave the
four references in the table, `LOCK = 1`, `ORD = 0`, every source enabled, and all else as it was. -/
def Obligations.BringUpBuildsTheTable : Prop :=
  ∀ (h0 h1 h2 h3 : HandlerRef) (rest : List StepWord) (s : State), s.blk.lock = false → s.blk.ws = .idle →
    s.script = (bringUp h0 h1 h2 h3).map encode ++ rest →
    runsTo 10 s { blk := { s.blk with href := ⟨h0, h1, h2, h3⟩, lock := true, ord := false, ien := 0b111 },
                  busOut := .write false, script := rest }

/-- R219 with R132: under the four progress assumptions, in every infinite run without a reset that starts in a
well-formed state, every wait returns. Their form over infinite runs is the model's choice (log entry 17); that TIM is served uses that it
stands first in `PRIO` (R144, log entry 6). -/
def Obligations.FairRunsReturnFromEveryWait : Prop :=
  ∀ (w : Nat → StepWord) (st : Nat → State), InfiniteRun w st → (st 0).blk.wf = true →
    (∀ n, decode (w n) ≠ .sysReset) → FairCpu st → FairHnd w st → FairInt w st → FairTim w st →
    ∀ n, (st n).blk.waitBusy = true → ∃ m, n ≤ m ∧ (st m).blk.ws = .idle
end

