-- ==== Sys2Proof/Laws/Decode.lean ====
section
/-! SUPPORT. Laws of decoding: a row's test splits into a test of the high byte and one of the low byte, decoding by
the first covering row, and the fields of the words the encoder builds. -/

namespace Sys2Proof

/-- The row admits the high byte (`CLS`, `WR`, `OFF` of a bus word). -/
def OpRow.coversHi (r : OpRow) (hi : Byte) : Bool := (hi &&& r.mask.extractLsb' 8 8) == r.mtch.extractLsb' 8 8

/-- The row admits the low byte (`DATA` of a bus word). -/
def OpRow.coversLo (r : OpRow) (lo : Byte) : Bool := (lo &&& r.mask.extractLsb' 0 8) == r.mtch.extractLsb' 0 8

theorem word_eq_hi_lo (w : StepWord) : w = w.extractLsb' 8 8 ++ w.extractLsb' 0 8 := by
  rw [BitVec.extractLsb'_append_extractLsb'_eq_extractLsb' (by rfl)]
  simp

theorem append_byte_inj {a b c d : Byte} : (a ++ b : StepWord) = c ++ d ↔ a = c ∧ b = d := by
  constructor
  · intro h
    have h1 := congrArg (BitVec.extractLsb' 8 8) h
    have h2 := congrArg (BitVec.extractLsb' 0 8) h
    rw [BitVec.extractLsb'_append_eq_left, BitVec.extractLsb'_append_eq_left] at h1
    rw [BitVec.extractLsb'_append_eq_right, BitVec.extractLsb'_append_eq_right] at h2
    exact ⟨h1, h2⟩
  · rintro ⟨rfl, rfl⟩
    rfl

/-- A row's test of a word is its test of the two bytes. -/
theorem OpRow.covers_append (r : OpRow) (hi lo : Byte) :
    r.covers (hi ++ lo) = (r.coversHi hi && r.coversLo lo) := by
  have hm := word_eq_hi_lo r.mask
  have hc := word_eq_hi_lo r.mtch
  unfold OpRow.covers OpRow.coversHi OpRow.coversLo
  rw [Bool.eq_iff_iff]
  simp only [beq_iff_eq, Bool.and_eq_true]
  conv_lhs => rw [hm, hc]
  rw [BitVec.and_append, append_byte_inj]

/-- Decoding takes the first row that covers the word (30_encoding.md R84). -/
theorem decode_of_first {w : StepWord} (k : Nat) {r : OpRow} (hk : opcodeRows[k]? = some r)
    (hc : r.covers w = true) (hn : ∀ q ∈ opcodeRows.take k, q.covers w = false) : decode w = r.op w := by
  have hlt : k < opcodeRows.length := (List.getElem?_eq_some_iff.mp hk).1
  have hget : opcodeRows[k] = r := (List.getElem?_eq_some_iff.mp hk).2
  have hsplit : opcodeRows = opcodeRows.take k ++ (r :: opcodeRows.drop (k + 1)) := by
    rw [← hget, List.cons_getElem_drop_succ, List.take_append_drop]
  have hfind : opcodeRows.find? (fun q => q.covers w) = some r := by
    rw [hsplit, List.find?_append]
    have : (opcodeRows.take k).find? (fun q => q.covers w) = none := by
      rw [List.find?_eq_none]
      intro q hq
      simp [hn q hq]
    rw [this]
    simp [hc]
  simp [decode, hfind]

/-- A row that covers the word and that no earlier row's high byte admits is the operation of the word. -/
theorem decode_of_first_hi {hi lo : Byte} (k : Nat) {r : OpRow} (hk : opcodeRows[k]? = some r)
    (hc : r.coversHi hi = true) (hl : r.coversLo lo = true)
    (hn : ∀ q ∈ opcodeRows.take k, q.coversHi hi = false) : decode (hi ++ lo) = r.op (hi ++ lo) := by
  refine decode_of_first k hk ?_ ?_
  · rw [OpRow.covers_append, hc, hl]
    rfl
  · intro q hq
    rw [OpRow.covers_append, hn q hq]
    rfl

/-! ### Slots and bytes of references round-trip through their numbers -/

@[simp] theorem Slot.ofIndex_index (j : Slot) : Slot.ofIndex j.index = j := by cases j <;> rfl
@[simp] theorem RefByte.ofIndex_index (b : RefByte) : RefByte.ofIndex b.index = b := by cases b <;> rfl
theorem Slot.index_ofIndex (x : BitVec 2) : (Slot.ofIndex x).index = x := by revert x; decide
theorem RefByte.index_ofIndex (x : BitVec 1) : (RefByte.ofIndex x).index = x := by revert x; decide

/-! ### Fields of a bus word -/

/-- A bus word is its high byte `{CLS, WR, OFF}` and its `DATA`. -/
theorem busWord_eq (we : Bool) (addr : BitVec 5) (d : Byte) :
    busWord we addr d = ((0b00#2 ++ BitVec.ofBool we ++ addr : Byte) ++ d : StepWord) := rfl

@[simp] theorem fieldV_busWord (we : Bool) (addr : BitVec 5) (d : Byte) : fieldV (busWord we addr d) = d := by
  rw [busWord_eq]
  exact BitVec.extractLsb'_append_eq_right

theorem extract_busWord (we : Bool) (addr : BitVec 5) (d : Byte) (k n : Nat) (hk : k + n ≤ 5) :
    (busWord we addr d).extractLsb' (8 + k) n = addr.extractLsb' k n := by
  apply BitVec.eq_of_getLsbD_eq
  intro i hi
  simp only [BitVec.getLsbD_extractLsb', busWord, BitVec.getLsbD_append]
  have h1 : ¬(8 + k + i < 8) := by omega
  have h2 : 8 + k + i - 8 = k + i := by omega
  have h3 : k + i < 5 := by omega
  simp [h1, h2, h3]

@[simp] theorem fieldN_busWord_wordOff (we : Bool) (g : BitVec 3) (n : Fin 4) (d : Byte) :
    fieldN (busWord we (wordOff g n) d) = n := by
  unfold fieldN
  rw [extract_busWord we _ d 0 2 (by omega)]
  unfold wordOff
  rw [BitVec.extractLsb'_append_eq_right]

@[simp] theorem fieldJ_busWord_hrefOff (we : Bool) (j : Slot) (b : RefByte) (d : Byte) :
    fieldJ (busWord we (hrefOff j b) d) = j := by
  unfold fieldJ
  rw [extract_busWord we _ d 1 2 (by omega)]
  cases j <;> cases b <;> rfl

@[simp] theorem fieldB_busWord_hrefOff (we : Bool) (j : Slot) (b : RefByte) (d : Byte) :
    fieldB (busWord we (hrefOff j b) d) = b := by
  unfold fieldB
  rw [extract_busWord we _ d 0 1 (by omega)]
  cases j <;> cases b <;> rfl

@[simp] theorem fieldE_evtWord (e : BitVec 5) : fieldE (evtWord e) = e := BitVec.extractLsb'_append_eq_right

/-! ### Decoding by class -/

/-- A bus word decodes to the first row whose high byte admits its `{CLS, WR, OFF}`, when that row ignores `DATA`. -/
theorem decode_busWord {i : Instr} {we : Bool} {addr : BitVec 5} {d : Byte} (k : Nat) (r : OpRow)
    (hk : opcodeRows[k]? = some r)
    (hc : r.coversHi (0b00#2 ++ BitVec.ofBool we ++ addr) = true)
    (hl : r.mask.extractLsb' 0 8 = 0 ∧ r.mtch.extractLsb' 0 8 = 0)
    (hn : ∀ q ∈ opcodeRows.take k, q.coversHi (0b00#2 ++ BitVec.ofBool we ++ addr) = false)
    (ho : r.op (busWord we addr d) = i) : decode (busWord we addr d) = i := by
  rw [← ho, busWord_eq]
  exact decode_of_first_hi k hk hc (by simp [OpRow.coversLo, hl.1, hl.2]) hn

/-- The number of a bus word is `0x2000 * WR + 0x100 * OFF + DATA` (30_encoding.md R81). -/
theorem ofNat_busWord (we : Bool) (addr : BitVec 5) (d : Byte) :
    BitVec.ofNat 16 ((if we then 0x2000 else 0) + 0x100 * addr.toNat + d.toNat) = busWord we addr d := by
  apply BitVec.eq_of_toNat_eq
  have h1 := addr.isLt
  have h2 := d.isLt
  rw [busWord, BitVec.toNat_append, BitVec.toNat_append, BitVec.toNat_append,
    ← Nat.shiftLeft_add_eq_or_of_lt h2, ← Nat.shiftLeft_add_eq_or_of_lt h1]
  cases we <;> simp [Nat.shiftLeft_eq] <;> omega

/-- Which group of offsets an offset is in (20_memory.md R61, R67). -/
theorem offset_cases : ∀ off : BitVec 5,
    (∃ n, off = wordOff 0 n) ∨ (∃ n, off = wordOff 1 n) ∨ (∃ n, off = wordOff 2 n) ∨
    off = 0x0C ∨ off = 0x0D ∨ off = 0x0E ∨ off = 0x0F ∨ off = 0x10 ∨ off = 0x11 ∨ off = 0x12 ∨ off = 0x13 ∨
    (∃ n, off = wordOff 5 n) ∨
    ∃ (x : BitVec 2) (y : BitVec 1), off = hrefOff (Slot.ofIndex x) (RefByte.ofIndex y) := by decide

/-- The rows but the last: each fixes `CLS`; those of class EVT fix bits 13:5 at 0; those of class INT and SYS are one
word each. -/
theorem rows_shape : ∀ q ∈ opcodeRows.take 38, q.mask.extractLsb' 14 2 = 3 ∧
    (q.mtch.extractLsb' 14 2 = 0 ∨
     (q.mtch.extractLsb' 14 2 = 1 ∧ q.mask.extractLsb' 5 9 = BitVec.allOnes 9 ∧ q.mtch.extractLsb' 5 9 = 0) ∨
     (q.mask = BitVec.allOnes 16 ∧ (q.mtch = 0x8000 ∨ q.mtch = 0x8001 ∨ q.mtch = 0x8002 ∨ q.mtch = 0xC000))) := by
  decide

/-- No row but the last covers a word that spells no step (30_encoding.md R85). -/
theorem not_covered_of_isIllegalWord {w : StepWord} (h : isIllegalWord w = true) :
    ∀ q ∈ opcodeRows.take 38, q.covers w = false := by
  intro q hq
  obtain ⟨h1, h2⟩ := rows_shape q hq
  by_contra hc
  have hc : w &&& q.mask = q.mtch := by simpa [OpRow.covers] using hc
  have e1 : w.extractLsb' 14 2 = q.mtch.extractLsb' 14 2 := by
    rw [← hc, BitVec.extractLsb'_and, h1]
    exact (BitVec.and_allOnes (x := w.extractLsb' 14 2)).symm
  unfold isIllegalWord at h
  rcases h2 with h2 | ⟨h2, h3, h4⟩ | ⟨h2, h3⟩
  · rw [e1, h2] at h
    simp at h
  · have e2 : w.extractLsb' 5 9 = 0 := by rw [← h4, ← hc, BitVec.extractLsb'_and, h3, BitVec.and_allOnes]
    rw [e1, h2] at h
    simp at h
    exact h (by simpa using e2)
  · rw [h2, BitVec.and_allOnes] at hc
    subst hc
    rcases h3 with h3 | h3 | h3 | h3 <;> rw [h3] at h <;> revert h <;> decide

end Sys2Proof
end

