-- ==== Sys2Proof/Laws/State.lean ====
section
/-! SUPPORT. One lemma per field per update of the state (Sys2Proof/Machine/Ops.lean), so that no proof unfolds a
record update. -/

namespace Sys2Proof.Machine

section BlockUpdates
variable (b : Block)

/-! ### `setTick` -/

@[simp] theorem Block.setTick_tick (v : Word) : (b.setTick v).tick = v := rfl
@[simp] theorem Block.setTick_delay (v : Word) : (b.setTick v).delay = b.delay := rfl
@[simp] theorem Block.setTick_target (v : Word) : (b.setTick v).target = b.target := rfl
@[simp] theorem Block.setTick_ord (v : Word) : (b.setTick v).ord = b.ord := rfl
@[simp] theorem Block.setTick_lock (v : Word) : (b.setTick v).lock = b.lock := rfl
@[simp] theorem Block.setTick_ws (v : Word) : (b.setTick v).ws = b.ws := rfl
@[simp] theorem Block.setTick_ien (v : Word) : (b.setTick v).ien = b.ien := rfl
@[simp] theorem Block.setTick_pend (v : Word) : (b.setTick v).pend = b.pend := rfl
@[simp] theorem Block.setTick_ovr (v : Word) : (b.setTick v).ovr = b.ovr := rfl
@[simp] theorem Block.setTick_svc (v : Word) : (b.setTick v).svc = b.svc := rfl
@[simp] theorem Block.setTick_href (v : Word) : (b.setTick v).href = b.href := rfl
@[simp] theorem Block.setTick_err (v : Word) : (b.setTick v).err = b.err := rfl

/-! ### `setDelay` -/

@[simp] theorem Block.setDelay_tick (v : Word) : (b.setDelay v).tick = b.tick := rfl
@[simp] theorem Block.setDelay_delay (v : Word) : (b.setDelay v).delay = v := rfl
@[simp] theorem Block.setDelay_target (v : Word) : (b.setDelay v).target = b.target := rfl
@[simp] theorem Block.setDelay_ord (v : Word) : (b.setDelay v).ord = b.ord := rfl
@[simp] theorem Block.setDelay_lock (v : Word) : (b.setDelay v).lock = b.lock := rfl
@[simp] theorem Block.setDelay_ws (v : Word) : (b.setDelay v).ws = b.ws := rfl
@[simp] theorem Block.setDelay_ien (v : Word) : (b.setDelay v).ien = b.ien := rfl
@[simp] theorem Block.setDelay_pend (v : Word) : (b.setDelay v).pend = b.pend := rfl
@[simp] theorem Block.setDelay_ovr (v : Word) : (b.setDelay v).ovr = b.ovr := rfl
@[simp] theorem Block.setDelay_svc (v : Word) : (b.setDelay v).svc = b.svc := rfl
@[simp] theorem Block.setDelay_href (v : Word) : (b.setDelay v).href = b.href := rfl
@[simp] theorem Block.setDelay_err (v : Word) : (b.setDelay v).err = b.err := rfl

/-! ### `setTarget` -/

@[simp] theorem Block.setTarget_tick (v : Word) : (b.setTarget v).tick = b.tick := rfl
@[simp] theorem Block.setTarget_delay (v : Word) : (b.setTarget v).delay = b.delay := rfl
@[simp] theorem Block.setTarget_target (v : Word) : (b.setTarget v).target = v := rfl
@[simp] theorem Block.setTarget_ord (v : Word) : (b.setTarget v).ord = b.ord := rfl
@[simp] theorem Block.setTarget_lock (v : Word) : (b.setTarget v).lock = b.lock := rfl
@[simp] theorem Block.setTarget_ws (v : Word) : (b.setTarget v).ws = b.ws := rfl
@[simp] theorem Block.setTarget_ien (v : Word) : (b.setTarget v).ien = b.ien := rfl
@[simp] theorem Block.setTarget_pend (v : Word) : (b.setTarget v).pend = b.pend := rfl
@[simp] theorem Block.setTarget_ovr (v : Word) : (b.setTarget v).ovr = b.ovr := rfl
@[simp] theorem Block.setTarget_svc (v : Word) : (b.setTarget v).svc = b.svc := rfl
@[simp] theorem Block.setTarget_href (v : Word) : (b.setTarget v).href = b.href := rfl
@[simp] theorem Block.setTarget_err (v : Word) : (b.setTarget v).err = b.err := rfl

/-! ### `setOrd` -/

@[simp] theorem Block.setOrd_tick (v : Bool) : (b.setOrd v).tick = b.tick := rfl
@[simp] theorem Block.setOrd_delay (v : Bool) : (b.setOrd v).delay = b.delay := rfl
@[simp] theorem Block.setOrd_target (v : Bool) : (b.setOrd v).target = b.target := rfl
@[simp] theorem Block.setOrd_ord (v : Bool) : (b.setOrd v).ord = v := rfl
@[simp] theorem Block.setOrd_lock (v : Bool) : (b.setOrd v).lock = b.lock := rfl
@[simp] theorem Block.setOrd_ws (v : Bool) : (b.setOrd v).ws = b.ws := rfl
@[simp] theorem Block.setOrd_ien (v : Bool) : (b.setOrd v).ien = b.ien := rfl
@[simp] theorem Block.setOrd_pend (v : Bool) : (b.setOrd v).pend = b.pend := rfl
@[simp] theorem Block.setOrd_ovr (v : Bool) : (b.setOrd v).ovr = b.ovr := rfl
@[simp] theorem Block.setOrd_svc (v : Bool) : (b.setOrd v).svc = b.svc := rfl
@[simp] theorem Block.setOrd_href (v : Bool) : (b.setOrd v).href = b.href := rfl
@[simp] theorem Block.setOrd_err (v : Bool) : (b.setOrd v).err = b.err := rfl

/-! ### `setLock` -/

@[simp] theorem Block.setLock_tick (v : Bool) : (b.setLock v).tick = b.tick := rfl
@[simp] theorem Block.setLock_delay (v : Bool) : (b.setLock v).delay = b.delay := rfl
@[simp] theorem Block.setLock_target (v : Bool) : (b.setLock v).target = b.target := rfl
@[simp] theorem Block.setLock_ord (v : Bool) : (b.setLock v).ord = b.ord := rfl
@[simp] theorem Block.setLock_lock (v : Bool) : (b.setLock v).lock = v := rfl
@[simp] theorem Block.setLock_ws (v : Bool) : (b.setLock v).ws = b.ws := rfl
@[simp] theorem Block.setLock_ien (v : Bool) : (b.setLock v).ien = b.ien := rfl
@[simp] theorem Block.setLock_pend (v : Bool) : (b.setLock v).pend = b.pend := rfl
@[simp] theorem Block.setLock_ovr (v : Bool) : (b.setLock v).ovr = b.ovr := rfl
@[simp] theorem Block.setLock_svc (v : Bool) : (b.setLock v).svc = b.svc := rfl
@[simp] theorem Block.setLock_href (v : Bool) : (b.setLock v).href = b.href := rfl
@[simp] theorem Block.setLock_err (v : Bool) : (b.setLock v).err = b.err := rfl

/-! ### `setWs` -/

@[simp] theorem Block.setWs_tick (v : WaitState) : (b.setWs v).tick = b.tick := rfl
@[simp] theorem Block.setWs_delay (v : WaitState) : (b.setWs v).delay = b.delay := rfl
@[simp] theorem Block.setWs_target (v : WaitState) : (b.setWs v).target = b.target := rfl
@[simp] theorem Block.setWs_ord (v : WaitState) : (b.setWs v).ord = b.ord := rfl
@[simp] theorem Block.setWs_lock (v : WaitState) : (b.setWs v).lock = b.lock := rfl
@[simp] theorem Block.setWs_ws (v : WaitState) : (b.setWs v).ws = v := rfl
@[simp] theorem Block.setWs_ien (v : WaitState) : (b.setWs v).ien = b.ien := rfl
@[simp] theorem Block.setWs_pend (v : WaitState) : (b.setWs v).pend = b.pend := rfl
@[simp] theorem Block.setWs_ovr (v : WaitState) : (b.setWs v).ovr = b.ovr := rfl
@[simp] theorem Block.setWs_svc (v : WaitState) : (b.setWs v).svc = b.svc := rfl
@[simp] theorem Block.setWs_href (v : WaitState) : (b.setWs v).href = b.href := rfl
@[simp] theorem Block.setWs_err (v : WaitState) : (b.setWs v).err = b.err := rfl

/-! ### `setIen` -/

@[simp] theorem Block.setIen_tick (v : BitVec 3) : (b.setIen v).tick = b.tick := rfl
@[simp] theorem Block.setIen_delay (v : BitVec 3) : (b.setIen v).delay = b.delay := rfl
@[simp] theorem Block.setIen_target (v : BitVec 3) : (b.setIen v).target = b.target := rfl
@[simp] theorem Block.setIen_ord (v : BitVec 3) : (b.setIen v).ord = b.ord := rfl
@[simp] theorem Block.setIen_lock (v : BitVec 3) : (b.setIen v).lock = b.lock := rfl
@[simp] theorem Block.setIen_ws (v : BitVec 3) : (b.setIen v).ws = b.ws := rfl
@[simp] theorem Block.setIen_ien (v : BitVec 3) : (b.setIen v).ien = v := rfl
@[simp] theorem Block.setIen_pend (v : BitVec 3) : (b.setIen v).pend = b.pend := rfl
@[simp] theorem Block.setIen_ovr (v : BitVec 3) : (b.setIen v).ovr = b.ovr := rfl
@[simp] theorem Block.setIen_svc (v : BitVec 3) : (b.setIen v).svc = b.svc := rfl
@[simp] theorem Block.setIen_href (v : BitVec 3) : (b.setIen v).href = b.href := rfl
@[simp] theorem Block.setIen_err (v : BitVec 3) : (b.setIen v).err = b.err := rfl

/-! ### `setPend` -/

@[simp] theorem Block.setPend_tick (v : BitVec 3) : (b.setPend v).tick = b.tick := rfl
@[simp] theorem Block.setPend_delay (v : BitVec 3) : (b.setPend v).delay = b.delay := rfl
@[simp] theorem Block.setPend_target (v : BitVec 3) : (b.setPend v).target = b.target := rfl
@[simp] theorem Block.setPend_ord (v : BitVec 3) : (b.setPend v).ord = b.ord := rfl
@[simp] theorem Block.setPend_lock (v : BitVec 3) : (b.setPend v).lock = b.lock := rfl
@[simp] theorem Block.setPend_ws (v : BitVec 3) : (b.setPend v).ws = b.ws := rfl
@[simp] theorem Block.setPend_ien (v : BitVec 3) : (b.setPend v).ien = b.ien := rfl
@[simp] theorem Block.setPend_pend (v : BitVec 3) : (b.setPend v).pend = v := rfl
@[simp] theorem Block.setPend_ovr (v : BitVec 3) : (b.setPend v).ovr = b.ovr := rfl
@[simp] theorem Block.setPend_svc (v : BitVec 3) : (b.setPend v).svc = b.svc := rfl
@[simp] theorem Block.setPend_href (v : BitVec 3) : (b.setPend v).href = b.href := rfl
@[simp] theorem Block.setPend_err (v : BitVec 3) : (b.setPend v).err = b.err := rfl

/-! ### `setOvr` -/

@[simp] theorem Block.setOvr_tick (v : BitVec 3) : (b.setOvr v).tick = b.tick := rfl
@[simp] theorem Block.setOvr_delay (v : BitVec 3) : (b.setOvr v).delay = b.delay := rfl
@[simp] theorem Block.setOvr_target (v : BitVec 3) : (b.setOvr v).target = b.target := rfl
@[simp] theorem Block.setOvr_ord (v : BitVec 3) : (b.setOvr v).ord = b.ord := rfl
@[simp] theorem Block.setOvr_lock (v : BitVec 3) : (b.setOvr v).lock = b.lock := rfl
@[simp] theorem Block.setOvr_ws (v : BitVec 3) : (b.setOvr v).ws = b.ws := rfl
@[simp] theorem Block.setOvr_ien (v : BitVec 3) : (b.setOvr v).ien = b.ien := rfl
@[simp] theorem Block.setOvr_pend (v : BitVec 3) : (b.setOvr v).pend = b.pend := rfl
@[simp] theorem Block.setOvr_ovr (v : BitVec 3) : (b.setOvr v).ovr = v := rfl
@[simp] theorem Block.setOvr_svc (v : BitVec 3) : (b.setOvr v).svc = b.svc := rfl
@[simp] theorem Block.setOvr_href (v : BitVec 3) : (b.setOvr v).href = b.href := rfl
@[simp] theorem Block.setOvr_err (v : BitVec 3) : (b.setOvr v).err = b.err := rfl

/-! ### `setSvc` -/

@[simp] theorem Block.setSvc_tick (v : Svc) : (b.setSvc v).tick = b.tick := rfl
@[simp] theorem Block.setSvc_delay (v : Svc) : (b.setSvc v).delay = b.delay := rfl
@[simp] theorem Block.setSvc_target (v : Svc) : (b.setSvc v).target = b.target := rfl
@[simp] theorem Block.setSvc_ord (v : Svc) : (b.setSvc v).ord = b.ord := rfl
@[simp] theorem Block.setSvc_lock (v : Svc) : (b.setSvc v).lock = b.lock := rfl
@[simp] theorem Block.setSvc_ws (v : Svc) : (b.setSvc v).ws = b.ws := rfl
@[simp] theorem Block.setSvc_ien (v : Svc) : (b.setSvc v).ien = b.ien := rfl
@[simp] theorem Block.setSvc_pend (v : Svc) : (b.setSvc v).pend = b.pend := rfl
@[simp] theorem Block.setSvc_ovr (v : Svc) : (b.setSvc v).ovr = b.ovr := rfl
@[simp] theorem Block.setSvc_svc (v : Svc) : (b.setSvc v).svc = v := rfl
@[simp] theorem Block.setSvc_href (v : Svc) : (b.setSvc v).href = b.href := rfl
@[simp] theorem Block.setSvc_err (v : Svc) : (b.setSvc v).err = b.err := rfl

/-! ### `setHref` -/

@[simp] theorem Block.setHref_tick (v : HandlerTable) : (b.setHref v).tick = b.tick := rfl
@[simp] theorem Block.setHref_delay (v : HandlerTable) : (b.setHref v).delay = b.delay := rfl
@[simp] theorem Block.setHref_target (v : HandlerTable) : (b.setHref v).target = b.target := rfl
@[simp] theorem Block.setHref_ord (v : HandlerTable) : (b.setHref v).ord = b.ord := rfl
@[simp] theorem Block.setHref_lock (v : HandlerTable) : (b.setHref v).lock = b.lock := rfl
@[simp] theorem Block.setHref_ws (v : HandlerTable) : (b.setHref v).ws = b.ws := rfl
@[simp] theorem Block.setHref_ien (v : HandlerTable) : (b.setHref v).ien = b.ien := rfl
@[simp] theorem Block.setHref_pend (v : HandlerTable) : (b.setHref v).pend = b.pend := rfl
@[simp] theorem Block.setHref_ovr (v : HandlerTable) : (b.setHref v).ovr = b.ovr := rfl
@[simp] theorem Block.setHref_svc (v : HandlerTable) : (b.setHref v).svc = b.svc := rfl
@[simp] theorem Block.setHref_href (v : HandlerTable) : (b.setHref v).href = v := rfl
@[simp] theorem Block.setHref_err (v : HandlerTable) : (b.setHref v).err = b.err := rfl

/-! ### `setErr` -/

@[simp] theorem Block.setErr_tick (v : BitVec 4) : (b.setErr v).tick = b.tick := rfl
@[simp] theorem Block.setErr_delay (v : BitVec 4) : (b.setErr v).delay = b.delay := rfl
@[simp] theorem Block.setErr_target (v : BitVec 4) : (b.setErr v).target = b.target := rfl
@[simp] theorem Block.setErr_ord (v : BitVec 4) : (b.setErr v).ord = b.ord := rfl
@[simp] theorem Block.setErr_lock (v : BitVec 4) : (b.setErr v).lock = b.lock := rfl
@[simp] theorem Block.setErr_ws (v : BitVec 4) : (b.setErr v).ws = b.ws := rfl
@[simp] theorem Block.setErr_ien (v : BitVec 4) : (b.setErr v).ien = b.ien := rfl
@[simp] theorem Block.setErr_pend (v : BitVec 4) : (b.setErr v).pend = b.pend := rfl
@[simp] theorem Block.setErr_ovr (v : BitVec 4) : (b.setErr v).ovr = b.ovr := rfl
@[simp] theorem Block.setErr_svc (v : BitVec 4) : (b.setErr v).svc = b.svc := rfl
@[simp] theorem Block.setErr_href (v : BitVec 4) : (b.setErr v).href = b.href := rfl
@[simp] theorem Block.setErr_err (v : BitVec 4) : (b.setErr v).err = v := rfl

end BlockUpdates

section StateUpdates
variable (s : State)

@[simp] theorem State.setBlk_blk (v : Block) : (s.setBlk v).blk = v := rfl
@[simp] theorem State.setBlk_busOut (v : Block) : (s.setBlk v).busOut = s.busOut := rfl
@[simp] theorem State.setBlk_script (v : Block) : (s.setBlk v).script = s.script := rfl
@[simp] theorem State.setBusOut_blk (v : BusOut) : (s.setBusOut v).blk = s.blk := rfl
@[simp] theorem State.setBusOut_busOut (v : BusOut) : (s.setBusOut v).busOut = v := rfl
@[simp] theorem State.setBusOut_script (v : BusOut) : (s.setBusOut v).script = s.script := rfl
@[simp] theorem State.setScript_blk (v : List StepWord) : (s.setScript v).blk = s.blk := rfl
@[simp] theorem State.setScript_busOut (v : List StepWord) : (s.setScript v).busOut = s.busOut := rfl
@[simp] theorem State.setScript_script (v : List StepWord) : (s.setScript v).script = v := rfl

end StateUpdates

/-! ### Reset -/

@[simp] theorem State.reset_blk : State.reset.blk = Block.reset := rfl
@[simp] theorem State.reset_script : State.reset.script = [] := rfl
@[simp] theorem State.reset_busOut : State.reset.busOut = .none := rfl

/-- Two blocks with equal fields are equal. -/
theorem Block.ext_fields {a b : Block} (h1 : a.tick = b.tick) (h2 : a.delay = b.delay) (h3 : a.target = b.target)
    (h4 : a.ord = b.ord) (h5 : a.lock = b.lock) (h6 : a.ws = b.ws) (h7 : a.ien = b.ien) (h8 : a.pend = b.pend)
    (h9 : a.ovr = b.ovr) (h10 : a.svc = b.svc) (h11 : a.href = b.href) (h12 : a.err = b.err) : a = b := by
  cases a; cases b; simp_all

end Sys2Proof.Machine
end

