-- ==== Sys2Proof/Laws/Ops.lean ====
section
/-! SUPPORT. What each shared operation of Sys2Proof/Machine/Ops.lean does, field by field, said once. -/

namespace Sys2Proof.Machine

/-! ### Per-source registers -/

@[simp] theorem flag_setFlag (f : BitVec 3) (s q : Source) : flag (setFlag f s) q = (flag f q || decide (q = s)) := by
  revert f; cases s <;> cases q <;> decide

@[simp] theorem flag_clearFlag (f : BitVec 3) (s q : Source) :
    flag (clearFlag f s) q = (flag f q && !decide (q = s)) := by
  revert f; cases s <;> cases q <;> decide

theorem flag_and (f g : BitVec 3) (s : Source) : flag (f &&& g) s = (flag f s && flag g s) := by
  simp [flag]

/-- A per-source register is determined by its three bits. -/
theorem flags_ext {f g : BitVec 3} (h : ∀ s, flag f s = flag g s) : f = g := by
  have h0 := h .tim
  have h1 := h .rtc
  have h2 := h .ext
  revert h0 h1 h2
  clear h
  revert f g
  decide

theorem flags_eq_zero (f : BitVec 3) : f = 0 ↔ ∀ s, flag f s = false := by
  constructor
  · rintro rfl s
    cases s <;> rfl
  · intro h
    exact flags_ext fun s => by rw [h s]; cases s <;> rfl

theorem flags_ne_zero (f : BitVec 3) : f ≠ 0 ↔ ∃ s, flag f s = true := by
  rw [Ne, flags_eq_zero]
  simp

/-! ### Derived signals -/

theorem Block.flag_req (b : Block) (s : Source) : flag b.req s = (flag b.pend s && flag b.ien s) := flag_and _ _ _

theorem Block.irq_iff (b : Block) :
    b.irq = true ↔ b.svc = .idle ∧ b.ws ≠ .check ∧ ∃ s, flag b.pend s = true ∧ flag b.ien s = true := by
  have h := flags_ne_zero b.req
  simp only [Block.flag_req, Bool.and_eq_true] at h
  simp only [Block.irq, Bool.and_eq_true, beq_iff_eq, bne_iff_ne, and_assoc, h]

theorem Block.sel_eq (b : Block) :
    b.sel = if flag b.req .tim then some .tim else if flag b.req .rtc then some .rtc
      else if flag b.req .ext then some .ext else none := by
  unfold Block.sel Config.prio
  simp only [List.find?]
  cases flag b.req .tim <;> cases flag b.req .rtc <;> cases flag b.req .ext <;> rfl

/-- The selected source is pending and enabled, and no source before it in `PRIO` is both (42_interrupt_router.md R144). -/
theorem Block.sel_eq_some (b : Block) (s : Source) :
    b.sel = some s ↔ flag b.req s = true ∧ ∀ q : Source, q.index < s.index → flag b.req q = false := by
  have hall : (∀ q : Source, q.index < s.index → flag b.req q = false) ↔
      ((Source.index .tim < s.index → flag b.req .tim = false) ∧
       (Source.index .rtc < s.index → flag b.req .rtc = false) ∧
       (Source.index .ext < s.index → flag b.req .ext = false)) :=
    ⟨fun h => ⟨h _, h _, h _⟩, fun ⟨h0, h1, h2⟩ q => by cases q <;> assumption⟩
  rw [Block.sel_eq, hall]
  cases h0 : flag b.req .tim <;> cases h1 : flag b.req .rtc <;> cases h2 : flag b.req .ext <;> cases s <;>
    simp [Source.index, h0, h1, h2]

theorem Block.sel_isSome_of_irq {b : Block} (h : b.irq = true) : ∃ s, b.sel = some s ∧ flag b.req s = true := by
  obtain ⟨-, -, q, hp, he⟩ := b.irq_iff.mp h
  have hq : flag b.req q = true := by rw [Block.flag_req, hp, he]; rfl
  rw [Block.sel_eq]
  cases h0 : flag b.req .tim
  · cases h1 : flag b.req .rtc
    · cases h2 : flag b.req .ext
      · cases q <;> simp_all
      · exact ⟨.ext, by simp, h2⟩
    · exact ⟨.rtc, by simp, h1⟩
  · exact ⟨.tim, by simp, h0⟩

/-- `reached` on natural numbers (41_deadline_wait.md R126). -/
theorem Block.reached_iff (b : Block) :
    b.reached = true ↔ (b.tick.toNat + 2 ^ 32 - b.target.toNat) % 2 ^ 32 < 2 ^ 31 := by
  have h1 := b.tick.isLt
  have h2 := b.target.isLt
  have h3 : (2 ^ 32 - b.target.toNat + b.tick.toNat) = (b.tick.toNat + 2 ^ 32 - b.target.toNat) := by omega
  simp only [Block.reached, BitVec.toNat_sub, h3, decide_eq_true_eq]

theorem Block.matches_iff (b : Block) : b.matches = true ↔ b.tick = b.target := by simp [Block.matches]

/-! ### The error record -/

@[simp] theorem Block.recordErr_tick (b : Block) (c : ErrCode) : (b.recordErr c).tick = b.tick := by
  unfold Block.recordErr; split <;> rfl
@[simp] theorem Block.recordErr_delay (b : Block) (c : ErrCode) : (b.recordErr c).delay = b.delay := by
  unfold Block.recordErr; split <;> rfl
@[simp] theorem Block.recordErr_target (b : Block) (c : ErrCode) : (b.recordErr c).target = b.target := by
  unfold Block.recordErr; split <;> rfl
@[simp] theorem Block.recordErr_ord (b : Block) (c : ErrCode) : (b.recordErr c).ord = b.ord := by
  unfold Block.recordErr; split <;> rfl
@[simp] theorem Block.recordErr_lock (b : Block) (c : ErrCode) : (b.recordErr c).lock = b.lock := by
  unfold Block.recordErr; split <;> rfl
@[simp] theorem Block.recordErr_ws (b : Block) (c : ErrCode) : (b.recordErr c).ws = b.ws := by
  unfold Block.recordErr; split <;> rfl
@[simp] theorem Block.recordErr_ien (b : Block) (c : ErrCode) : (b.recordErr c).ien = b.ien := by
  unfold Block.recordErr; split <;> rfl
@[simp] theorem Block.recordErr_pend (b : Block) (c : ErrCode) : (b.recordErr c).pend = b.pend := by
  unfold Block.recordErr; split <;> rfl
@[simp] theorem Block.recordErr_ovr (b : Block) (c : ErrCode) : (b.recordErr c).ovr = b.ovr := by
  unfold Block.recordErr; split <;> rfl
@[simp] theorem Block.recordErr_svc (b : Block) (c : ErrCode) : (b.recordErr c).svc = b.svc := by
  unfold Block.recordErr; split <;> rfl
@[simp] theorem Block.recordErr_href (b : Block) (c : ErrCode) : (b.recordErr c).href = b.href := by
  unfold Block.recordErr; split <;> rfl
theorem Block.recordErr_err (b : Block) (c : ErrCode) : (b.recordErr c).err = if b.err = 0 then c.code else b.err := by
  unfold Block.recordErr; split <;> simp [*]

theorem ErrCode.code_ne_zero (c : ErrCode) : c.code ≠ 0 := by cases c <;> decide

/-- Recording an error twice is recording it once (60_exceptions.md R203). -/
@[simp] theorem Block.recordErr_recordErr (b : Block) (c : ErrCode) : (b.recordErr c).recordErr c = b.recordErr c := by
  have h := c.code_ne_zero
  unfold Block.recordErr
  by_cases h0 : b.err = 0
  · rw [if_pos h0, if_neg (by simpa using h)]
  · rw [if_neg h0, if_neg h0]

/-! ### Bus transactions and quiet steps -/

section Steps
variable (s : State)

@[simp] theorem State.busRead_ok (d : Byte) : s.busRead (.ok d) = s.setBusOut (.read d false) := rfl
@[simp] theorem State.busRead_error (c : ErrCode) :
    s.busRead (.error c) = (s.setBlk (s.blk.recordErr c)).setBusOut (.read 0x00 true) := rfl
@[simp] theorem State.busWrite_ok (b : Block) : s.busWrite (.ok b) = (s.setBlk b).setBusOut (.write false) := rfl
@[simp] theorem State.busWrite_error (c : ErrCode) :
    s.busWrite (.error c) = (s.setBlk (s.blk.recordErr c)).setBusOut (.write true) := rfl
@[simp] theorem State.quietStep_blk (b : Block) : (s.quietStep b).blk = b := rfl
@[simp] theorem State.quietStep_busOut (b : Block) : (s.quietStep b).busOut = .none := rfl
@[simp] theorem State.quietStep_script (b : Block) : (s.quietStep b).script = s.script := rfl
@[simp] theorem State.busRead_script (r : Except ErrCode Byte) : (s.busRead r).script = s.script := by cases r <;> rfl
@[simp] theorem State.busWrite_script (r : Except ErrCode Block) : (s.busWrite r).script = s.script := by cases r <;> rfl

end Steps

/-! ### Raise -/

@[simp] theorem Block.raise_tick (b : Block) (s : Source) : (b.raise s).tick = b.tick := by
  unfold Block.raise; split <;> rfl
@[simp] theorem Block.raise_delay (b : Block) (s : Source) : (b.raise s).delay = b.delay := by
  unfold Block.raise; split <;> rfl
@[simp] theorem Block.raise_target (b : Block) (s : Source) : (b.raise s).target = b.target := by
  unfold Block.raise; split <;> rfl
@[simp] theorem Block.raise_ord (b : Block) (s : Source) : (b.raise s).ord = b.ord := by
  unfold Block.raise; split <;> rfl
@[simp] theorem Block.raise_lock (b : Block) (s : Source) : (b.raise s).lock = b.lock := by
  unfold Block.raise; split <;> rfl
@[simp] theorem Block.raise_ws (b : Block) (s : Source) : (b.raise s).ws = b.ws := by
  unfold Block.raise; split <;> rfl
@[simp] theorem Block.raise_ien (b : Block) (s : Source) : (b.raise s).ien = b.ien := by
  unfold Block.raise; split <;> rfl
@[simp] theorem Block.raise_svc (b : Block) (s : Source) : (b.raise s).svc = b.svc := by
  unfold Block.raise; split <;> rfl
@[simp] theorem Block.raise_href (b : Block) (s : Source) : (b.raise s).href = b.href := by
  unfold Block.raise; split <;> rfl
@[simp] theorem Block.raise_err (b : Block) (s : Source) : (b.raise s).err = b.err := by
  unfold Block.raise; split <;> rfl

/-- A raise sets the flag of its source, whether it was clear or set (42_interrupt_router.md R143). -/
@[simp] theorem Block.flag_raise_pend (b : Block) (s q : Source) :
    flag (b.raise s).pend q = (flag b.pend q || decide (q = s)) := by
  unfold Block.raise
  split
  · rename_i h
    by_cases hq : q = s <;> simp_all
  · simp

/-- A raise of a source that is already pending is recorded as an overrun (42_interrupt_router.md R143). -/
@[simp] theorem Block.flag_raise_ovr (b : Block) (s q : Source) :
    flag (b.raise s).ovr q = (flag b.ovr q || (decide (q = s) && flag b.pend s)) := by
  unfold Block.raise
  split <;> simp_all

/-! ### Acknowledge -/

@[simp] theorem Block.iack_tick (b : Block) : (b.iack).tick = b.tick := by
  unfold Block.iack; split <;> (try split) <;> rfl
@[simp] theorem Block.iack_delay (b : Block) : (b.iack).delay = b.delay := by
  unfold Block.iack; split <;> (try split) <;> rfl
@[simp] theorem Block.iack_target (b : Block) : (b.iack).target = b.target := by
  unfold Block.iack; split <;> (try split) <;> rfl
@[simp] theorem Block.iack_ord (b : Block) : (b.iack).ord = b.ord := by
  unfold Block.iack; split <;> (try split) <;> rfl
@[simp] theorem Block.iack_lock (b : Block) : (b.iack).lock = b.lock := by
  unfold Block.iack; split <;> (try split) <;> rfl
@[simp] theorem Block.iack_ws (b : Block) : (b.iack).ws = b.ws := by
  unfold Block.iack; split <;> (try split) <;> rfl
@[simp] theorem Block.iack_ien (b : Block) : (b.iack).ien = b.ien := by
  unfold Block.iack; split <;> (try split) <;> rfl
@[simp] theorem Block.iack_pend (b : Block) : (b.iack).pend = b.pend := by
  unfold Block.iack; split <;> (try split) <;> rfl
@[simp] theorem Block.iack_ovr (b : Block) : (b.iack).ovr = b.ovr := by
  unfold Block.iack; split <;> (try split) <;> rfl
@[simp] theorem Block.iack_href (b : Block) : (b.iack).href = b.href := by
  unfold Block.iack; split <;> (try split) <;> rfl
@[simp] theorem Block.iack_err (b : Block) : (b.iack).err = b.err := by
  unfold Block.iack; split <;> (try split) <;> rfl

/-- An acknowledge with no request is ignored (42_interrupt_router.md R146 (a)). -/
theorem Block.iack_of_not_irq {b : Block} (h : b.irq = false) : b.iack = b := by simp [Block.iack, h]

/-- An acknowledge of a request starts the service of the selected source (42_interrupt_router.md R146). -/
theorem Block.iack_of_irq {b : Block} {s : Source} (h : b.irq = true) (hs : b.sel = some s) :
    b.iack = b.setSvc (.ack s) := by simp [Block.iack, h, hs]

/-- What an acknowledge does to `SVC`. -/
theorem Block.iack_cases (b : Block) :
    (b.irq = false ∧ b.iack = b) ∨
    (b.irq = true ∧ ∃ s, b.sel = some s ∧ flag b.req s = true ∧ b.iack = b.setSvc (.ack s)) := by
  cases h : b.irq
  · exact .inl ⟨rfl, Block.iack_of_not_irq h⟩
  · obtain ⟨s, hs, hr⟩ := Block.sel_isSome_of_irq h
    exact .inr ⟨rfl, s, hs, hr, Block.iack_of_irq h hs⟩

/-! ### Handler return -/

@[simp] theorem Block.hret_tick (b : Block) : (b.hret).tick = b.tick := by
  unfold Block.hret; split <;> (try split) <;> simp
@[simp] theorem Block.hret_delay (b : Block) : (b.hret).delay = b.delay := by
  unfold Block.hret; split <;> (try split) <;> simp
@[simp] theorem Block.hret_target (b : Block) : (b.hret).target = b.target := by
  unfold Block.hret; split <;> (try split) <;> simp
@[simp] theorem Block.hret_ord (b : Block) : (b.hret).ord = b.ord := by
  unfold Block.hret; split <;> (try split) <;> simp
@[simp] theorem Block.hret_lock (b : Block) : (b.hret).lock = b.lock := by
  unfold Block.hret; split <;> (try split) <;> simp
@[simp] theorem Block.hret_ws (b : Block) : (b.hret).ws = b.ws := by
  unfold Block.hret; split <;> (try split) <;> simp
@[simp] theorem Block.hret_ien (b : Block) : (b.hret).ien = b.ien := by
  unfold Block.hret; split <;> (try split) <;> simp
@[simp] theorem Block.hret_pend (b : Block) : (b.hret).pend = b.pend := by
  unfold Block.hret; split <;> (try split) <;> simp
@[simp] theorem Block.hret_ovr (b : Block) : (b.hret).ovr = b.ovr := by
  unfold Block.hret; split <;> (try split) <;> simp
@[simp] theorem Block.hret_href (b : Block) : (b.hret).href = b.href := by
  unfold Block.hret; split <;> (try split) <;> simp

/-- What a handler return does (42_interrupt_router.md R150, 60_exceptions.md R204). -/
theorem Block.hret_cases (b : Block) :
    (∃ h k, b.svc = .hnd h ∧ h.next? = some k ∧ b.hret = b.setSvc (.hnd k)) ∨
    (∃ h, b.svc = .hnd h ∧ h.next? = none ∧ b.hret = b.setSvc (.clr h.source)) ∨
    ((∀ h, b.svc ≠ .hnd h) ∧ b.hret = b.recordErr .spuriousHret) := by
  unfold Block.hret
  cases hs : b.svc with
  | hnd h =>
    cases hn : h.next? with
    | some k => exact .inl ⟨h, k, rfl, hn, by simp only [hn]⟩
    | none => exact .inr (.inl ⟨h, rfl, hn, by simp only [hn]⟩)
  | idle => exact .inr (.inr ⟨nofun, rfl⟩)
  | ack _ => exact .inr (.inr ⟨nofun, rfl⟩)
  | clr _ => exact .inr (.inr ⟨nofun, rfl⟩)

/-- The next handler of a list is of the same source, one further on (42_interrupt_router.md R141). -/
theorem Handler.next?_some {h k : Handler} (hn : h.next? = some k) :
    k.source = h.source ∧ k.step = h.step + 1 := by
  cases h <;> simp [Handler.next?] at hn
  subst hn
  exact ⟨rfl, rfl⟩

/-- A handler has no next exactly at the end of its source's list (42_interrupt_router.md R141). -/
theorem Handler.next?_none (h : Handler) : h.next? = none ↔ h.step + 1 = nh h.source := by cases h <;> decide

theorem Handler.step_lt_nh (h : Handler) : h.step < nh h.source := by cases h <;> decide

@[simp] theorem firstHandler_source (s : Source) : (firstHandler s).source = s := by cases s <;> rfl
@[simp] theorem firstHandler_step (s : Source) : (firstHandler s).step = 0 := by cases s <;> rfl

/-! ### Enter and clear -/

@[simp] theorem Block.enter_delay (b : Block) (s : Source) : (b.enter s).delay = b.delay := by
  cases s <;> rfl
@[simp] theorem Block.enter_target (b : Block) (s : Source) : (b.enter s).target = b.target := by
  cases s <;> rfl
@[simp] theorem Block.enter_ord (b : Block) (s : Source) : (b.enter s).ord = b.ord := by
  cases s <;> rfl
@[simp] theorem Block.enter_lock (b : Block) (s : Source) : (b.enter s).lock = b.lock := by
  cases s <;> rfl
@[simp] theorem Block.enter_ws (b : Block) (s : Source) : (b.enter s).ws = b.ws := by
  cases s <;> rfl
@[simp] theorem Block.enter_ien (b : Block) (s : Source) : (b.enter s).ien = b.ien := by
  cases s <;> rfl
@[simp] theorem Block.enter_pend (b : Block) (s : Source) : (b.enter s).pend = b.pend := by
  cases s <;> rfl
@[simp] theorem Block.enter_ovr (b : Block) (s : Source) : (b.enter s).ovr = b.ovr := by
  cases s <;> rfl
@[simp] theorem Block.enter_href (b : Block) (s : Source) : (b.enter s).href = b.href := by
  cases s <;> rfl
@[simp] theorem Block.enter_err (b : Block) (s : Source) : (b.enter s).err = b.err := by
  cases s <;> rfl
@[simp] theorem Block.enter_svc (b : Block) (s : Source) : (b.enter s).svc = .hnd (firstHandler s) := by
  cases s <;> rfl
@[simp] theorem Block.enter_tick (b : Block) (s : Source) :
    (b.enter s).tick = if s = .tim then b.tick + 1 else b.tick := by
  cases s <;> rfl

@[simp] theorem Block.clear_tick (b : Block) (s : Source) : (b.clear s).tick = b.tick := by
  rfl
@[simp] theorem Block.clear_delay (b : Block) (s : Source) : (b.clear s).delay = b.delay := by
  rfl
@[simp] theorem Block.clear_target (b : Block) (s : Source) : (b.clear s).target = b.target := by
  rfl
@[simp] theorem Block.clear_ord (b : Block) (s : Source) : (b.clear s).ord = b.ord := by
  rfl
@[simp] theorem Block.clear_lock (b : Block) (s : Source) : (b.clear s).lock = b.lock := by
  rfl
@[simp] theorem Block.clear_ien (b : Block) (s : Source) : (b.clear s).ien = b.ien := by
  rfl
@[simp] theorem Block.clear_ovr (b : Block) (s : Source) : (b.clear s).ovr = b.ovr := by
  rfl
@[simp] theorem Block.clear_href (b : Block) (s : Source) : (b.clear s).href = b.href := by
  rfl
@[simp] theorem Block.clear_err (b : Block) (s : Source) : (b.clear s).err = b.err := by
  rfl
@[simp] theorem Block.clear_svc (b : Block) (s : Source) : (b.clear s).svc = .idle := rfl
@[simp] theorem Block.clear_pend (b : Block) (s : Source) : (b.clear s).pend = clearFlag b.pend s := rfl
@[simp] theorem Block.clear_ws (b : Block) (s : Source) : (b.clear s).ws = b.ws.afterService := rfl

theorem WaitState.afterService_eq (w : WaitState) : w.afterService = if w = .halt then .check else w := by
  cases w <;> rfl

/-! ### Event words -/

@[simp] theorem Block.events_tick (b : Block) (e : BitVec 5) : (b.events e).tick = b.tick := by
  unfold Block.events; dsimp only; repeat' split
  all_goals simp
@[simp] theorem Block.events_delay (b : Block) (e : BitVec 5) : (b.events e).delay = b.delay := by
  unfold Block.events; dsimp only; repeat' split
  all_goals simp
@[simp] theorem Block.events_target (b : Block) (e : BitVec 5) : (b.events e).target = b.target := by
  unfold Block.events; dsimp only; repeat' split
  all_goals simp
@[simp] theorem Block.events_ord (b : Block) (e : BitVec 5) : (b.events e).ord = b.ord := by
  unfold Block.events; dsimp only; repeat' split
  all_goals simp
@[simp] theorem Block.events_lock (b : Block) (e : BitVec 5) : (b.events e).lock = b.lock := by
  unfold Block.events; dsimp only; repeat' split
  all_goals simp
@[simp] theorem Block.events_ws (b : Block) (e : BitVec 5) : (b.events e).ws = b.ws := by
  unfold Block.events; dsimp only; repeat' split
  all_goals simp
@[simp] theorem Block.events_ien (b : Block) (e : BitVec 5) : (b.events e).ien = b.ien := by
  unfold Block.events; dsimp only; repeat' split
  all_goals simp
@[simp] theorem Block.events_href (b : Block) (e : BitVec 5) : (b.events e).href = b.href := by
  unfold Block.events; dsimp only; repeat' split
  all_goals simp

@[simp] theorem Block.events_zero (b : Block) : b.events 0 = b := by simp [Block.events]
theorem Block.events_tim (b : Block) : b.events 0b00001 = b.raise .tim := by simp [Block.events]
theorem Block.events_rtc (b : Block) : b.events 0b00010 = b.raise .rtc := by simp [Block.events]
theorem Block.events_ext (b : Block) : b.events 0b00100 = b.raise .ext := by simp [Block.events]
theorem Block.events_hret (b : Block) : b.events 0b01000 = b.hret := by simp [Block.events]
theorem Block.events_iack (b : Block) : b.events 0b10000 = b.iack := by simp [Block.events]

/-- An event word raises its sources, then carries its handler return, then its acknowledge
(42_interrupt_router.md R152). -/
theorem Block.events_eq (b : Block) (e : BitVec 5) :
    ∃ r : Block, (∀ q, flag r.pend q = (flag b.pend q || e.getLsbD q.index)) ∧
      (∀ q, flag r.ovr q = (flag b.ovr q || (e.getLsbD q.index && flag b.pend q))) ∧
      r.svc = b.svc ∧ r.ws = b.ws ∧ r.ien = b.ien ∧ r.err = b.err ∧
      b.events e = (let h := if e.getLsbD 3 then r.hret else r
                    if e.getLsbD 4 then h.iack else h) := by
  refine ⟨(if e.getLsbD 2 then
      (if e.getLsbD 1 then (if e.getLsbD 0 then b.raise .tim else b).raise .rtc
        else (if e.getLsbD 0 then b.raise .tim else b)).raise .ext
      else (if e.getLsbD 1 then (if e.getLsbD 0 then b.raise .tim else b).raise .rtc
        else (if e.getLsbD 0 then b.raise .tim else b))), ?_, ?_, ?_, ?_, ?_, ?_, rfl⟩ <;>
    (try (intro q; cases q <;> simp only [Source.index])) <;>
    cases e.getLsbD 0 <;> cases e.getLsbD 1 <;> cases e.getLsbD 2 <;> simp

/-! ### The wait -/

@[simp] theorem Block.arm_tick (b : Block) : (b.arm).tick = b.tick := by
  rfl
@[simp] theorem Block.arm_delay (b : Block) : (b.arm).delay = b.delay := by
  rfl
@[simp] theorem Block.arm_ord (b : Block) : (b.arm).ord = b.ord := by
  rfl
@[simp] theorem Block.arm_lock (b : Block) : (b.arm).lock = b.lock := by
  rfl
@[simp] theorem Block.arm_ien (b : Block) : (b.arm).ien = b.ien := by
  rfl
@[simp] theorem Block.arm_pend (b : Block) : (b.arm).pend = b.pend := by
  rfl
@[simp] theorem Block.arm_ovr (b : Block) : (b.arm).ovr = b.ovr := by
  rfl
@[simp] theorem Block.arm_svc (b : Block) : (b.arm).svc = b.svc := by
  rfl
@[simp] theorem Block.arm_href (b : Block) : (b.arm).href = b.href := by
  rfl
@[simp] theorem Block.arm_err (b : Block) : (b.arm).err = b.err := by
  rfl
@[simp] theorem Block.arm_target (b : Block) : b.arm.target = b.tick + b.delay := rfl
@[simp] theorem Block.arm_ws (b : Block) : b.arm.ws = .check := rfl

@[simp] theorem Block.poll_tick (b : Block) : (b.poll).tick = b.tick := by
  unfold Block.poll; split <;> rfl
@[simp] theorem Block.poll_delay (b : Block) : (b.poll).delay = b.delay := by
  unfold Block.poll; split <;> rfl
@[simp] theorem Block.poll_target (b : Block) : (b.poll).target = b.target := by
  unfold Block.poll; split <;> rfl
@[simp] theorem Block.poll_ord (b : Block) : (b.poll).ord = b.ord := by
  unfold Block.poll; split <;> rfl
@[simp] theorem Block.poll_lock (b : Block) : (b.poll).lock = b.lock := by
  unfold Block.poll; split <;> rfl
@[simp] theorem Block.poll_ien (b : Block) : (b.poll).ien = b.ien := by
  unfold Block.poll; split <;> rfl
@[simp] theorem Block.poll_pend (b : Block) : (b.poll).pend = b.pend := by
  unfold Block.poll; split <;> rfl
@[simp] theorem Block.poll_ovr (b : Block) : (b.poll).ovr = b.ovr := by
  unfold Block.poll; split <;> rfl
@[simp] theorem Block.poll_svc (b : Block) : (b.poll).svc = b.svc := by
  unfold Block.poll; split <;> rfl
@[simp] theorem Block.poll_href (b : Block) : (b.poll).href = b.href := by
  unfold Block.poll; split <;> rfl
@[simp] theorem Block.poll_err (b : Block) : (b.poll).err = b.err := by
  unfold Block.poll; split <;> rfl
theorem Block.poll_ws (b : Block) : b.poll.ws = if b.done then .idle else .halt := by
  unfold Block.poll; split <;> rfl

end Sys2Proof.Machine
end

