-- ==== Sys2Proof/Laws/Exec.lean ====
section
/-! SUPPORT. What one instruction can do to the record `S`, said once for all 39 (`Effect`, `exec_effect`), and the
small lemmas about steps and runs. -/

namespace Sys2Proof.Machine

/-- The effects of an instruction that has a next state: what it does to `S`, and in which states. -/
inductive Effect : Instr → Block → Block → Prop where
  /-- a bus transaction without effect on `S` -/
  | same {i : Instr} {b : Block} : i.isBus = true → Effect i b b
  /-- a bus transaction that raises BusError -/
  | error {i : Instr} {b : Block} (c : ErrCode) : i.isBus = true → Effect i b (b.recordErr c)
  | delay {n : Fin 4} {v : Byte} {b : Block} :
      b.ws = .idle → Effect (.wrDelay n v) b (b.setDelay (setWordByte b.delay n v))
  | ctrl {v : Byte} {b : Block} :
      b.ws = .idle → Effect (.wrCtrl v) b ((b.setOrd (v.getLsbD 0)).setLock (b.lock || v.getLsbD 1))
  | ien {v : Byte} {b : Block} :
      v.extractLsb' 0 3 = 0 ∨ b.lock = true → Effect (.wrIen v) b (b.setIen (v.extractLsb' 0 3))
  | href {j : Slot} {p : RefByte} {v : Byte} {b : Block} :
      b.lock = false → Effect (.wrHref j p v) b (b.setHref (b.href.set j (setRefByte (b.href.get j) p v)))
  | arm {b : Block} : b.svc = .idle → b.ws = .idle → Effect .cmdArm b b.arm
  | events {i : Instr} {b : Block} (e : BitVec 5) :
      i.isBus = false → i.eventBits = e →
      ((∃ e, i = .evtMulti e) ∨ i ∈ ([.evtNone, .evtRaiseTim, .evtRaiseRtc, .evtRaiseExt, .evtHret, .evtIack] : List Instr)) →
      Effect i b (b.events e)
  | enter {b : Block} (s : Source) : b.svc = .ack s → Effect .intEnter b (b.enter s)
  | clear {b : Block} (s : Source) : b.svc = .clr s → Effect .intClear b (b.clear s)
  | poll {b : Block} : b.ws = .check → Effect .intPoll b b.poll
  | reset {b : Block} : Effect .sysReset b Block.reset

theorem effect_of_write {i : Instr} {s : State} {r : Except ErrCode Block} (hb : i.isBus = true)
    (h : ∀ b, r = .ok b → Effect i s.blk b) : Effect i s.blk (s.busWrite r).blk := by
  cases r with
  | ok b => exact h b rfl
  | error c => exact .error c hb

/-- The one inversion lemma of `exec`: an instruction that answers a next state has one of the effects above. -/
theorem exec_effect {i : Instr} {s t : State} (h : exec i s = .next t) :
    Effect i s.blk t.blk ∧ t.script = s.script := by
  cases i with
  | wrDelay n v =>
    cases h
    refine ⟨effect_of_write rfl fun b hb => ?_, by simp⟩
    unfold writeDelay at hb
    split at hb
    · cases hb
    · rename_i hn; cases hb; exact .delay (not_not.mp hn)
  | wrCtrl v =>
    cases h
    refine ⟨effect_of_write rfl fun b hb => ?_, by simp⟩
    unfold writeCtrl at hb
    split at hb
    · cases hb
    · rename_i hn; cases hb; exact .ctrl (not_not.mp hn)
  | wrIen v =>
    cases h
    refine ⟨effect_of_write rfl fun b hb => ?_, by simp⟩
    unfold writeIen at hb
    split at hb
    · cases hb
    · rename_i hn
      cases hb
      refine .ien ?_
      by_cases h0 : v.extractLsb' 0 3 = 0
      · exact .inl h0
      · exact .inr (Bool.not_eq_false _ ▸ fun hl => hn ⟨h0, hl⟩)
  | wrHref j p v =>
    cases h
    refine ⟨effect_of_write rfl fun b hb => ?_, by simp⟩
    unfold writeHref at hb
    split at hb
    · cases hb
    · rename_i hn; cases hb; exact .href (Bool.eq_false_iff.mpr hn)
  | cmdArm =>
    cases h
    refine ⟨effect_of_write rfl fun b hb => ?_, by simp⟩
    unfold writeArm at hb
    split at hb
    · cases hb
    · rename_i hsvc
      split at hb
      · cases hb
      · rename_i hws
        cases hb
        exact .arm (not_not.mp hsvc) (not_not.mp hws)
  | intEnter =>
    simp only [exec, execIntEnter] at h
    split at h
    · rename_i hp; cases h; exact ⟨.enter _ hp, rfl⟩
    all_goals cases h
  | intClear =>
    simp only [exec, execIntClear] at h
    split at h
    · rename_i hp; cases h; exact ⟨.clear _ hp, rfl⟩
    all_goals cases h
  | intPoll =>
    simp only [exec, execIntPoll] at h
    split at h
    · rename_i hp; cases h; exact ⟨.poll (beq_iff_eq.mp hp), rfl⟩
    · cases h
  | sysReset => cases h; exact ⟨.reset, rfl⟩
  | illegal w => cases h
  | evtNone => cases h; exact ⟨.events 0 rfl rfl (by simp), rfl⟩
  | evtRaiseTim => cases h; exact ⟨Block.events_tim s.blk ▸ .events _ rfl rfl (by simp), rfl⟩
  | evtRaiseRtc => cases h; exact ⟨Block.events_rtc s.blk ▸ .events _ rfl rfl (by simp), rfl⟩
  | evtRaiseExt => cases h; exact ⟨Block.events_ext s.blk ▸ .events _ rfl rfl (by simp), rfl⟩
  | evtHret => cases h; exact ⟨Block.events_hret s.blk ▸ .events _ rfl rfl (by simp), rfl⟩
  | evtIack => cases h; exact ⟨Block.events_iack s.blk ▸ .events _ rfl rfl (by simp), rfl⟩
  | evtMulti e => cases h; exact ⟨.events e rfl rfl (.inl ⟨e, rfl⟩), rfl⟩
  | rdRsvd o => cases h; exact ⟨.error .rsvdAddr rfl, rfl⟩
  | wrRsvd o v => cases h; exact ⟨.error .rsvdAddr rfl, rfl⟩
  | wrTick n v => cases h; exact ⟨.error .readOnly rfl, rfl⟩
  | wrTarget n v => cases h; exact ⟨.error .readOnly rfl, rfl⟩
  | wrStatus v => cases h; exact ⟨.error .readOnly rfl, rfl⟩
  | wrPend v => cases h; exact ⟨.error .readOnly rfl, rfl⟩
  | wrOvr v => cases h; exact ⟨.error .readOnly rfl, rfl⟩
  | wrErr v => cases h; exact ⟨.error .readOnly rfl, rfl⟩
  | wrSvcr v => cases h; exact ⟨.error .readOnly rfl, rfl⟩
  | cmdBad v => cases h; exact ⟨.error .badCmd rfl, rfl⟩
  | rdTick _ | rdDelay _ | rdTarget _ | rdCtrl | rdCmd | rdStatus | rdIen | rdPend | rdOvr | rdErr | rdSvcr
  | rdHref _ _ => cases h; exact ⟨.same rfl, rfl⟩

/-- The one inversion lemma of `step`. -/
theorem step_effect {s t : State} (h : step s = .next t) :
    ∃ w, s.script = w :: t.script ∧ s.nextInstr? = some (decode w) ∧ Effect (decode w) s.blk t.blk := by
  unfold step at h
  cases hs : s.script with
  | nil => rw [hs] at h; cases h
  | cons w rest =>
    rw [hs] at h
    obtain ⟨he, hscr⟩ := exec_effect h
    refine ⟨w, by rw [hscr]; rfl, by simp [State.nextInstr?, hs], by simpa using he⟩

/-- An effect moves `TICK` by what the step advances (40_tick_counter.md R100, R102). -/
theorem Effect.tick {i : Instr} {a b : Block} (h : Effect i a b) (hr : i ≠ .sysReset) :
    b.tick = if i = .intEnter ∧ a.svc = .ack .tim then a.tick + 1 else a.tick := by
  cases h with
  | enter s hs => cases s <;> simp [hs]
  | reset => exact absurd rfl hr
  | events e hb _ hi =>
    have : i ≠ .intEnter := by rintro rfl; simp at hi
    simp [this]
  | same hb => have : i ≠ .intEnter := by rintro rfl; cases hb
               simp [this]
  | error c hb => have : i ≠ .intEnter := by rintro rfl; cases hb
                  simp [this]
  | _ => simp

/-- What an event word does to `SVC` (42_interrupt_router.md R146, R150, R152). -/
theorem Block.events_svc_cases (b : Block) (e : BitVec 5) :
    (b.events e).svc = b.svc ∨
    (e.getLsbD 3 = true ∧ ∃ h k, b.svc = .hnd h ∧ h.next? = some k ∧ (b.events e).svc = .hnd k) ∨
    (e.getLsbD 3 = true ∧ ∃ h, b.svc = .hnd h ∧ h.next? = none ∧ (b.events e).svc = .clr h.source) ∨
    (e.getLsbD 4 = true ∧ b.svc = .idle ∧ b.ws ≠ .check ∧ ∃ s, (b.events e).svc = .ack s ∧
      flag (b.events e).pend s = true ∧ flag b.ien s = true) := by
  obtain ⟨r, hp, -, hsvc, hws, hien, -, he⟩ := b.events_eq e
  rw [he]
  have iack : ∀ c : Block, c.pend = r.pend → c.ien = r.ien → c.ws = r.ws →
      c.iack.svc = c.svc ∨ (c.svc = .idle ∧ b.ws ≠ .check ∧ ∃ s, c.iack.svc = .ack s ∧
        flag c.iack.pend s = true ∧ flag b.ien s = true) := by
    intro c h1 h2 h3
    rcases c.iack_cases with ⟨-, h⟩ | ⟨hi, s, -, hs, h⟩
    · exact .inl (by rw [h])
    · obtain ⟨hc, hw, -⟩ := c.irq_iff.mp hi
      rw [Block.flag_req, Bool.and_eq_true] at hs
      exact .inr ⟨hc, by rw [← hws, ← h3]; exact hw, s, by rw [h]; rfl, by simp [hs.1], by rw [← hien, ← h2]; exact hs.2⟩
  cases h3 : e.getLsbD 3 <;> cases h4 : e.getLsbD 4 <;> simp only [Bool.false_eq_true, if_true, if_false]
  · exact .inl hsvc
  · rcases iack r rfl rfl rfl with h | ⟨h1, h2, h3⟩
    · exact .inl (h.trans hsvc)
    · exact .inr (.inr (.inr ⟨trivial, hsvc ▸ h1, h2, h3⟩))
  · rcases r.hret_cases with ⟨h, k, h1, h2, h3⟩ | ⟨h, h1, h2, h3⟩ | ⟨-, h3⟩
    · exact .inr (.inl ⟨trivial, h, k, hsvc ▸ h1, h2, by rw [h3]; rfl⟩)
    · exact .inr (.inr (.inl ⟨trivial, h, hsvc ▸ h1, h2, by rw [h3]; rfl⟩))
    · exact .inl (by rw [h3]; simp [hsvc])
  · rcases r.hret_cases with ⟨h, k, h1, h2, h3⟩ | ⟨h, h1, h2, h3⟩ | ⟨h0, h3⟩
    · rcases iack r.hret (by simp) (by simp) (by simp) with hh | ⟨hh, -⟩
      · exact .inr (.inl ⟨trivial, h, k, hsvc ▸ h1, h2, by rw [hh, h3]; rfl⟩)
      · rw [h3] at hh; cases hh
    · rcases iack r.hret (by simp) (by simp) (by simp) with hh | ⟨hh, -⟩
      · exact .inr (.inr (.inl ⟨trivial, h, hsvc ▸ h1, h2, by rw [hh, h3]; rfl⟩))
      · rw [h3] at hh; cases hh
    · rcases iack r.hret (by simp) (by simp) (by simp) with hh | ⟨hh, h4, h5⟩
      · exact .inl (by rw [hh, h3]; simp [hsvc])
      · rw [h3] at hh
        exact .inr (.inr (.inr ⟨trivial, by simpa [hsvc] using hh, h4, h5⟩))

/-- What an event word does to the pending flags: it sets those it raises (42_interrupt_router.md R143, R152). -/
theorem Block.flag_events_pend (b : Block) (e : BitVec 5) (q : Source) :
    flag (b.events e).pend q = (flag b.pend q || e.getLsbD q.index) := by
  obtain ⟨r, hp, -, -, -, -, -, he⟩ := b.events_eq e
  rw [he, ← hp q]
  cases e.getLsbD 3 <;> cases e.getLsbD 4 <;> simp

/-- What an event word does to the overrun records (42_interrupt_router.md R143, R152). -/
theorem Block.flag_events_ovr (b : Block) (e : BitVec 5) (q : Source) :
    flag (b.events e).ovr q = (flag b.ovr q || (e.getLsbD q.index && flag b.pend q)) := by
  obtain ⟨r, -, ho, -, -, -, -, he⟩ := b.events_eq e
  rw [he, ← ho q]
  cases e.getLsbD 3 <;> cases e.getLsbD 4 <;> simp

/-- What an event word does to `ERR`: a handler return with no handler running records code 8
(60_exceptions.md R204). -/
theorem Block.events_err_eq (b : Block) (e : BitVec 5) :
    (b.events e).err = if e.getLsbD 3 = true ∧ b.handler? = none ∧ b.err = 0 then 8 else b.err := by
  obtain ⟨r, -, -, hsvc, -, -, herr, he⟩ := b.events_eq e
  rw [he]
  have hh : b.handler? = r.handler? := by simp [Block.handler?, hsvc]
  have hret : r.hret.err = if r.handler? = none ∧ r.err = 0 then 8 else r.err := by
    unfold Block.hret Block.handler?
    cases r.svc with
    | hnd h => cases hn : h.next? <;> simp only [hn] <;> simp
    | _ => simp [Block.recordErr_err, ErrCode.code]
  rw [hh, ← herr]
  cases h3 : e.getLsbD 3 <;> cases e.getLsbD 4 <;> simp [hret]

/-- Recording a cause code, as claims write it (60_exceptions.md R200 (3)). -/
theorem Block.recordErr_eq (b : Block) (c : ErrCode) : b.recordErr c = b.withFirstError c.code := by
  unfold Block.recordErr Block.withFirstError Block.setErr
  split <;> rfl

/-- The loop condition, as claims write it (41_deadline_wait.md R127). -/
theorem Block.done_iff (b : Block) : b.done = true ↔ b.waitOver := by
  unfold Block.done Block.waitOver Block.deadlinePassed
  cases b.ord <;> simp [Block.reached_iff, Block.matches_iff]

/-! ### Steps and runs of a given length -/

/-- A step carries out the first word of the script. -/
theorem step_of_script {s : State} {w : StepWord} {rest : List StepWord} (h : s.script = w :: rest) :
    step s = exec (decode w) (s.setScript rest) := by
  unfold step; rw [h]

theorem runsTo_zero (s : State) : runsTo 0 s s := rfl

/-- `k + 1` steps of any machine are a step and `k` steps. -/
theorem run_succ (M : Host.Core) {k : Nat} {s t : M.State} :
    M.run (k + 1) s = .next t ↔ ∃ u, M.step s = .next u ∧ M.run k u = .next t := by
  simp only [Host.Core.run]
  cases M.step s <;> simp

/-- A run of `k + 1` steps is a step and a run of `k`. -/
theorem runsTo_succ {k : Nat} {s t : State} : runsTo (k + 1) s t ↔ ∃ u, step s = .next u ∧ runsTo k u t :=
  run_succ Sys2Proof.core

/-- A run grows by one step at its end. -/
theorem runsTo_snoc {k : Nat} {s t u : State} (h : runsTo k s t) (h' : step t = .next u) : runsTo (k + 1) s u := by
  induction k generalizing s with
  | zero => cases h; exact runsTo_succ.mpr ⟨u, h', rfl⟩
  | succ k ih =>
    obtain ⟨v, hv, hr⟩ := runsTo_succ.mp h
    exact runsTo_succ.mpr ⟨v, hv, ih hr⟩

/-! ### The readers that reread (30_encoding.md R91, 40_tick_counter.md R107) -/

@[simp] theorem Rereader.next?_reading (o : ReadOrder) (got : List Byte) :
    (reading got).next? o = o.turn[got.length]? := rfl
@[simp] theorem Rereader.next?_accepted (o : ReadOrder) (v : Word) : (accepted v).next? o = none := rfl
@[simp] theorem Rereader.stepsDone_reading (got : List Byte) : (reading got).stepsDone = got.length := rfl
@[simp] theorem Rereader.stepsDone_accepted (v : Word) : (accepted v).stepsDone = 8 := rfl
@[simp] theorem Rereader.take_accepted (o : ReadOrder) (v : Word) (d : Byte) :
    (accepted v).take o d = accepted v := rfl
@[simp] theorem Rereader.betweenLowReads_accepted (o : ReadOrder) (v : Word) :
    (accepted v).betweenLowReads o = false := by cases o <;> rfl

@[simp] theorem Rereader.betweenLowReads_iff (o : ReadOrder) (r : Rereader) :
    r.betweenLowReads o = true ↔ o.lowStep ≤ r.stepsDone ∧ r.stepsDone < o.lowStep + 4 := decide_eq_true_iff

@[simp] theorem LowReads.afterOther_first (x : LowReads) (o : ReadOrder) (r : Rereader) (n : Nat) :
    (x.afterOther o r n).first = x.first := rfl
@[simp] theorem LowReads.afterOther_second (x : LowReads) (o : ReadOrder) (r : Rereader) (n : Nat) :
    (x.afterOther o r n).second = x.second := rfl
@[simp] theorem LowReads.afterOther_advances (x : LowReads) (o : ReadOrder) (r : Rereader) (n : Nat) :
    (x.afterOther o r n).advances = if r.betweenLowReads o then x.advances + n else x.advances := rfl

/-- The first read of byte 0 starts the record anew. -/
theorem LowReads.afterRead_first {o : ReadOrder} {r : Rereader} (h : r.stepsDone + 1 = o.lowStep) (x : LowReads)
    (v : Word) : x.afterRead o r v = ⟨v, v, 0⟩ := if_pos h

/-- The second read of byte 0 records `TICK`. -/
theorem LowReads.afterRead_second {o : ReadOrder} {r : Rereader} (h : r.stepsDone + 1 = o.lowStep + 4) (x : LowReads)
    (v : Word) : x.afterRead o r v = ⟨x.first, v, x.advances⟩ :=
  (if_neg (by omega)).trans (if_pos h)

/-- A read of another byte leaves the record. -/
theorem LowReads.afterRead_of_ne {o : ReadOrder} {r : Rereader} (h1 : r.stepsDone + 1 ≠ o.lowStep)
    (h2 : r.stepsDone + 1 ≠ o.lowStep + 4) (x : LowReads) (v : Word) : x.afterRead o r v = x :=
  (if_neg h1).trans (if_neg h2)

/-- The step a reader issues is a read of `TICK`, of byte 0 at `lowStep` and four steps later only. -/
theorem Rereader.next?_eq_some {o : ReadOrder} {r : Rereader} {i : Instr} (h : r.next? o = some i) :
    ∃ k : Fin 4, i = .rdTick k ∧ r.stepsDone < 8 ∧
      (k = 0 ↔ r.stepsDone + 1 = o.lowStep ∨ r.stepsDone + 1 = o.lowStep + 4) := by
  cases r with
  | accepted v => cases h
  | reading got =>
    obtain ⟨hlt, hi⟩ := List.getElem?_eq_some_iff.mp h
    have hlen : o.turn.length = 8 := by cases o <;> rfl
    rw [hlen] at hlt
    simp only [stepsDone_reading]
    generalize got.length = n at *
    subst hi
    have all : ∀ (o : ReadOrder) (m : Fin 8), ∃ k : Fin 4, o.turn[m.val]? = some (.rdTick k) ∧
        (k = 0 ↔ m.val + 1 = o.lowStep ∨ m.val + 1 = o.lowStep + 4) := by
      intro o; cases o <;> decide
    obtain ⟨k, hk, h0⟩ := all o ⟨n, hlt⟩
    exact ⟨k, (List.getElem?_eq_some_iff.mp hk).2, hlt, h0⟩

/-- Up to its seventh read a turn keeps the byte. -/
theorem Rereader.take_reading {got : List Byte} (h : got.length ≠ 7) (o : ReadOrder) (d : Byte) :
    (reading got).take o d = reading (got ++ [d]) := by
  unfold Rereader.take
  split
  · rename_i hg; cases hg; exact absurd rfl h
  · rename_i hg; cases hg; rfl
  · rename_i hg; cases hg

/-- The eighth read ends the turn: the value is accepted if `a == b`, else the reader starts again. -/
theorem Rereader.take_eighth (o : ReadOrder) (a1 a2 a3 a4 b1 b2 b3 b4 : Byte) :
    (reading [a1, a2, a3, a4, b1, b2, b3]).take o b4 =
      if o.value a1 a2 a3 a4 = o.value b1 b2 b3 b4 then accepted (o.value a1 a2 a3 a4) else start := rfl

/-- A reader that has not accepted accepts at the eighth read of a turn, and with `a == b`, only. -/
theorem Rereader.take_eq_accepted {o : ReadOrder} {got : List Byte} {d : Byte} {v : Word}
    (h : (reading got).take o d = accepted v) :
    ∃ a1 a2 a3 a4 b1 b2 b3, got = [a1, a2, a3, a4, b1, b2, b3] ∧ o.value a1 a2 a3 a4 = v ∧ o.value b1 b2 b3 d = v := by
  unfold Rereader.take at h
  split at h
  · rename_i a1 a2 a3 a4 b1 b2 b3 hg
    split at h
    · rename_i he
      cases hg; cases h
      exact ⟨a1, a2, a3, a4, b1, b2, b3, rfl, rfl, he.symm⟩
    · cases h
  · cases h
  · rename_i hg; cases hg

/-- The four bytes of a data register assemble to it (20_memory.md R62). -/
theorem assemble_wordByte (x : Word) : assemble (wordByte x 3) (wordByte x 2) (wordByte x 1) (wordByte x 0) = x := by
  apply BitVec.eq_of_toNat_eq
  simp only [assemble, wordByte, BitVec.toNat_append, BitVec.extractLsb'_toNat, Nat.shiftRight_eq_div_pow]
  rw [← Nat.shiftLeft_add_eq_or_of_lt (by omega), ← Nat.shiftLeft_add_eq_or_of_lt (by omega),
    ← Nat.shiftLeft_add_eq_or_of_lt (by omega)]
  simp [Nat.shiftLeft_eq]
  omega

/-- The low byte of an assembled value is the byte read at offset 0. -/
theorem wordByte_assemble_zero (b3 b2 b1 b0 : Byte) : wordByte (assemble b3 b2 b1 b0) 0 = b0 := by
  apply BitVec.eq_of_toNat_eq
  simp only [assemble, wordByte, BitVec.toNat_append, BitVec.extractLsb'_toNat, Nat.shiftRight_eq_div_pow]
  rw [← Nat.shiftLeft_add_eq_or_of_lt (by omega), ← Nat.shiftLeft_add_eq_or_of_lt (by omega),
    ← Nat.shiftLeft_add_eq_or_of_lt (by omega)]
  simp [Nat.shiftLeft_eq]
  omega

end Sys2Proof.Machine
end

