-- ==== Sys2Proof/Laws/PerInstr.lean ====
section
/-! SUPPORT. One lemma per instruction: its canonical word is covered by a row of the operation map whose operation
gives the instruction back (30_encoding.md R93). -/

namespace Sys2Proof.Laws.InRow

/-- Some row of the operation map covers the canonical word of `i`, and reads `i` from it. -/
def Statement (i : Instr) : Prop :=
  ∃ (k : Nat) (r : OpRow), opcodeRows[k]? = some r ∧ r.covers (encode i) = true ∧ r.op (encode i) = i

/-- A bus instruction is in row `k` when the row admits its high byte, masks nothing of `DATA`, and reads it back. -/
theorem of_bus {i : Instr} {we : Bool} {addr : BitVec 5} {d : Byte} (k : Nat) (r : OpRow)
    (he : encode i = busWord we addr d) (hk : opcodeRows[k]? = some r)
    (hc : r.coversHi (0b00#2 ++ BitVec.ofBool we ++ addr) = true)
    (hl : r.mask.extractLsb' 0 8 = 0 ∧ r.mtch.extractLsb' 0 8 = 0)
    (ho : r.op (busWord we addr d) = i) : Statement i := by
  refine ⟨k, r, hk, ?_, ?_⟩
  · rw [he, busWord_eq, OpRow.covers_append, hc]
    simp [OpRow.coversLo, hl.1, hl.2]
  · rw [he]
    exact ho

theorem rdTick (n : Fin 4) : Statement (.rdTick n) :=
  of_bus 0 _ rfl rfl (by revert n; decide) (by decide) (by simp)
theorem rdDelay (n : Fin 4) : Statement (.rdDelay n) :=
  of_bus 1 _ rfl rfl (by revert n; decide) (by decide) (by simp)
theorem rdTarget (n : Fin 4) : Statement (.rdTarget n) :=
  of_bus 2 _ rfl rfl (by revert n; decide) (by decide) (by simp)
theorem rdCtrl : Statement (.rdCtrl) :=
  of_bus 3 _ rfl rfl (by decide) (by decide) (rfl)
theorem rdCmd : Statement (.rdCmd) :=
  of_bus 4 _ rfl rfl (by decide) (by decide) (rfl)
theorem rdStatus : Statement (.rdStatus) :=
  of_bus 5 _ rfl rfl (by decide) (by decide) (rfl)
theorem rdIen : Statement (.rdIen) :=
  of_bus 6 _ rfl rfl (by decide) (by decide) (rfl)
theorem rdPend : Statement (.rdPend) :=
  of_bus 7 _ rfl rfl (by decide) (by decide) (rfl)
theorem rdOvr : Statement (.rdOvr) :=
  of_bus 8 _ rfl rfl (by decide) (by decide) (rfl)
theorem rdErr : Statement (.rdErr) :=
  of_bus 9 _ rfl rfl (by decide) (by decide) (rfl)
theorem rdSvcr : Statement (.rdSvcr) :=
  of_bus 10 _ rfl rfl (by decide) (by decide) (rfl)
theorem rdRsvd (n : Fin 4) : Statement (.rdRsvd n) :=
  of_bus 11 _ rfl rfl (by revert n; decide) (by decide) (by simp)
theorem rdHref (j : Slot) (b : RefByte) : Statement (.rdHref j b) :=
  of_bus 12 _ rfl rfl (by cases j <;> cases b <;> decide) (by decide) (by simp)
theorem wrTick (n : Fin 4) (v : Byte) : Statement (.wrTick n v) :=
  of_bus 13 _ rfl rfl (by revert n; decide) (by decide) (by simp)
theorem wrDelay (n : Fin 4) (v : Byte) : Statement (.wrDelay n v) :=
  of_bus 14 _ rfl rfl (by revert n; decide) (by decide) (by simp)
theorem wrTarget (n : Fin 4) (v : Byte) : Statement (.wrTarget n v) :=
  of_bus 15 _ rfl rfl (by revert n; decide) (by decide) (by simp)
theorem wrCtrl (v : Byte) : Statement (.wrCtrl v) :=
  of_bus 16 _ rfl rfl (by decide) (by decide) (by simp)
theorem cmdArm : Statement .cmdArm := ⟨17, _, rfl, by decide, by decide⟩
theorem cmdBad (v : Byte) : Statement (.cmdBad v) :=
  of_bus 18 _ rfl rfl (by decide) (by decide) (by simp)
theorem wrStatus (v : Byte) : Statement (.wrStatus v) :=
  of_bus 19 _ rfl rfl (by decide) (by decide) (by simp)
theorem wrIen (v : Byte) : Statement (.wrIen v) :=
  of_bus 20 _ rfl rfl (by decide) (by decide) (by simp)
theorem wrPend (v : Byte) : Statement (.wrPend v) :=
  of_bus 21 _ rfl rfl (by decide) (by decide) (by simp)
theorem wrOvr (v : Byte) : Statement (.wrOvr v) :=
  of_bus 22 _ rfl rfl (by decide) (by decide) (by simp)
theorem wrErr (v : Byte) : Statement (.wrErr v) :=
  of_bus 23 _ rfl rfl (by decide) (by decide) (by simp)
theorem wrSvcr (v : Byte) : Statement (.wrSvcr v) :=
  of_bus 24 _ rfl rfl (by decide) (by decide) (by simp)
theorem wrRsvd (n : Fin 4) (v : Byte) : Statement (.wrRsvd n v) :=
  of_bus 25 _ rfl rfl (by revert n; decide) (by decide) (by simp)
theorem wrHref (j : Slot) (b : RefByte) (v : Byte) : Statement (.wrHref j b v) :=
  of_bus 26 _ rfl rfl (by cases j <;> cases b <;> decide) (by decide) (by simp)
theorem evtNone : Statement .evtNone := ⟨27, _, rfl, by decide, by decide⟩
theorem evtRaiseTim : Statement .evtRaiseTim := ⟨28, _, rfl, by decide, by decide⟩
theorem evtRaiseRtc : Statement .evtRaiseRtc := ⟨29, _, rfl, by decide, by decide⟩
theorem evtRaiseExt : Statement .evtRaiseExt := ⟨30, _, rfl, by decide, by decide⟩
theorem evtHret : Statement .evtHret := ⟨31, _, rfl, by decide, by decide⟩
theorem evtIack : Statement .evtIack := ⟨32, _, rfl, by decide, by decide⟩
theorem evtMulti (e : BitVec 5) : Statement (.evtMulti e) :=
  ⟨33, _, rfl, by revert e; decide, by simp [encode]⟩
theorem intEnter : Statement .intEnter := ⟨34, _, rfl, by decide, by decide⟩
theorem intClear : Statement .intClear := ⟨35, _, rfl, by decide, by decide⟩
theorem intPoll : Statement .intPoll := ⟨36, _, rfl, by decide, by decide⟩
theorem sysReset : Statement .sysReset := ⟨37, _, rfl, by decide, by decide⟩
theorem illegal (w : StepWord) : Statement (.illegal w) :=
  ⟨38, _, rfl, by simp [OpRow.covers], rfl⟩

end Sys2Proof.Laws.InRow
end

