-- ==== Sys2Proof/Tests/Slice0.lean ====
section
/-! SUPPORT. The model's own tests: well-formedness checks, words decoded by hand, one step per operation, and for
every statement with hypotheses a named witness that meets them. Expected values come from spec/95_test_vectors.md,
whose vector or program step is named at each test, or are worked out by hand from the rule named. -/

namespace Sys2Proof.Tests

open Sys2Proof Sys2Proof.Machine

/-! ### Helpers -/

/-- The booted state `B(t)` of 95_test_vectors.md. -/
def booted (t : Word) : Block :=
  { Block.reset with tick := t, lock := true, ien := 0b111, href := ⟨0x1000, 0x2000, 0x3000, 0x4000⟩ }

/-- A state with this block and this script. -/
def at' (b : Block) (l : List StepWord) : State := ⟨b, .none, l⟩

/-- The state an outcome leads to; the given state when it stops. -/
def after (s : State) : Host.Outcome State Fault Refusal → State
  | .next t => t
  | .fault _ | .refused _ => s

/-- The block after one instruction, and whether `bus_err` was asserted; none when the instruction stops. -/
def blkAfter (i : Instr) (b : Block) : Option (Block × Bool) :=
  match exec i (at' b []) with
  | .next t => some (t.blk, t.busErr)
  | .fault _ | .refused _ => none

/-- The byte a bus read returns, and whether `bus_err` was asserted. -/
def readAfter (i : Instr) (b : Block) : Option (Byte × Bool) :=
  match exec i (at' b []) with
  | .next t => t.busRdata.map fun d => (d, t.busErr)
  | .fault _ | .refused _ => none

/-- The reason an instruction or a step is refused. -/
def refusal : Host.Outcome State Fault Refusal → Option Refusal
  | .refused r => some r
  | .next _ | .fault _ => none

/-- `k` steps, each from a state that meets `p`, with the count of their advances. -/
def follow (p : State → Bool) : Nat → State → Option (Nat × State)
  | 0, s => some (0, s)
  | k + 1, s =>
    match follow p k s with
    | some (n, t) =>
      if p t then
        match step t with
        | .next u => some (n + t.advancesNext, u)
        | .fault _ | .refused _ => none
      else none
    | none => none

/-- What `follow` computes is a run. -/
theorem runWhile_of_follow {P : State → Prop} {p : State → Bool} (hp : ∀ u, p u = true → P u) :
    ∀ (k : Nat) (s : State) (n : Nat) (t : State), follow p k s = some (n, t) → RunWhile P s n t := by
  intro k
  induction k with
  | zero =>
    intro s n t h
    simp only [follow, Option.some.injEq, Prod.mk.injEq] at h
    obtain ⟨rfl, rfl⟩ := h
    exact .start s
  | succ k ih =>
    intro s n t h
    simp only [follow] at h
    split at h
    · rename_i m u hu
      split at h
      · rename_i hpu
        split at h
        · rename_i v hv
          simp only [Option.some.injEq, Prod.mk.injEq] at h
          obtain ⟨rfl, rfl⟩ := h
          exact .step (ih s m u hu) (hp u hpu) hv
        · cases h
        · cases h
      · cases h
    · cases h

/-- The count and the last state of a run that `follow` can take. -/
def runEnd (p : State → Bool) (k : Nat) (s : State) : Nat × State := (follow p k s).getD (0, s)

theorem runWhile_runEnd {P : State → Prop} {p : State → Bool} (hp : ∀ u, p u = true → P u) (k : Nat) (s : State)
    (h : (follow p k s).isSome = true) : RunWhile P s (runEnd p k s).1 (runEnd p k s).2 := by
  obtain ⟨r, hr⟩ := Option.isSome_iff_exists.mp h
  refine runWhile_of_follow hp k s _ _ ?_
  simp [runEnd, hr]

/-- The next step is no reset, as a test. -/
def noReset (s : State) : Bool := s.nextInstr? != some .sysReset

theorem noReset_ok (s : State) (h : noReset s = true) : ¬s.resetNext := by
  simpa [noReset, State.resetNext] using h

/-- A run in which a reader rereads in order `o`: `true` marks the steps that are the reader's own reads. -/
def followReader (o : ReadOrder) : List Bool → State → Option (Rereader × LowReads × State)
  | [], s => some (.start, ⟨s.blk.tick, s.blk.tick, 0⟩, s)
  | own :: l, s =>
    match followReader o l s with
    | some (r, x, t) =>
      if noReset t then
        match step t with
        | .next u =>
          if own then
            match u.busRdata with
            | some d =>
              if (r.next? o).isSome && r.next? o == t.nextInstr? then some (r.take o d, x.afterRead o r t.blk.tick, u)
              else none
            | none => none
          else some (r, x.afterOther o r t.advancesNext, u)
        | .fault _ | .refused _ => none
      else none
    | none => none

/-- What `followReader` computes (the last step first in the list) is a run with a reader. -/
theorem rereadRun_of_follow (o : ReadOrder) : ∀ (l : List Bool) (s : State) (r : Rereader) (x : LowReads) (t : State),
    followReader o l s = some (r, x, t) → RereadRun o s r x t := by
  intro l
  induction l with
  | nil =>
    intro s r x t h
    simp only [followReader, Option.some.injEq, Prod.mk.injEq] at h
    obtain ⟨rfl, rfl, rfl⟩ := h
    exact .start s
  | cons own l ih =>
    intro s r x t h
    simp only [followReader] at h
    split at h
    · rename_i r' x' t' hf
      split at h
      · rename_i hnr
        split at h
        · rename_i u hu
          split at h
          · split at h
            · rename_i d hd
              split at h
              · rename_i hn
                simp only [Option.some.injEq, Prod.mk.injEq] at h
                obtain ⟨rfl, rfl, rfl⟩ := h
                rw [Bool.and_eq_true, beq_iff_eq] at hn
                obtain ⟨i, hi⟩ := Option.isSome_iff_exists.mp hn.1
                exact .read (ih s r' x' t' hf) hi (hn.2 ▸ hi) hu hd
              · cases h
            · cases h
          · simp only [Option.some.injEq, Prod.mk.injEq] at h
            obtain ⟨rfl, rfl, rfl⟩ := h
            exact .other (ih s r' x' t' hf) (noReset_ok t' hnr) hu
        · cases h
        · cases h
      · cases h
    · cases h

/-! ### Well-formedness: each check with terms it refuses and terms it admits -/

/-- `CMD.BAD` refuses the code of `CMD.ARM` (30_encoding.md R87). -/
theorem test_wf_refuses_cmdBad_arm : (Instr.cmdBad 0x01).wf = false := by decide
/-- `EVT.MULTI` refuses the six words with fewer than two events (42_interrupt_router.md R152). -/
theorem test_wf_refuses_evtMulti_single :
    ([0b00000, 0b00001, 0b00010, 0b00100, 0b01000, 0b10000] : List (BitVec 5)).all
      (fun e => !(Instr.evtMulti e).wf) = true := by decide
/-- `ILLEGAL` refuses a word of each class that spells a step (30_encoding.md R85). -/
theorem test_wf_refuses_legal_words :
    ([0x0000, 0x27FF, 0x2D01, 0x401F, 0x8002, 0xC000] : List StepWord).all (fun w => !(Instr.illegal w).wf) = true := by
  decide
theorem test_wf_admits : (Instr.cmdBad 0x00).wf = true ∧ (Instr.cmdBad 0x02).wf = true ∧ (Instr.cmdBad 0xFF).wf = true ∧
    (Instr.evtMulti 0b00011).wf = true ∧ (Instr.evtMulti 0b11111).wf = true ∧
    (Instr.illegal 0x4020).wf = true ∧ (Instr.illegal 0x8003).wf = true ∧ (Instr.illegal 0xC001).wf = true ∧
    (Instr.rdTick 3).wf = true := by decide

/-! ### Decoding: words written from the map, 95_test_vectors.md 2.5 -/

theorem test_decode_reads : decode 0x0000 = .rdTick 0 ∧ decode 0x00FF = .rdTick 0 ∧ decode 0x0300 = .rdTick 3 ∧
    decode 0x0400 = .rdDelay 0 ∧ decode 0x0B00 = .rdTarget 3 ∧ decode 0x0C00 = .rdCtrl ∧ decode 0x0D00 = .rdCmd ∧
    decode 0x0E00 = .rdStatus ∧ decode 0x0F00 = .rdIen ∧ decode 0x1000 = .rdPend ∧ decode 0x1100 = .rdOvr ∧
    decode 0x1200 = .rdErr ∧ decode 0x1300 = .rdSvcr ∧ decode 0x1400 = .rdRsvd 0 ∧ decode 0x1700 = .rdRsvd 3 ∧
    decode 0x1800 = .rdHref .systick .low ∧ decode 0x1F00 = .rdHref .ptick .high := by decide

theorem test_decode_writes : decode 0x2000 = .wrTick 0 0x00 ∧ decode 0x2402 = .wrDelay 0 0x02 ∧
    decode 0x27FF = .wrDelay 3 0xFF ∧ decode 0x2800 = .wrTarget 0 0x00 ∧ decode 0x2C03 = .wrCtrl 0x03 ∧
    decode 0x2D01 = .cmdArm ∧ decode 0x2D00 = .cmdBad 0x00 ∧ decode 0x2D02 = .cmdBad 0x02 ∧
    decode 0x2DFF = .cmdBad 0xFF ∧ decode 0x2E00 = .wrStatus 0x00 ∧ decode 0x2F07 = .wrIen 0x07 ∧
    decode 0x3001 = .wrPend 0x01 ∧ decode 0x3100 = .wrOvr 0x00 ∧ decode 0x3200 = .wrErr 0x00 ∧
    decode 0x3300 = .wrSvcr 0x00 ∧ decode 0x3400 = .wrRsvd 0 0x00 ∧ decode 0x37AA = .wrRsvd 3 0xAA ∧
    decode 0x3834 = .wrHref .systick .low 0x34 ∧ decode 0x3912 = .wrHref .systick .high 0x12 ∧
    decode 0x3F40 = .wrHref .ptick .high 0x40 := by decide

theorem test_decode_events : decode 0x4000 = .evtNone ∧ decode 0x4001 = .evtRaiseTim ∧ decode 0x4002 = .evtRaiseRtc ∧
    decode 0x4004 = .evtRaiseExt ∧ decode 0x4008 = .evtHret ∧ decode 0x4010 = .evtIack ∧
    decode 0x4003 = .evtMulti 0b00011 ∧ decode 0x4011 = .evtMulti 0b10001 ∧ decode 0x4018 = .evtMulti 0b11000 ∧
    decode 0x401F = .evtMulti 0b11111 := by decide

theorem test_decode_internal_and_reset : decode 0x8000 = .intEnter ∧ decode 0x8001 = .intClear ∧
    decode 0x8002 = .intPoll ∧ decode 0xC000 = .sysReset := by decide

theorem test_decode_illegal :
    ([0x4020, 0x4100, 0x6000, 0x7FFF, 0x8003, 0x8004, 0xA000, 0xC001, 0xFFFF] : List StepWord).all
      (fun w => decode w == .illegal w) = true := by decide

/-- The host's two entry points number the bits as `Sw[15:0]`. -/
theorem test_decodeTableWord : decodeTableWord 16 0x2D01 = some .cmdArm ∧ decodeTableWord 16 0x8002 = some .intPoll ∧
    decodeTableWord 24 0x8002 = none := by decide
theorem test_withFetchWord : (State.reset.withFetchWord 16 0x4001).nextInstr? = some .evtRaiseTim ∧
    ((after State.reset (step (State.reset.withFetchWord 16 0x4001))).blk.pend = 0b001) := by decide

/-! ### Tick counter: T1, T2 -/

theorem test_rdTick : (List.finRange 4).map (fun n => readAfter (.rdTick n) (booted 0x12345678)) =
    [some (0x78, false), some (0x56, false), some (0x34, false), some (0x12, false)] := by decide
theorem test_wrTick : blkAfter (.wrTick 0 0x55) Block.reset = some ({ Block.reset with err := 2 }, true) := by decide

/-! ### Deadline unit: W1 to W18 -/

theorem test_wrDelay : blkAfter (.wrDelay 1 0x01) (booted 0) = some ({ booted 0 with delay := 0x00000100 }, false) := by
  decide
theorem test_wrDelay_keeps_other_bytes : (blkAfter (.wrDelay 2 0xAB) { booted 0 with delay := 0x12345678 }).map
    (fun r => r.1.delay) = some 0x12AB5678 := by decide
theorem test_rdDelay : readAfter (.rdDelay 1) { booted 0 with delay := 0x00000100 } = some (0x01, false) := by decide
theorem test_rdTarget : readAfter (.rdTarget 3) { booted 0 with target := 0x80000005 } = some (0x80, false) := by decide
theorem test_wrTarget : blkAfter (.wrTarget 0 0x10) (booted 0) = some ({ booted 0 with err := 2 }, true) := by decide
theorem test_cmdArm_wraps : blkAfter .cmdArm { booted 0xFFFFFFFF with delay := 2 } =
    some ({ booted 0xFFFFFFFF with delay := 2, target := 0x00000001, ws := .check }, false) := by decide
theorem test_cmdArm_in_service_first : blkAfter .cmdArm { booted 0 with svc := .hnd .rtc0, pend := 0b010, ws := .halt, target := 9 } =
    some ({ booted 0 with svc := .hnd .rtc0, pend := 0b010, ws := .halt, target := 9, err := 4 }, true) := by decide
theorem test_cmdBad : blkAfter (.cmdBad 0x00) (booted 0) = some ({ booted 0 with err := 3 }, true) := by decide
theorem test_rdCmd : readAfter .rdCmd (booted 0) = some (0x00, false) := by decide
theorem test_poll_halts : (blkAfter .intPoll { booted 0 with ws := .check, target := 1 }).map
    (fun r => (r.1.ws, r.1.lpReq, r.1.statusByte)) = some (.halt, true, 0x03) := by decide
/-- W11 and W12: equality mode does not see a deadline that is past, ordered mode does. -/
theorem test_poll_past_deadline :
    (blkAfter .intPoll { booted 2 with ws := .check, target := 1 }).map (fun r => r.1.ws) = some .halt ∧
    (blkAfter .intPoll { booted 2 with ws := .check, target := 1, ord := true }).map (fun r => r.1.ws) = some .idle := by
  decide

/-- The comparator table of 95_test_vectors.md 2.2: `TICK`, `TARGET`, `match`, `reached`. -/
theorem test_comparator : ([(0x00000000, 0x00000000, true, true), (0x00000001, 0x00000000, false, true),
    (0x00000000, 0x00000001, false, false), (0x7FFFFFFF, 0x00000000, false, true),
    (0x80000000, 0x00000000, false, false), (0x00000001, 0xFFFFFFFF, false, true),
    (0xFFFFFFFF, 0x00000001, false, false), (0x00000005, 0x80000005, false, false),
    (0x00000005, 0x80000006, false, true)] : List (Word × Word × Bool × Bool)).all
    (fun r => ({ booted r.1 with target := r.2.1 }.matches, { booted r.1 with target := r.2.1 }.reached) == r.2.2) =
    true := by decide

/-! ### Control, status and table registers: K1 to K14 -/

theorem test_rdCtrl : readAfter .rdCtrl { Block.reset with lock := true } = some (0x02, false) := by decide
/-- K2: reserved bits of `CTRL` are not written. -/
theorem test_wrCtrl : blkAfter (.wrCtrl 0xFF) Block.reset = some ({ Block.reset with ord := true, lock := true }, false) := by
  decide
/-- K3: `LOCK` cannot be cleared. -/
theorem test_wrCtrl_keeps_lock : (blkAfter (.wrCtrl 0x00) { Block.reset with lock := true, ord := true }).map
    (fun r => (r.1.ord, r.1.lock)) = some (false, true) := by decide
/-- K12: in the TIM handler during a wait. -/
theorem test_rdStatus : readAfter .rdStatus { booted 3 with target := 5, ws := .halt, svc := .hnd .tim0, pend := 0b001 } =
    some (0x33, false) := by decide
/-- K13 and K14. -/
theorem test_rdStatus_match_and_disabled :
    readAfter .rdStatus { booted 1 with target := 1, ws := .halt, svc := .hnd .tim0, pend := 0b001 } = some (0x3F, false) ∧
    readAfter .rdStatus { booted 0 with pend := 0b100, ien := 0b011 } = some (0x0C, false) := by decide
theorem test_wrStatus : blkAfter (.wrStatus 0xFF) (booted 0) = some ({ booted 0 with err := 2 }, true) := by decide
theorem test_rdIen : readAfter .rdIen (booted 0) = some (0x07, false) := by decide
/-- K4. -/
theorem test_wrIen_before_lock : blkAfter (.wrIen 0x01) Block.reset = some ({ Block.reset with err := 7 }, true) := by decide
/-- K5 and K6. -/
theorem test_wrIen : blkAfter (.wrIen 0xF8) Block.reset = some (Block.reset, false) ∧
    (blkAfter (.wrIen 0xFF) { Block.reset with lock := true }).map (fun r => r.1.ien) = some 0b111 := by decide
theorem test_rdPend : readAfter .rdPend { booted 0 with pend := 0b110 } = some (0x06, false) := by decide
theorem test_wrPend : blkAfter (.wrPend 0x01) (booted 0) = some ({ booted 0 with err := 2 }, true) := by decide
theorem test_rdOvr : readAfter .rdOvr { booted 0 with ovr := 0b010 } = some (0x02, false) := by decide
theorem test_wrOvr : blkAfter (.wrOvr 0x01) (booted 0) = some ({ booted 0 with err := 2 }, true) := by decide
theorem test_rdErr : readAfter .rdErr { booted 0 with err := 8 } = some (0x08, false) := by decide
/-- K11: the first code stays. -/
theorem test_wrErr : blkAfter (.wrErr 0x00) { booted 0 with err := 7 } = some ({ booted 0 with err := 7 }, true) := by decide
theorem test_rdSvcr : ([.idle, .ack .tim, .hnd .tim0, .hnd .tim1, .clr .tim, .ack .rtc, .hnd .rtc0, .clr .rtc,
    .ack .ext, .hnd .ext0, .clr .ext] : List Svc).map (fun v => readAfter .rdSvcr { booted 0 with svc := v }) =
    ([0x00, 0x01, 0x02, 0x72, 0x03, 0x05, 0x26, 0x07, 0x09, 0x4A, 0x0B] : List Byte).map (fun d => some (d, false)) := by
  decide
theorem test_wrSvcr : blkAfter (.wrSvcr 0x02) (booted 0) = some ({ booted 0 with err := 2 }, true) := by decide
theorem test_rdRsvd : readAfter (.rdRsvd 0) Block.reset = some (0x00, true) ∧
    (blkAfter (.rdRsvd 0) Block.reset).map (fun r => r.1.err) = some 1 := by decide
theorem test_wrRsvd : blkAfter (.wrRsvd 3 0xAA) Block.reset = some ({ Block.reset with err := 1 }, true) := by decide
theorem test_rdHref : readAfter (.rdHref .ptick .high) (booted 0) = some (0x40, false) := by decide
/-- K7. -/
theorem test_wrHref : (blkAfter (.wrHref .systick .high 0x12) { Block.reset with href := ⟨0x0034, 0, 0, 0⟩ }).map
    (fun r => r.1.href) = some ⟨0x1234, 0, 0, 0⟩ := by decide
/-- K8. -/
theorem test_wrHref_locked : blkAfter (.wrHref .systick .low 0x11) (booted 0) = some ({ booted 0 with err := 6 }, true) := by
  decide

/-! ### Router: I1 to I21 -/

theorem test_evtNone : blkAfter .evtNone (booted 7) = some (booted 7, false) := by decide
theorem test_evtRaiseTim : blkAfter .evtRaiseTim (booted 7) = some ({ booted 7 with pend := 0b001 }, false) := by decide
/-- I5: a second event during the service of the first is merged. -/
theorem test_evtRaiseTim_overrun : blkAfter .evtRaiseTim { booted 7 with pend := 0b001, svc := .hnd .tim0 } =
    some ({ booted 7 with pend := 0b001, svc := .hnd .tim0, ovr := 0b001 }, false) := by decide
/-- I4. -/
theorem test_evtRaiseRtc : blkAfter .evtRaiseRtc { booted 7 with pend := 0b010 } =
    some ({ booted 7 with pend := 0b010, ovr := 0b010 }, false) := by decide
theorem test_evtRaiseExt : blkAfter .evtRaiseExt (booted 7) = some ({ booted 7 with pend := 0b100 }, false) := by decide
/-- I6: the source each value of `PEND` selects. -/
theorem test_evtIack_priority : ([0b001, 0b011, 0b101, 0b111, 0b010, 0b110, 0b100, 0b000] : List (BitVec 3)).map
    (fun p => (blkAfter .evtIack { booted 7 with pend := p }).map (fun r => r.1.svc)) =
    [some (.ack .tim), some (.ack .tim), some (.ack .tim), some (.ack .tim), some (.ack .rtc), some (.ack .rtc),
     some (.ack .ext), some .idle] := by decide
/-- I12 and I19: no acknowledge in a service or before the re-test. -/
theorem test_evtIack_ignored :
    (blkAfter .evtIack { booted 7 with pend := 0b011, svc := .hnd .rtc0 }).map (fun r => r.1.svc) = some (.hnd .rtc0) ∧
    (blkAfter .evtIack { booted 7 with pend := 0b010, ws := .check }).map (fun r => r.1.svc) = some .idle := by decide
/-- I1: `TICK = t + 1` from the `ENTER` on, across the wrap (T3), slot 0 dispatched. -/
theorem test_intEnter_tim : (blkAfter .intEnter { booted 0xFFFFFFFF with pend := 0b001, svc := .ack .tim }).map
    (fun r => (r.1.tick, r.1.svc, r.1.dispSlot, r.1.dispHref)) = some (0, .hnd .tim0, 0, 0x1000) := by decide
/-- I2 and I15. -/
theorem test_intEnter_rtc : (blkAfter .intEnter { booted 7 with pend := 0b010, svc := .ack .rtc }).map
    (fun r => (r.1.tick, r.1.dispSlot, r.1.dispHref)) = some (7, 1, 0x2000) ∧
    blkAfter .intEnter (booted 7) = none := by decide
/-- I1: the second handler is slot 3, then the service is marked for clearing. -/
theorem test_evtHret : (blkAfter .evtHret { booted 7 with pend := 0b001, svc := .hnd .tim0 }).map
    (fun r => (r.1.svc, r.1.dispSlot, r.1.dispHref)) = some (.hnd .tim1, 3, 0x4000) ∧
    (blkAfter .evtHret { booted 7 with pend := 0b001, svc := .hnd .tim1 }).map (fun r => r.1.svc) = some (.clr .tim) := by
  decide
/-- I13: a return with no handler running, `bus_err` low. -/
theorem test_evtHret_spurious : blkAfter .evtHret Block.reset = some ({ Block.reset with err := 8 }, false) := by decide
/-- I18 and I16. -/
theorem test_intClear : blkAfter .intClear { booted 7 with pend := 0b011, svc := .clr .tim, ws := .halt } =
    some ({ booted 7 with pend := 0b010, ws := .check }, false) ∧ blkAfter .intClear (booted 7) = none ∧
    { booted 7 with pend := 0b010, ws := .check }.irq = false := by decide
/-- I7 and I8: raises are latched before the acknowledge of the same word selects. -/
theorem test_evtMulti_raise_then_iack :
    (blkAfter (.evtMulti 0b10110) { booted 7 with ien := 0b101 }).map (fun r => (r.1.pend, r.1.svc)) =
      some (0b110, .ack .ext) ∧
    (blkAfter (.evtMulti 0b10001) { booted 7 with pend := 0b010 }).map (fun r => (r.1.pend, r.1.svc)) =
      some (0b011, .ack .tim) := by decide
/-- I9 and I10. -/
theorem test_evtMulti_hret :
    (blkAfter (.evtMulti 0b11000) { booted 7 with pend := 0b001, svc := .hnd .tim1 }).map (fun r => r.1.svc) =
      some (.clr .tim) ∧
    (blkAfter (.evtMulti 0b01001) { booted 7 with pend := 0b001, svc := .hnd .tim0 }).map (fun r => (r.1.ovr, r.1.svc)) =
      some (0b001, .hnd .tim1) := by decide

/-! ### Reset, illegal words, text: Z1, Z2 -/

theorem test_sysReset : (blkAfter .sysReset { booted 7 with svc := .hnd .tim0, pend := 0b001, ws := .halt, err := 7, ovr := 0b010 }).map
    (fun r => (r.1, r.1.statusByte)) = some (Block.reset, 0x0C) := by decide
theorem test_illegal : refusal (exec (.illegal 0x4020) State.reset) = some (.illegalStepWord 0x4020) := by decide
/-- The lines of 30_encoding.md R90, as program P6 and P4 spell them. -/
theorem test_stepText : stepText (.wrTick 0 0x55) = some "WR TICK0, 0x55".toList ∧
    stepText (.rdRsvd 0) = some "RD 0x14".toList ∧ stepText (.wrHref .systick .low 0x10) = some "WR HREF0L, 0x10".toList ∧
    stepText (.evtMulti 0b00111) = some "EVT TIM+RTC+EXT".toList ∧ stepText .cmdArm = some "ARM".toList := by decide
/-- The map of 20_memory.md R67 at its last offsets. -/
theorem test_window : memRead 0x1F (booted 0) = .ok 0x40 ∧ memRead 0x17 (booted 0) = .error .rsvdAddr ∧
    memWrite 0x14 0x01 (booted 0) = .error .rsvdAddr := by
  refine ⟨by rfl, by rfl, by rfl⟩

/-! ### Witnesses: for each statement with hypotheses, states and operands that meet all of them -/

/-- The instruction completes from the block; its next state is `after`. -/
def completes (i : Instr) (b : Block) : Prop := exec i (at' b []) = .next (after (at' b []) (exec i (at' b [])))

/-- A block with a service of `src` in its state `v`. -/
def inService (v : Svc) (p : BitVec 3) : Block := { booted 7 with svc := v, pend := p }

theorem witness_DecodeOfEncodeIsIdentity : (Instr.cmdBad 0x00).wf = true ∧ (Instr.cmdBad 0xFF).wf = true ∧
    (Instr.evtMulti 0b00011).wf = true ∧ (Instr.evtMulti 0b11111).wf = true ∧ (Instr.illegal 0x4020).wf = true ∧
    (Instr.illegal 0xFFFF).wf = true ∧ (Instr.wrHref .ptick .high 0xFF).wf = true := by decide

theorem witness_DecodeTakesFirstRow : ∃ (j k : Nat) (q r : OpRow), j < k ∧ opcodeRows[j]? = some q ∧
    opcodeRows[k]? = some r ∧ (0x2D02 : StepWord) &&& r.mask = r.mtch ∧ (0x2D02 : StepWord) &&& q.mask ≠ q.mtch :=
  ⟨17, 18, _, _, by decide, rfl, rfl, by decide, by decide⟩

theorem witness_RowsOverlapOnlyAsListed :
    (∃ (p q : OpRow) (w : StepWord), opcodeRows[17]? = some p ∧ opcodeRows[18]? = some q ∧
      p.covers w = true ∧ q.covers w = true) ∧
    (∃ (p q : OpRow) (w : StepWord), opcodeRows[32]? = some p ∧ opcodeRows[33]? = some q ∧
      p.covers w = true ∧ q.covers w = true) ∧
    ∃ p q : OpRow, opcodeRows[0]? = some p ∧ opcodeRows[37]? = some q :=
  ⟨⟨_, _, 0x2D01, rfl, rfl, by decide, by decide⟩, ⟨_, _, 0x4010, rfl, rfl, by decide, by decide⟩, _, _, rfl, rfl⟩

theorem witness_IllegalWordsSpellNoStep : decode 0x8003 = .illegal 0x8003 ∧
    (at' Block.reset [0x8003]).script = 0x8003 :: [] := by decide

theorem witness_StepRunsDecodedInstruction : (at' Block.reset [0x00FF]).script = 0x00FF :: [] ∧
    (Instr.cmdBad 0x02).wf = true ∧ (at' Block.reset [0x2D02, 0x0000]).script = encode (.cmdBad 0x02) :: [0x0000] ∧
    (at' Block.reset []).script = [] := by decide

theorem witness_StepTakesOneWord : completes .evtRaiseTim (booted 7) ∧
    ∃ s t : State, step s = .next t := ⟨rfl, at' (booted 7) [0x4001], _, rfl⟩

theorem witness_ControlRegisterReadsReturnBits : ([.tim0, .tim1, .rtc0, .ext0] : List Handler).all
    (fun h => (inService (.hnd h) h.source.mask).wf && (inService (.hnd h) h.source.mask).svc == .hnd h) = true := by decide

theorem witness_ReadOnlyWritesRaise : (.wrSvcr 0xFF : Instr) ∈
    ([.wrTick 3 0xFF, .wrTarget 3 0xFF, .wrStatus 0xFF, .wrPend 0xFF, .wrOvr 0xFF, .wrErr 0xFF, .wrSvcr 0xFF] : List Instr) := by
  decide

theorem witness_CommandPortTakesOnlyArm : (0x00 : Byte) ≠ 0x01 ∧ (0x02 : Byte) ≠ 0x01 ∧ (0xFF : Byte) ≠ 0x01 := by decide

/-- A transaction with a cause in the table, and one without. -/
theorem witness_BusErrorIsExactlyTheTable : Instr.cmdArm.isBus = true ∧ busCause .cmdArm (booted 7) = none ∧
    busCause .cmdArm { booted 7 with ws := .halt } = some .busy := by decide

/-- Both outcomes of the window: an offset that answers and one that raises, and a write refused by the state. -/
theorem witness_BusReadsAndWritesFollowTheMap : memRead 0x00 (booted 7) = .ok 0x07 ∧
    memRead 0x14 (booted 7) = .error .rsvdAddr ∧ memWrite 0x18 0xFF (booted 7) = .error .locked ∧
    memWrite 0x0F 0x00 (booted 7) = .ok { booted 7 with ien := 0 } := ⟨rfl, rfl, rfl, rfl⟩

/-- `DelayWriteReplacesOneByte`, `CtrlWriteSetsOrdAndLock`: in and outside a wait. -/
theorem witness_waitStates : { booted 7 with ws := .check }.ws ≠ .idle ∧ { booted 7 with ws := .halt }.ws ≠ .idle ∧
    (booted 7).ws = .idle := by decide

theorem witness_IenWriteNeedsLock : ((0x01 : Byte).toNat % 8 ≠ 0 ∧ Block.reset.lock = false) ∧
    ((0x07 : Byte).toNat % 8 ≠ 0 ∧ Block.reset.lock = false) ∧ (0xF8 : Byte).toNat % 8 = 0 ∧ (booted 7).lock = true := by
  decide

theorem witness_HrefWriteReplacesOneByte : (booted 7).lock = true ∧ Block.reset.lock = false ∧ Slot.ptick ≠ Slot.systick := by
  decide

theorem witness_ArmStartsTheWait : (inService (.hnd .rtc0) 0b010).svc ≠ .idle ∧
    ({ booted 7 with ws := .halt }.svc = .idle ∧ { booted 7 with ws := .halt }.ws ≠ .idle) ∧
    ((booted 7).svc = .idle ∧ (booted 7).ws = .idle) := by decide

/-- Over, and one tick short of it, in each mode; and no test outside `W_CHECK`. -/
theorem witness_PollTestsAndHalts :
    ({ booted 7 with ws := .check, target := 7 }.waitOver ∧ ¬{ booted 7 with ws := .check, target := 8 }.waitOver) ∧
    ({ booted 7 with ws := .check, target := 7, ord := true }.waitOver ∧
      ¬{ booted 7 with ws := .check, target := 8, ord := true }.waitOver) ∧
    { booted 7 with ws := .halt }.ws ≠ .check := by
  simp [Block.waitOver, Block.deadlinePassed, booted, Block.reset]

/-- Each source first among the requesting ones; and each reason to ignore an acknowledge. -/
theorem witness_IackSelectsByPriority :
    (∀ src : Source, ∃ b : Block, b.svc = .idle ∧ b.ws ≠ .check ∧ flag b.pend src = true ∧ flag b.ien src = true ∧
      ∀ q : Source, q.index < src.index → ¬(flag b.pend q = true ∧ flag b.ien q = true)) ∧
    (inService (.ack .tim) 0b001).svc ≠ .idle ∧ { booted 7 with ws := .check }.ws = .check ∧
    ∀ src : Source, ¬(flag (booted 7).pend src = true ∧ flag (booted 7).ien src = true) := by
  refine ⟨fun src => ?_, by decide, by decide, fun src => by cases src <;> decide⟩
  cases src
  · exact ⟨{ booted 7 with pend := 0b111 }, by decide, by decide, by decide, by decide, fun q => by cases q <;> decide⟩
  · exact ⟨{ booted 7 with pend := 0b110 }, by decide, by decide, by decide, by decide, fun q => by cases q <;> decide⟩
  · exact ⟨{ booted 7 with pend := 0b110, ien := 0b101 }, by decide, by decide, by decide, by decide,
      fun q => by cases q <;> decide⟩

theorem witness_EnterAdvancesAndDispatches : (∀ src : Source, (inService (.ack src) src.mask).svc = .ack src) ∧
    ∀ src, (booted 7).svc ≠ .ack src := ⟨fun _ => rfl, fun _ => by simp [booted, Block.reset]⟩

theorem witness_HretDispatchesNextOrClears : (inService (.hnd .tim0) 0b001).svc = .hnd .tim0 ∧
    ((inService (.hnd .tim1) 0b001).svc = .hnd .tim1 ∧ Handler.tim1 ≠ .tim0) ∧
    ((inService (.hnd .ext0) 0b100).svc = .hnd .ext0 ∧ Handler.ext0 ≠ .tim0) ∧
    ∀ h, (inService (.clr .tim) 0b001).svc ≠ .hnd h :=
  ⟨rfl, ⟨rfl, by decide⟩, ⟨rfl, by decide⟩, fun _ => by simp [inService]⟩

theorem witness_ClearEndsTheService : (∀ src : Source, (inService (.clr src) src.mask).svc = .clr src) ∧
    ∀ src, (booted 7).svc ≠ .clr src := ⟨fun _ => rfl, fun _ => by simp [booted, Block.reset]⟩

theorem witness_EventWordsCompose : fewerThanTwoEvents 0b00011 = false ∧ fewerThanTwoEvents 0b11111 = false ∧
    (.evtRaiseExt : Instr) ∈ ([.evtRaiseTim, .evtRaiseRtc, .evtRaiseExt] : List Instr) ∧
    (.evtHret : Instr) ∈ ([.evtRaiseTim, .evtRaiseRtc, .evtRaiseExt, .evtHret] : List Instr) ∧
    ((0b11000 : BitVec 5).getLsbD 3 = true ∧ (inService (.hnd .tim1) 0b011).svc = .hnd .tim1 ∧
      (blkAfter (.evtMulti 0b11000) (inService (.hnd .tim1) 0b011)).isSome = true) := by decide

theorem witness_ResetSetsEveryField : completes .sysReset (inService (.hnd .tim1) 0b011) := rfl

/-- A well-formed state in the middle of a service takes a step. -/
theorem witness_StepKeepsWellFormed : ∃ s t : State, s.blk.wf = true ∧ s.blk.svc = .clr .tim ∧ step s = .next t :=
  ⟨at' { inService (.clr .tim) 0b011 with ws := .halt } [0x8001], _, by decide, rfl, rfl⟩

theorem witness_RecordsStickUntilReset : completes (.wrTick 0 0x01) { booted 7 with err := 7, ovr := 0b101 } ∧
    Instr.wrTick 0 0x01 ≠ .sysReset ∧ { booted 7 with err := 7, ovr := 0b101 }.err ≠ 0 ∧
    { booted 7 with err := 7, ovr := 0b101 }.lock = true ∧
    flag { booted 7 with err := 7, ovr := 0b101 }.ovr .ext = true := ⟨rfl, by decide, by decide, rfl, by decide⟩

/-- One instruction for each writer, and one that writes none. -/
theorem witness_DataRegistersHaveOneWriter : completes .intEnter (inService (.ack .tim) 0b001) ∧
    completes (.wrDelay 3 0xFF) (booted 7) ∧ completes .cmdArm { booted 7 with delay := 5 } ∧ completes .evtIack (booted 7) ∧
    Instr.intEnter ≠ .sysReset ∧ Instr.wrDelay 3 0xFF ≠ .sysReset ∧ Instr.cmdArm ≠ .sysReset :=
  ⟨rfl, rfl, rfl, rfl, by decide, by decide, by decide⟩

theorem witness_StepClassesKeepTheRest : (completes (.wrIen 0x05) (booted 7) ∧ (Instr.wrIen 0x05).isBus = true) ∧
    (completes (.evtMulti 0b11000) (inService (.hnd .tim0) 0b001) ∧ (Instr.evtMulti 0b11000).isBus = false) ∧
    (completes .intClear (inService (.clr .tim) 0b001) ∧ Instr.intClear.isBus = false) :=
  ⟨⟨rfl, rfl⟩, ⟨rfl, rfl⟩, rfl, rfl⟩

/-- Two whole timer interrupts and a read between them: two advances, across the wrap. -/
theorem witness_TickCountsTimerServices : ∃ s t : State, RunWhile (fun u => ¬u.resetNext) s 2 t :=
  ⟨at' (booted 0xFFFFFFFF) ((advanceOps ++ [Instr.rdTick 0] ++ advanceOps).map encode), _,
    runWhile_of_follow noReset_ok 13 _ _ _ rfl⟩

theorem witness_ServicesDoNotNest : (completes .intEnter (inService (.ack .ext) 0b101) ∧
      (inService (.ack .ext) 0b101).svc ≠ .idle) ∧
    (completes (.evtMulti 0b11001) (inService (.hnd .tim1) 0b001) ∧ (inService (.hnd .tim1) 0b001).svc ≠ .idle) ∧
    (completes .intClear (inService (.clr .rtc) 0b010) ∧ (inService (.clr .rtc) 0b010).svc ≠ .idle) ∧
    (completes .evtIack (inService (.hnd .rtc0) 0b011) ∧ (inService (.hnd .rtc0) 0b011).svc ≠ .idle) :=
  ⟨⟨rfl, by decide⟩, ⟨rfl, by decide⟩, ⟨rfl, by decide⟩, rfl, by decide⟩

/-- From the `INT.ENTER` at the wrap, through a read, a return and a read in the second handler. -/
theorem witness_HandlersSeePostIncrementTick : ∃ s t u : State, s.nextInstr? = some .intEnter ∧
    s.blk.svc = .ack .tim ∧ step s = .next t ∧
    RunWhile (fun x => ¬x.resetNext ∧ x.blk.dispValid = true) t 0 u ∧ u.blk.svc = .hnd .tim1 :=
  ⟨at' { booted 0xFFFFFFFF with pend := 0b001, svc := .ack .tim } [0x8000, 0x0000, 0x4008, 0x0300], _, _, rfl, rfl, rfl,
    runWhile_of_follow (p := fun x => noReset x && x.blk.dispValid)
      (fun x h => by rw [Bool.and_eq_true] at h; exact ⟨noReset_ok x h.1, h.2⟩) 3 _ _ _ rfl, rfl⟩

theorem witness_WaitSequencerMoves : completes .cmdArm (booted 7) ∧ completes .intPoll { booted 7 with ws := .check } ∧
    completes .intPoll { booted 7 with ws := .check, target := 7 } ∧
    completes .intClear { inService (.clr .tim) 0b001 with ws := .halt } ∧ Instr.cmdArm ≠ .sysReset ∧
    Instr.intPoll ≠ .sysReset ∧ Instr.intClear ≠ .sysReset := ⟨rfl, rfl, rfl, rfl, by decide, by decide, by decide⟩

/-- The condition of a wait's runs, as a test. -/
def waiting (x : State) : Bool := noReset x && x.blk.ws != .idle

theorem waiting_ok (x : State) (h : waiting x = true) : ¬x.resetNext ∧ x.blk.ws ≠ .idle := by
  rw [waiting, Bool.and_eq_true, bne_iff_ne] at h
  exact ⟨noReset_ok x h.1, h.2⟩

/-- A state whose next step is an accepted `CMD.ARM`, with a script to follow it. -/
def arming (t d : Word) (o : Bool) (l : List Instr) : State :=
  at' { booted t with delay := d, ord := o } ((.cmdArm :: l).map encode)

/-- `DELAY = 2` across the wrap: the wait in `W_CHECK` before its last test, and after its return. -/
theorem witness_EqualityWaitTakesExactlyDelay :
    ∃ s a t u : State, s.nextInstr? = some .cmdArm ∧ s.blk.svc = .idle ∧ s.blk.ws = .idle ∧ s.blk.ord = false ∧
      s.blk.delay = 2 ∧ step s = .next a ∧
      RunWhile (fun x => ¬x.resetNext ∧ x.blk.ws ≠ .idle) a 2 t ∧ t.blk.ws = .check ∧
      RunWhile (fun x => ¬x.resetNext ∧ x.blk.ws ≠ .idle) a 2 u ∧ u.blk.ws = .idle :=
  ⟨arming 0xFFFFFFFF 2 false ([.intPoll] ++ advanceOps ++ [.intPoll] ++ advanceOps ++ [.intPoll]), _, _, _,
    rfl, rfl, rfl, rfl, rfl, rfl, runWhile_of_follow waiting_ok 14 _ _ _ rfl, rfl,
    runWhile_of_follow waiting_ok 15 _ _ _ rfl, rfl⟩

/-- The two sides of the range limit: `DELAY = 2^31` halts, `DELAY = 2^31 + 1` returns at once. -/
theorem witness_OrderedWaitNeedsHalfRange :
    (∃ s a t : State, s.nextInstr? = some .cmdArm ∧ s.blk.svc = .idle ∧ s.blk.ws = .idle ∧ s.blk.ord = true ∧
      s.blk.delay.toNat = 2 ^ 31 ∧ step s = .next a ∧
      RunWhile (fun x => ¬x.resetNext ∧ x.blk.ws ≠ .idle) a 1 t ∧ t.blk.ws = .check) ∧
    (∃ s a t : State, s.nextInstr? = some .cmdArm ∧ s.blk.svc = .idle ∧ s.blk.ws = .idle ∧ s.blk.ord = true ∧
      s.blk.delay.toNat = 2 ^ 31 + 1 ∧ step s = .next a ∧
      RunWhile (fun x => ¬x.resetNext ∧ x.blk.ws ≠ .idle) a 0 t ∧ t.blk.ws = .idle) :=
  ⟨⟨arming 5 0x80000000 true ([.intPoll] ++ advanceOps), _, _, rfl, rfl, rfl, rfl, rfl, rfl,
      runWhile_of_follow waiting_ok 7 _ _ _ rfl, rfl⟩,
    ⟨arming 5 0x80000001 true [.intPoll], _, _, rfl, rfl, rfl, rfl, rfl, rfl,
      runWhile_of_follow waiting_ok 1 _ _ _ rfl, rfl⟩⟩

theorem witness_ZeroDelayNeverHalts :
    ∃ s a t : State, s.nextInstr? = some .cmdArm ∧ s.blk.svc = .idle ∧ s.blk.ws = .idle ∧ s.blk.delay = 0 ∧
      step s = .next a ∧ RunWhile (fun x => ¬x.resetNext ∧ x.blk.ws ≠ .idle) a 0 t ∧ t.blk.ws = .idle :=
  ⟨arming 0x12345678 0 false [.evtRaiseTim, .intPoll], _, _, rfl, rfl, rfl, rfl, rfl,
    runWhile_of_follow waiting_ok 2 _ _ _ rfl, rfl⟩

/-- W19: the timer source disabled before the wait; raises do not wake it. -/
theorem witness_WaitBlocksWithoutTimerServices :
    ∃ s a t : State, s.nextInstr? = some .cmdArm ∧ s.blk.svc = .idle ∧ s.blk.ws = .idle ∧ s.blk.ord = false ∧
      s.blk.delay ≠ 0 ∧ step s = .next a ∧ RunWhile (fun x => ¬x.resetNext) a 0 t ∧
      RunWhile (fun x => ¬x.resetNext ∧ flag x.blk.ien .tim = false) a 0 t ∧ t.blk.ws = .halt :=
  ⟨at' { booted 0x10 with delay := 1, ien := 0b110 } [0x2D01, 0x8002, 0x4001, 0x4001, 0x4010], _, _,
    rfl, rfl, rfl, rfl, by decide, rfl, runWhile_of_follow noReset_ok 4 _ _ _ rfl,
    runWhile_of_follow (p := fun x => noReset x && !flag x.blk.ien .tim)
      (fun x h => by rw [Bool.and_eq_true, Bool.not_eq_true'] at h; exact ⟨noReset_ok x h.1, h.2⟩) 4 _ _ _ rfl, rfl⟩

theorem witness_WaitMsArmsTheDeadline : ∃ (d : Word) (s : State), s.blk.svc = .idle ∧ s.blk.ws = .idle ∧
    s.script = (waitMs d).map encode ++ [0x8002] := ⟨0xFFFFFFFF, at' (booted 7) _, rfl, rfl, rfl⟩

theorem witness_WaitMsReturnsAfterServices : ∃ (d : Word) (s : State), s.blk.svc = .idle ∧ s.blk.ws = .idle ∧
    s.blk.ord = false ∧ flag s.blk.ien .tim = true ∧ s.script = (waitSchedule d).map encode ++ [0x0E00] :=
  ⟨2, at' (booted 0xFFFFFFFF) _, rfl, rfl, rfl, rfl, rfl⟩

theorem witness_PlainReadCanTear : ∃ s : State, s.blk.tick = 0x000000FF ∧ s.blk.svc = .idle ∧ s.blk.ws = .idle ∧
    s.blk.pend = 0 ∧ flag s.blk.ien .tim = true ∧ s.script = tornRead.map encode :=
  ⟨at' (booted 0xFF) _, rfl, rfl, rfl, rfl, rfl, rfl⟩

/-- The guarded read of vector T5: an event raised between its reads is kept. And `NOW.G` with no other step between. -/
theorem witness_GuardedReadIsExact :
    (∃ s t : State, s.blk.svc = .idle ∧
      RunWhile (fun x => ¬x.resetNext ∧ flag x.blk.ien .tim = false) s 0 t ∧ flag s.blk.pend .tim = true ∧
      flag t.blk.ien .tim = true) ∧
    (∃ s : State, s.blk.wf = true ∧ 0x07 = sourceByte s.blk.ien ∧ s.script = (nowGuarded 0x07).map encode ++ [0x4001]) :=
  ⟨⟨at' { booted 0x100 with ien := 0b110, pend := 0b001 } [0x0000, 0x4001, 0x4010, 0x0100, 0x0200, 0x0300, 0x2F07], _, rfl,
    runWhile_of_follow (p := fun x => noReset x && !flag x.blk.ien .tim)
      (fun x h => by rw [Bool.and_eq_true, Bool.not_eq_true'] at h; exact ⟨noReset_ok x h.1, h.2⟩) 7 _ _ _ rfl, rfl, rfl⟩,
    at' (booted 0x100) _, rfl, by decide, rfl⟩

/-- The script of vector T6: `NOW.R` with an `ADVANCE` after step 2, and its second turn. -/
def rereadScript : List StepWord :=
  (readTickDown.take 2 ++ advanceOps ++ readTickDown.drop 2 ++ readTickDown ++ nowReread).map encode

/-- T6: which of its steps are the reader's own. -/
def rereadOwn : List Bool := [true, true] ++ List.replicate 6 false ++ List.replicate 14 true

/-- T6: the first turn gives `a = 0x00000000`, `b = 0x00010000`, and the reader starts again; the second accepts. -/
theorem test_reread_loops :
    ([0x00, 0x00, 0x00, 0x00, 0x00, 0x01, 0x00, 0x00] : List Byte).foldl (Rereader.take .down) .start = .start ∧
    ([0x00, 0x01, 0x00, 0x00, 0x00, 0x01, 0x00, 0x00] : List Byte).foldl (Rereader.take .down) .start =
      .accepted 0x00010000 ∧
    (followReader .down rereadOwn.reverse (at' (booted 0x0000FFFF) rereadScript)).map (fun p => (p.1, p.2.2.blk.tick)) =
      some (.accepted 0x00010000, 0x00010000) := by decide

/-- The low byte first, with an `ADVANCE` after step 5. -/
def rereadUpScript : List StepWord :=
  (readTickUp ++ readTickUp.take 1 ++ advanceOps ++ readTickUp.drop 1).map encode

def rereadUpOwn : List Bool := List.replicate 5 true ++ List.replicate 6 false ++ List.replicate 3 true

/-- R107, low byte first: the value accepted is `TICK` at steps 1 and 5; an advance after step 5 is not seen. With an
advance between steps 1 and 5 (0x000000FF to 0x00000100, bytes FF 01 00 00, then 00 01 00 00) the reader starts again. -/
theorem test_reread_low_byte_first :
    ([0xFF, 0x01, 0x00, 0x00, 0x00, 0x01, 0x00, 0x00] : List Byte).foldl (Rereader.take .up) .start = .start ∧
    (followReader .up rereadUpOwn.reverse (at' (booted 0x12345678) rereadUpScript)).map
      (fun p => (p.1, p.2.1.second, p.2.2.blk.tick)) = some (.accepted 0x12345678, 0x12345678, 0x12345679) := by decide

/-- The reads of one turn of `NOW.R` with no service in them; the acceptance of vector T6, after a turn that repeats, and
one in the other order; the last read before an acceptance; and eight reads with no other step, in each order. -/
theorem witness_RereadIsExact :
    (∃ s m t : State, RunWhile (fun x => ¬x.resetNext) s 0 m ∧ RunWhile (fun x => ¬x.resetNext) m 0 t ∧
      wordByte s.blk.tick 0 = wordByte t.blk.tick 0) ∧
    (∃ (s t : State) (x : LowReads), RereadRun .down s (.accepted 0x00010000) x t ∧ x.advances < 256) ∧
    (∃ (s t : State) (x : LowReads), RereadRun .up s (.accepted 0x12345678) x t ∧ x.advances < 256) ∧
    (∃ (s t u : State) (r : Rereader) (x : LowReads), RereadRun .down s r x t ∧ x.advances < 256 ∧
      r.next? .down = some (.rdTick 0) ∧ t.nextInstr? = some (.rdTick 0) ∧ step t = .next u ∧
      u.busRdata = some 0x00 ∧ r.take .down 0x00 = .accepted 0x00010000) ∧
    (∀ o : ReadOrder, ∃ s : State, s.script = o.turn.map encode ++ [0x8002]) :=
  ⟨⟨at' (booted 0x0000FFFF) (nowReread.map encode), _, _, runWhile_of_follow noReset_ok 4 _ _ _ rfl,
      runWhile_of_follow noReset_ok 4 _ _ _ rfl, rfl⟩,
    ⟨at' (booted 0x0000FFFF) rereadScript, _, _, rereadRun_of_follow .down rereadOwn.reverse _ _ _ _ rfl, by decide⟩,
    ⟨at' (booted 0x12345678) rereadUpScript, _, _, rereadRun_of_follow .up rereadUpOwn.reverse _ _ _ _ rfl, by decide⟩,
    ⟨at' (booted 0x0000FFFF) rereadScript, _, _, _, _,
      rereadRun_of_follow .down rereadOwn.dropLast.reverse _ _ _ _ rfl, by decide, rfl, rfl, rfl, rfl, rfl⟩,
    fun o => ⟨at' (booted 0x0000FFFF) (o.turn.map encode ++ [0x8002]), rfl⟩⟩

theorem witness_OneEventOneService : ∀ src : Source, ∃ s : State, s.blk.svc = .idle ∧ s.blk.ws ≠ .check ∧
    s.blk.pend = 0 ∧ flag s.blk.ien src = true ∧ s.script = (raiseOf src :: service src).map encode ++ [0x0E00] :=
  fun src => ⟨at' { booted 7 with ws := .halt } ((raiseOf src :: service src).map encode ++ [0x0E00]), rfl,
    by simp [at'], rfl, by cases src <;> rfl, rfl⟩

/-- A flag that rises, and one that falls. -/
theorem witness_PendingFlagMoves : (∃ s t : State, exec (.evtMulti 0b00110) s = .next t ∧
      Instr.evtMulti 0b00110 ≠ .sysReset ∧ flag s.blk.pend .ext = false ∧ flag t.blk.pend .ext = true) ∧
    (∃ s t : State, exec .intClear s = .next t ∧ Instr.intClear ≠ .sysReset ∧ flag s.blk.pend .rtc = true ∧
      flag t.blk.pend .rtc = false) :=
  ⟨⟨at' (booted 7) [], _, rfl, by decide, rfl, rfl⟩, at' (inService (.clr .rtc) 0b011) [], _, rfl, by decide, rfl, rfl⟩

theorem witness_ServiceIgnoresEnable : (completes .intEnter (inService (.ack .tim) 0b001) ∧
    completes .evtHret (inService (.hnd .tim0) 0b001) ∧ completes .intClear (inService (.clr .tim) 0b001)) ∧
    ∀ i ∈ ([.intEnter, .evtHret, .intClear] : List Instr), i = .intEnter ∨ i = .evtHret ∨ i = .intClear :=
  ⟨⟨rfl, rfl, rfl⟩, by simp⟩

theorem witness_ContractKeepsErrZero :
    (keepsContract .cmdArm (booted 7) = true ∧ (booted 7).err = 0 ∧ completes .cmdArm (booted 7)) ∧
    (keepsContract .evtHret (inService (.hnd .tim0) 0b001) = true ∧ (inService (.hnd .tim0) 0b001).err = 0 ∧
      completes .evtHret (inService (.hnd .tim0) 0b001)) := ⟨⟨by decide, rfl, rfl⟩, by decide, rfl, rfl⟩

/-- A quiet state with an event pending on a disabled source, and steps that keep it quiet. -/
theorem witness_QuietStatesStayQuiet : { booted 7 with ien := 0b110, pend := 0b001 }.quiet = true ∧
    Instr.evtIack.isBus = false ∧ (∀ src, Instr.evtIack.raises src = false) ∧
    completes .evtIack { booted 7 with ien := 0b110, pend := 0b001 } :=
  ⟨by decide, rfl, fun src => by cases src <;> rfl, rfl⟩

theorem witness_RepeatedAccessesAreIdempotent :
    (∃ s t u : State, exec (decode (busWord false 0x14 0x00)) s = .next t ∧
      exec (decode (busWord false 0x14 0x00)) t = .next u) ∧
    (∃ s t u : State, exec (.wrCtrl 0x03) s = .next t ∧ exec (.wrCtrl 0x03) t = .next u) ∧
    (∃ s t : State, s.blk.svc = .idle ∧ s.blk.ws = .idle ∧ exec .cmdArm s = .next t) :=
  ⟨⟨at' Block.reset [], _, _, rfl, rfl⟩, ⟨at' Block.reset [], _, _, rfl, rfl⟩, at' (booted 7) [], _, rfl, rfl, rfl⟩

/-- The four ends of the two half ranges. -/
theorem witness_ComparatorOrdersAcrossTheWrap :
    ([0, 2 ^ 31 - 1, 2 ^ 31, 2 ^ 32 - 1] : List Nat).all (fun k => decide (k < 2 ^ 32) &&
      (booted (5 + BitVec.ofNat 32 k)).tick == { booted 7 with target := 5 }.target + BitVec.ofNat 32 k) = true := by decide

/-- The low-power request rises, falls by an acknowledge, and falls by reset. -/
theorem witness_HaltIsEnteredByPollLeftByAcknowledge :
    (∃ s t : State, exec .intPoll s = .next t ∧ s.blk.lpReq = false ∧ t.blk.lpReq = true) ∧
    (∃ s t : State, exec (.evtMulti 0b10010) s = .next t ∧ s.blk.lpReq = true ∧ t.blk.lpReq = false) ∧
    (∃ s t : State, exec .sysReset s = .next t ∧ s.blk.lpReq = true ∧ t.blk.lpReq = false) :=
  ⟨⟨at' { booted 7 with ws := .check, target := 8 } [], _, rfl, rfl, rfl⟩,
    ⟨at' { booted 7 with ws := .halt, target := 8 } [], _, rfl, rfl, rfl⟩,
    at' { booted 7 with ws := .halt, target := 8 } [], _, rfl, rfl, rfl⟩

theorem witness_BringUpBuildsTheTable : ∃ s : State, s.blk.lock = false ∧ s.blk.ws = .idle ∧
    s.script = (bringUp 0x1000 0x2000 0x3000 0x4000).map encode ++ [0x4001] := ⟨at' Block.reset _, rfl, rfl, rfl⟩

/-! ### The witness of the progress statement: a wait that returns, then one timer interrupt after another, for ever -/

/-- The word of each phase of a timer interrupt. -/
def phaseWord : Nat → StepWord
  | 0 => 0x4001
  | 1 => 0x4010
  | 2 => 0x8000
  | 3 => 0x4008
  | 4 => 0x4008
  | _ => 0x8001

/-- The state before each phase, `x` timer interrupts having been served. -/
def phaseState (x : Word) : Nat → State
  | 0 => at' (booted x) []
  | 1 => at' { booted x with pend := 0b001 } []
  | 2 => at' { booted x with pend := 0b001, svc := .ack .tim } []
  | 3 => at' { booted (x + 1) with pend := 0b001, svc := .hnd .tim0 } []
  | 4 => at' { booted (x + 1) with pend := 0b001, svc := .hnd .tim1 } []
  | _ => at' { booted (x + 1) with pend := 0b001, svc := .clr .tim } []

def fairWord : Nat → StepWord
  | 0 => 0x8002
  | n + 1 => phaseWord (n % 6)

def fairState : Nat → State
  | 0 => at' { booted 0 with ws := .check } []
  | n + 1 => phaseState (BitVec.ofNat 32 (n / 6)) (n % 6)

theorem phase_step (x : Word) :
    exec .evtRaiseTim (phaseState x 0) = .next (phaseState x 1) ∧ exec .evtIack (phaseState x 1) = .next (phaseState x 2) ∧
    exec .intEnter (phaseState x 2) = .next (phaseState x 3) ∧ exec .evtHret (phaseState x 3) = .next (phaseState x 4) ∧
    exec .evtHret (phaseState x 4) = .next (phaseState x 5) ∧
    exec .intClear (phaseState x 5) = .next (phaseState (x + 1) 0) := by
  refine ⟨?_, ?_, rfl, rfl, rfl, ?_⟩
  · have hp : (phaseState x 0).blk.pend = 0 := rfl
    have h0 : flag 0 .tim = false := by decide
    have h1 : setFlag 0 .tim = 0b001 := by decide
    simp only [exec, execEvtRaiseTim, Block.raise, hp, h0, h1]
    rfl
  · have hi : (phaseState x 1).blk.irq = true :=
      (Block.irq_iff _).mpr ⟨rfl, nofun, .tim, by show flag 0b001 .tim = true; decide, by show flag 0b111 .tim = true; decide⟩
    have hs : (phaseState x 1).blk.sel = some .tim :=
      (Block.sel_eq_some _ _).mpr ⟨by show flag (0b001 &&& 0b111) .tim = true; decide, fun q hq => absurd hq (by simp [Source.index])⟩
    simp only [exec, execEvtIack, Block.iack_of_irq hi hs]
    rfl
  · have hc : clearFlag 0b001 .tim = 0 := by decide
    simp only [exec, execIntClear, Block.clear, phaseState, at', hc]
    rfl

theorem phase_words : decode (phaseWord 0) = .evtRaiseTim ∧ decode (phaseWord 1) = .evtIack ∧
    decode (phaseWord 2) = .intEnter ∧ decode (phaseWord 3) = .evtHret ∧ decode (phaseWord 4) = .evtHret ∧
    decode (phaseWord 5) = .intClear := by decide

theorem fairState_run : InfiniteRun fairWord fairState := by
  obtain ⟨w0, w1, w2, w3, w4, w5⟩ := phase_words
  intro n
  cases n with
  | zero => rfl
  | succ n =>
    obtain ⟨p0, p1, p2, p3, p4, p5⟩ := phase_step (BitVec.ofNat 32 (n / 6))
    have hlt : n % 6 < 6 := Nat.mod_lt _ (by decide)
    simp only [fairWord, fairState]
    by_cases h5 : n % 6 = 5
    · have h1 : (n + 1) % 6 = 0 := by omega
      have h2 : (n + 1) / 6 = n / 6 + 1 := by omega
      rw [h5, h1, h2, w5, BitVec.ofNat_add]
      exact p5
    · have h1 : (n + 1) % 6 = n % 6 + 1 := by omega
      have h2 : (n + 1) / 6 = n / 6 := by omega
      rw [h1, h2]
      have : n % 6 = 0 ∨ n % 6 = 1 ∨ n % 6 = 2 ∨ n % 6 = 3 ∨ n % 6 = 4 := by omega
      rcases this with h | h | h | h | h <;> simp only [h, w0, w1, w2, w3, w4] <;> assumption

/-- The word and state at phase `k` of the interrupt numbered `n`. -/
theorem fair_at (n k : Nat) (hk : k < 6) : fairWord (6 * n + k + 1) = phaseWord k ∧
    fairState (6 * n + k + 1) = phaseState (BitVec.ofNat 32 n) k := by
  have h1 : (6 * n + k) % 6 = k := by omega
  have h2 : (6 * n + k) / 6 = n := by omega
  simp [fairWord, fairState, h1, h2]

theorem fairState_cases (P : State → Prop) (h0 : P (fairState 0)) (h : ∀ x k, k < 6 → P (phaseState x k)) :
    ∀ n, P (fairState n)
  | 0 => h0
  | _ + 1 => h _ _ (Nat.mod_lt _ (by decide))

theorem witness_FairRunsReturnFromEveryWait : ∃ (w : Nat → StepWord) (st : Nat → State), InfiniteRun w st ∧
    (st 0).blk.wf = true ∧ (∀ n, decode (w n) ≠ .sysReset) ∧ FairCpu st ∧ FairHnd w st ∧ FairInt w st ∧ FairTim w st ∧
    (st 0).blk.waitBusy = true := by
  refine ⟨fairWord, fairState, fairState_run, by decide, ?_, ?_, ?_, ?_, ⟨?_, 0, ?_⟩, rfl⟩
  · intro n
    cases n with
    | zero => decide
    | succ n =>
      have hlt : n % 6 < 6 := Nat.mod_lt _ (by decide)
      simp only [fairWord]
      generalize n % 6 = k at hlt ⊢
      revert k
      decide
  · intro n
    refine ⟨6 * n + 3 + 1, by omega, .inl ?_⟩
    rw [(fair_at n 3 (by omega)).2]
    rfl
  · intro n _
    refine ⟨6 * n + 3 + 1, by omega, ?_⟩
    rw [(fair_at n 3 (by omega)).1]
    decide
  · intro n
    refine ⟨fun _ => ⟨6 * n + 2 + 1, by omega, ?_⟩, fun _ => ⟨6 * n + 5 + 1, by omega, ?_⟩, fun h => ?_⟩
    · rw [(fair_at n 2 (by omega)).1]
      decide
    · rw [(fair_at n 5 (by omega)).1]
      decide
    · cases n with
      | zero => exact ⟨0, by omega, by decide⟩
      | succ n =>
        exfalso
        have hlt : n % 6 < 6 := Nat.mod_lt _ (by decide)
        simp only [fairState] at h
        generalize n % 6 = k at hlt h
        have : k = 0 ∨ k = 1 ∨ k = 2 ∨ k = 3 ∨ k = 4 ∨ k = 5 := by omega
        rcases this with rfl | rfl | rfl | rfl | rfl | rfl <;> cases h
  · intro n
    refine ⟨6 * n + 0 + 1, by omega, ?_⟩
    rw [(fair_at n 0 (by omega)).1]
    decide
  · intro m _
    refine fairState_cases (fun s => flag s.blk.ien .tim = true) rfl (fun x k hk => ?_) m
    have : k = 0 ∨ k = 1 ∨ k = 2 ∨ k = 3 ∨ k = 4 ∨ k = 5 := by omega
    rcases this with rfl | rfl | rfl | rfl | rfl | rfl <;> (show flag 0b111 .tim = true) <;> decide

end Sys2Proof.Tests
end

/-! PROOFS. The scope (00_scope.md): decoding inverts the encoder on well-formed instructions, and the two statements
about one step. -/

section
namespace Sys2Proof

/-! ### Decoding the canonical word of an instruction -/

/-- Two rows before the last meet only in words that the later one would read as a term no word spells: their fixed
bits disagree, or the earlier row is one such word (30_encoding.md R84). -/
theorem rows_pairwise_disagree_or_not_wf : (opcodeRows.take 38).Pairwise fun q r =>
    q.mtch &&& r.mask ≠ r.mtch &&& q.mask ∨ (q.mask = BitVec.allOnes 16 ∧ (r.op q.mtch).wf = false) := by
  decide

theorem OpRow.covers_iff {r : OpRow} {w : StepWord} : r.covers w = true ↔ w &&& r.mask = r.mtch := beq_iff_eq

/-- Two rows that cover a common word agree on the bits both fix. -/
theorem OpRow.covers_agree {q r : OpRow} {w : StepWord} (hq : q.covers w = true) (hr : r.covers w = true) :
    q.mtch &&& r.mask = r.mtch &&& q.mask := by
  rw [← covers_iff.mp hq, ← covers_iff.mp hr, BitVec.and_assoc, BitVec.and_assoc, BitVec.and_comm q.mask]

/-- A row that covers a word is its operation when what it reads is well-formed: the rows before it do not cover the
word (30_encoding.md R84, R85). -/
theorem decode_of_covers_of_wf {w : StepWord} {k : Nat} {r : OpRow} (hk : opcodeRows[k]? = some r)
    (hc : r.covers w = true) (hwf : (r.op w).wf = true) : decode w = r.op w := by
  refine decode_of_first k hk hc fun q hq => ?_
  obtain ⟨hlt, rfl⟩ := List.getElem?_eq_some_iff.mp hk
  have hlen : opcodeRows.length = 39 := rfl
  obtain hk38 | rfl : k < 38 ∨ k = 38 := by omega
  · obtain ⟨j, hj, rfl⟩ := List.mem_take_iff_getElem.mp hq
    have hpair := List.pairwise_iff_getElem.mp rows_pairwise_disagree_or_not_wf j k
      (by simp; omega) (by simp; omega) (by omega)
    simp only [List.getElem_take] at hpair
    by_contra hcov
    rw [Bool.not_eq_false] at hcov
    obtain hdis | ⟨hmask, hbad⟩ := hpair
    · exact hdis (OpRow.covers_agree hcov hc)
    · have hw := OpRow.covers_iff.mp hcov
      rw [hmask, BitVec.and_allOnes] at hw
      rw [← hw, hwf] at hbad
      cases hbad
  · exact not_covered_of_isIllegalWord hwf q hq

/-- Every instruction stands in a row of the operation map (30_encoding.md R93). -/
theorem inRow_statement : ∀ i : Instr, Laws.InRow.Statement i
  | .rdTick n => Laws.InRow.rdTick n
  | .rdDelay n => Laws.InRow.rdDelay n
  | .rdTarget n => Laws.InRow.rdTarget n
  | .rdCtrl => Laws.InRow.rdCtrl
  | .rdCmd => Laws.InRow.rdCmd
  | .rdStatus => Laws.InRow.rdStatus
  | .rdIen => Laws.InRow.rdIen
  | .rdPend => Laws.InRow.rdPend
  | .rdOvr => Laws.InRow.rdOvr
  | .rdErr => Laws.InRow.rdErr
  | .rdSvcr => Laws.InRow.rdSvcr
  | .rdRsvd o => Laws.InRow.rdRsvd o
  | .rdHref j b => Laws.InRow.rdHref j b
  | .wrTick n v => Laws.InRow.wrTick n v
  | .wrDelay n v => Laws.InRow.wrDelay n v
  | .wrTarget n v => Laws.InRow.wrTarget n v
  | .wrCtrl v => Laws.InRow.wrCtrl v
  | .cmdArm => Laws.InRow.cmdArm
  | .cmdBad v => Laws.InRow.cmdBad v
  | .wrStatus v => Laws.InRow.wrStatus v
  | .wrIen v => Laws.InRow.wrIen v
  | .wrPend v => Laws.InRow.wrPend v
  | .wrOvr v => Laws.InRow.wrOvr v
  | .wrErr v => Laws.InRow.wrErr v
  | .wrSvcr v => Laws.InRow.wrSvcr v
  | .wrRsvd o v => Laws.InRow.wrRsvd o v
  | .wrHref j b v => Laws.InRow.wrHref j b v
  | .evtNone => Laws.InRow.evtNone
  | .evtRaiseTim => Laws.InRow.evtRaiseTim
  | .evtRaiseRtc => Laws.InRow.evtRaiseRtc
  | .evtRaiseExt => Laws.InRow.evtRaiseExt
  | .evtHret => Laws.InRow.evtHret
  | .evtIack => Laws.InRow.evtIack
  | .evtMulti e => Laws.InRow.evtMulti e
  | .intEnter => Laws.InRow.intEnter
  | .intClear => Laws.InRow.intClear
  | .intPoll => Laws.InRow.intPoll
  | .sysReset => Laws.InRow.sysReset
  | .illegal w => Laws.InRow.illegal w

/-- Decoding the canonical word of a well-formed instruction gives it back (30_encoding.md R84, R93). -/
theorem decode_encode {i : Instr} (hwf : i.wf = true) : decode (encode i) = i := by
  obtain ⟨k, r, hk, hc, ho⟩ := inRow_statement i
  rw [decode_of_covers_of_wf hk hc (ho.symm ▸ hwf), ho]

end Sys2Proof

namespace Sys2Proof.Machine

/-! ### The step -/

/-- With no word left the step is refused (00_scope.md R5; log entry 2). -/
theorem step_of_script_nil {s : State} (h : s.script = []) : step s = .refused .endOfScript := by
  unfold step; rw [h]

/-- A step whose next word is the canonical word of a well-formed instruction carries out that instruction. -/
theorem step_of_script_encode {s : State} {i : Instr} {rest : List StepWord} (hwf : i.wf = true)
    (h : s.script = encode i :: rest) : step s = exec i (s.setScript rest) := by
  rw [step_of_script h, decode_encode hwf]

/-- Settles O8: both clauses are read off the inversion lemmas of `exec` and `step`. -/
theorem stepTakesOneWord : Obligations.StepTakesOneWord := by
  refine ⟨fun i s t h => (exec_effect h).2, fun s t h => ?_⟩
  obtain ⟨w, hscript, -, -⟩ := step_effect h
  exact ⟨w, hscript⟩

/-- Settles O7: `step` on a script with a next word and on an empty one, and decoding inverts the encoder on
well-formed instructions. -/
theorem stepRunsDecodedInstruction : Obligations.StepRunsDecodedInstruction :=
  ⟨fun _ _ _ h => step_of_script h, fun _ _ _ hwf h => step_of_script_encode hwf h, fun _ h => step_of_script_nil h⟩

end Sys2Proof.Machine
end

/-! PROOFS. The state (10_state.md): what every step keeps (R43), who writes which field (R24, R31), and the state after
reset (R41). All are read off the effect of an instruction (`exec_effect`, `step_effect`), by cases on `Effect`. -/

section
namespace Sys2Proof.Machine

/-! ### Well-formed states (10_state.md R43) -/

theorem Svc.source?_eq_none (v : Svc) : v.source? = none ↔ v = .idle := by cases v <;> simp [Svc.source?]

/-- R43 (b) holds of every state: a pair `(s,k)` outside the handler lists cannot be written (log entry 12). -/
theorem Block.handlerInList_eq_true (b : Block) : b.handlerInList = true := by
  unfold Block.handlerInList
  split
  · exact decide_eq_true (Handler.step_lt_nh _)
  · rfl

/-- R43 (a) to (d) by the source in service: its flag is set, no re-test is outstanding and the table is locked; and an
enabled source has the table locked. -/
theorem Block.wf_iff (b : Block) : b.wf = true ↔
    (∀ s, b.svc.source? = some s → flag b.pend s = true ∧ b.ws ≠ .check ∧ b.lock = true) ∧
    (b.ien ≠ 0 → b.lock = true) := by
  unfold Block.wf Block.servedIsPending Block.checkOutsideService Block.lockedBeforeUse
  simp only [b.handlerInList_eq_true, Bool.and_true]
  cases hs : b.svc.source? with
  | none =>
    rw [(Svc.source?_eq_none _).mp hs]
    simp [or_iff_not_imp_left]
  | some s =>
    have hidle : (b.svc == .idle) = false := beq_false_of_ne fun h => by rw [h] at hs; cases hs
    simp [hidle, or_iff_not_imp_left, and_assoc]

/-- Well-formedness speaks of `SVC`, `PEND`, `WS`, `LOCK` and `IEN` only. -/
theorem Block.wf_congr {a b : Block} (hsvc : b.svc = a.svc) (hpend : b.pend = a.pend) (hws : b.ws = a.ws)
    (hlock : b.lock = a.lock) (hien : b.ien = a.ien) (h : a.wf = true) : b.wf = true := by
  rw [Block.wf_iff] at h ⊢
  rwa [hsvc, hpend, hws, hlock, hien]

/-- Without a service a state is well-formed as soon as an enabled source has the table locked. -/
theorem Block.wf_of_idle {b : Block} (hsvc : b.svc = .idle) (h : b.ien ≠ 0 → b.lock = true) : b.wf = true :=
  b.wf_iff.mpr ⟨fun s hs => (by rw [hsvc] at hs; cases hs), h⟩

/-- An event word keeps the source in service, or acknowledges one that is pending and enabled, outside `W_CHECK`. -/
theorem Block.events_source?_cases (b : Block) (e : BitVec 5) :
    (b.events e).svc.source? = b.svc.source? ∨
    ∃ s, (b.events e).svc.source? = some s ∧ flag (b.events e).pend s = true ∧ b.ws ≠ .check ∧ b.ien ≠ 0 := by
  obtain h | ⟨-, h, k, hsvc, hnext, hk⟩ | ⟨-, h, hsvc, -, hclr⟩ | ⟨-, -, hws, s, hack, hpend, hien⟩ :=
    b.events_svc_cases e
  · exact .inl (by rw [h])
  · exact .inl (by simp [hk, hsvc, Svc.source?, (Handler.next?_some hnext).1])
  · exact .inl (by simp [hclr, hsvc, Svc.source?])
  · exact .inr ⟨s, by rw [hack]; rfl, hpend, hws, (flags_ne_zero _).mpr ⟨s, hien⟩⟩

theorem Block.wf_events {b : Block} (e : BitVec 5) (h : b.wf = true) : (b.events e).wf = true := by
  rw [Block.wf_iff] at h ⊢
  obtain ⟨hserved, hien⟩ := h
  simp only [Block.events_ws, Block.events_lock, Block.events_ien]
  refine ⟨fun s hs => ?_, hien⟩
  obtain hsame | ⟨q, hq, hpend, hws, hen⟩ := b.events_source?_cases e
  · obtain ⟨hpend, hws, hlock⟩ := hserved s (hsame ▸ hs)
    exact ⟨by rw [Block.flag_events_pend, hpend, Bool.true_or], hws, hlock⟩
  · obtain rfl : q = s := Option.some.inj (hq.symm.trans hs)
    exact ⟨hpend, hws, hien hen⟩

/-- `ENTER` dispatches a handler of the source that was acknowledged. -/
theorem Block.wf_enter {b : Block} {s : Source} (hs : b.svc = .ack s) (h : b.wf = true) : (b.enter s).wf = true := by
  rw [Block.wf_iff] at h ⊢
  simpa [hs, Svc.source?] using h

/-- `POLL` leaves `W_CHECK`. -/
theorem Block.wf_poll {b : Block} (h : b.wf = true) : b.poll.wf = true := by
  rw [Block.wf_iff] at h ⊢
  obtain ⟨hserved, hien⟩ := h
  have hws : b.poll.ws ≠ .check := by rw [Block.poll_ws]; split <;> nofun
  refine ⟨fun s hs => ?_, by simpa using hien⟩
  obtain ⟨hpend, -, hlock⟩ := hserved s (by simpa using hs)
  exact ⟨by simpa using hpend, hws, by simpa using hlock⟩

/-- Every effect keeps well-formedness (10_state.md R43). -/
theorem Effect.wf {i : Instr} {a b : Block} (h : Effect i a b) (hwf : a.wf = true) : b.wf = true := by
  obtain ⟨hserved, hien⟩ := a.wf_iff.mp hwf
  cases h with
  | same => exact hwf
  | error c => exact Block.wf_congr (by simp) (by simp) (by simp) (by simp) (by simp) hwf
  | delay | href => exact Block.wf_congr rfl rfl rfl rfl rfl hwf
  | ctrl =>
    refine (Block.wf_iff _).mpr ⟨fun s hs => ?_, fun hen => by simp [hien hen]⟩
    obtain ⟨hpend, hws, hlock⟩ := hserved s hs
    exact ⟨hpend, hws, by simp [hlock]⟩
  | ien hl => exact (Block.wf_iff _).mpr ⟨hserved, hl.resolve_left⟩
  | arm hsvc => exact Block.wf_of_idle hsvc hien
  | events e => exact Block.wf_events e hwf
  | enter s hs => exact Block.wf_enter hs hwf
  | clear s => exact Block.wf_of_idle rfl hien
  | poll => exact Block.wf_poll hwf
  | reset => exact Block.wf_of_idle rfl (absurd rfl)

/-- Settles O33: by cases on the effect of the step. -/
theorem stepKeepsWellFormed : Obligations.StepKeepsWellFormed := by
  intro s t hwf hstep
  obtain ⟨w, -, -, heff⟩ := step_effect hstep
  exact heff.wf hwf

/-- Settles O34: no service runs and no source is enabled. -/
theorem resetStateIsWellFormed : Obligations.ResetStateIsWellFormed :=
  Block.wf_of_idle rfl (absurd rfl)

/-! ### Records that stay until reset (10_state.md R43 (e)) -/

/-- The first error stays (60_exceptions.md R203). -/
theorem Effect.err_of_ne_zero {i : Instr} {a b : Block} (h : Effect i a b) (hr : i ≠ .sysReset) (herr : a.err ≠ 0) :
    b.err = a.err := by
  cases h with
  | error c => rw [Block.recordErr_err, if_neg herr]
  | events e => rw [Block.events_err_eq, if_neg fun ⟨_, _, hzero⟩ => herr hzero]
  | reset => exact absurd rfl hr
  | _ => simp

/-- A set `LOCK` stays, and the table it locks does not change (10_state.md R29, 20_memory.md R74). -/
theorem Effect.lock_and_href {i : Instr} {a b : Block} (h : Effect i a b) (hr : i ≠ .sysReset)
    (hlock : a.lock = true) : b.lock = true ∧ b.href = a.href := by
  cases h with
  | href hunlocked => rw [hlock] at hunlocked; cases hunlocked
  | reset => exact absurd rfl hr
  | _ => simp [hlock]

/-- An overrun once recorded stays (10_state.md R32, R43 (e); log entry 20). -/
theorem Effect.flag_ovr {i : Instr} {a b : Block} (h : Effect i a b) (hr : i ≠ .sysReset) {src : Source}
    (hovr : flag a.ovr src = true) : flag b.ovr src = true := by
  cases h with
  | events e => rw [Block.flag_events_ovr, hovr, Bool.true_or]
  | reset => exact absurd rfl hr
  | _ => simpa using hovr

/-- Settles O35: the three records, each by cases on the effect. -/
theorem recordsStickUntilReset : Obligations.RecordsStickUntilReset := by
  intro i s t hexec hr
  obtain ⟨heff, -⟩ := exec_effect hexec
  exact ⟨heff.err_of_ne_zero hr, heff.lock_and_href hr, fun _ => heff.flag_ovr hr⟩

/-! ### The writers of the data registers (10_state.md R24) -/

theorem Effect.delay_eq_or_wrDelay {i : Instr} {a b : Block} (h : Effect i a b) (hr : i ≠ .sysReset) :
    b.delay = a.delay ∨ ∃ n v, i = .wrDelay n v := by
  cases h with
  | delay => exact .inr ⟨_, _, rfl⟩
  | reset => exact absurd rfl hr
  | _ => exact .inl (by simp)

theorem Effect.target_eq_or_cmdArm {i : Instr} {a b : Block} (h : Effect i a b) (hr : i ≠ .sysReset) :
    b.target = a.target ∨ (i = .cmdArm ∧ b.target = a.tick + a.delay) := by
  cases h with
  | arm => exact .inr ⟨rfl, rfl⟩
  | reset => exact absurd rfl hr
  | _ => exact .inl (by simp)

theorem Effect.tick_eq_or_intEnter {i : Instr} {a b : Block} (h : Effect i a b) (hr : i ≠ .sysReset) :
    b.tick = a.tick ∨ (i = .intEnter ∧ a.svc = .ack .tim ∧ b.tick = a.tick + 1) := by
  rw [h.tick hr]
  split
  case isTrue hadv => exact .inr ⟨hadv.1, hadv.2, rfl⟩
  case isFalse => exact .inl rfl

/-- Settles O36: each data register by cases on the effect. -/
theorem dataRegistersHaveOneWriter : Obligations.DataRegistersHaveOneWriter := by
  intro i s t hexec hr
  obtain ⟨heff, -⟩ := exec_effect hexec
  exact ⟨heff.tick_eq_or_intEnter hr, heff.delay_eq_or_wrDelay hr, heff.target_eq_or_cmdArm hr⟩

/-! ### The pending flags (10_state.md R31) -/

/-- What a step does to a pending flag: it raises it, or it is the `INT.CLEAR` of its service and lowers it, or the flag
stays (42_interrupt_router.md R143, R151). -/
theorem Effect.flag_pend {i : Instr} {a b : Block} (h : Effect i a b) (hr : i ≠ .sysReset) (src : Source) :
    (i.raises src = true ∧ flag b.pend src = true) ∨
    (i = .intClear ∧ a.svc = .clr src ∧ flag b.pend src = false) ∨
    flag b.pend src = flag a.pend src := by
  cases h with
  | events e _ hbits =>
    rw [Block.flag_events_pend, ← hbits]
    cases hraise : i.eventBits.getLsbD src.index
    · exact .inr (.inr (by simp))
    · exact .inl ⟨hraise, by simp⟩
  | clear s hs =>
    by_cases heq : src = s
    · subst heq
      exact .inr (.inl ⟨rfl, hs, by simp⟩)
    · exact .inr (.inr (by simp [heq]))
  | reset => exact absurd rfl hr
  | _ => exact .inr (.inr (by simp))

/-- Settles O52: from what the effect does to the flag; a source that is not pending does not request. -/
theorem pendingFlagMoves : Obligations.PendingFlagMoves := by
  intro i s t src hexec hr
  obtain ⟨heff, -⟩ := exec_effect hexec
  obtain ⟨hraise, hset⟩ | ⟨hclear, hsvc, hlowered⟩ | hsame := heff.flag_pend hr src
  · exact ⟨fun _ _ => hraise, fun _ hfall => by rw [hset] at hfall; cases hfall⟩
  · refine ⟨fun _ hrise => ?_, fun _ hfall => ⟨hclear, hsvc, by rw [Block.flag_req, hfall, Bool.false_and]⟩⟩
    rw [hlowered] at hrise
    cases hrise
  · rw [hsame]
    exact ⟨fun hlow hhigh => absurd hhigh (Bool.eq_false_iff.mp hlow),
      fun hhigh hlow => absurd hhigh (Bool.eq_false_iff.mp hlow)⟩

/-! ### The status bytes (10_state.md R38, R39) -/

/-- The word number `0x100 * OFF + DATA` is the bus read of `OFF` (30_encoding.md R81). -/
theorem ofNat_readWord {n : Nat} (off : BitVec 5) (hn : n = 0x100 * off.toNat) (d : Byte) :
    BitVec.ofNat 16 (n + d.toNat) = busWord false off d := by
  simpa [hn] using ofNat_busWord false off d

theorem decode_statusWord (d : Byte) : decode (BitVec.ofNat 16 (0x0E00 + d.toNat)) = .rdStatus := by
  rw [ofNat_readWord (n := 0x0E00) 0x0E rfl]
  exact decode_busWord 5 _ rfl (by decide) (by decide) (by decide) rfl

theorem decode_svcrWord (d : Byte) : decode (BitVec.ofNat 16 (0x1300 + d.toNat)) = .rdSvcr := by
  rw [ofNat_readWord (n := 0x1300) 0x13 rfl]
  exact decode_busWord 10 _ rfl (by decide) (by decide) (by decide) rfl

/-- The bits of `STATUS`, WAIT first (10_state.md R38). -/
theorem Block.statusByte_getLsbD (b : Block) :
    b.statusByte.getLsbD 0 = b.waitBusy ∧ b.statusByte.getLsbD 1 = (b.ws == .halt) ∧
    b.statusByte.getLsbD 2 = b.matches ∧ b.statusByte.getLsbD 3 = b.reached ∧
    b.statusByte.getLsbD 4 = b.inSvc ∧ b.statusByte.getLsbD 5 = (b.req != 0) ∧
    b.statusByte.getLsbD 6 = false ∧ b.statusByte.getLsbD 7 = false := by
  unfold Block.statusByte
  generalize (b.req != 0) = req, b.inSvc = insvc, b.reached = reached, b.matches = mtch, (b.ws == .halt) = halt,
    b.waitBusy = wait
  revert req insvc reached mtch halt wait
  decide

/-- Some source is pending and enabled exactly when `req` is not 0 (42_interrupt_router.md R142). -/
theorem Block.req_bne_zero_iff (b : Block) :
    (b.req != 0) = true ↔ ∃ src, flag b.pend src = true ∧ flag b.ien src = true := by
  simp only [bne_iff_ne, flags_ne_zero, Block.flag_req, Bool.and_eq_true]

/-- Settles O11: the byte is `statusByte`, read bit by bit. -/
theorem statusReadReportsComparator : Obligations.StatusReadReportsComparator := by
  refine ⟨decode_statusWord, fun s => ⟨s.blk.statusByte, rfl, ?_⟩⟩
  obtain ⟨hwait, hhalt, hmatch, hreached, hinsvc, hreq, h6, h7⟩ := s.blk.statusByte_getLsbD
  rw [hwait, hhalt, hmatch, hreached, hinsvc, hreq]
  exact ⟨bne_iff_ne, beq_iff_eq, s.blk.matches_iff, s.blk.reached_iff, bne_iff_ne, s.blk.req_bne_zero_iff, h6, h7⟩

/-- Settles O12: the byte is `svcrByte`, one case per state of the service sequencer. -/
theorem svcrReadReportsService : Obligations.SvcrReadReportsService := by
  refine ⟨decode_svcrWord, fun s => ⟨s.blk.svcrByte, rfl, ?_⟩⟩
  unfold Block.svcrByte
  cases s.blk.svc with
  | idle => rfl
  | ack src => cases src <;> rfl
  | hnd h => cases h <;> rfl
  | clr src => cases src <;> rfl

/-! ### The state after reset (10_state.md R41) -/

/-- Settles O32: reset answers the reset record from every state, and its status bytes and outputs are computed. -/
theorem resetSetsEveryField : Obligations.ResetSetsEveryField := by
  refine ⟨decode_encode (i := .sysReset) rfl, fun s => rfl, fun s t h => ?_⟩
  cases h
  simp only [State.quietStep_blk, State.reset_blk]
  decide

end Sys2Proof.Machine
end

/-! PROOFS. The register window (20_memory.md): what a bus read and a bus write at an offset do by the map of R67, which
accesses may be repeated (R66), and what each class of steps leaves unchanged. -/

section
namespace Sys2Proof

/-! ### On a read `DATA` is ignored (30_encoding.md R86) -/

theorem fieldN_busWord (we : Bool) (off : BitVec 5) (d : Byte) : fieldN (busWord we off d) = Machine.offByte off :=
  congrArg BitVec.toFin (extract_busWord we off d 0 2 (by decide))

theorem fieldJ_busWord (we : Bool) (off : BitVec 5) (d : Byte) : fieldJ (busWord we off d) = Machine.offSlot off :=
  congrArg Slot.ofIndex (extract_busWord we off d 1 2 (by decide))

theorem fieldB_busWord (we : Bool) (off : BitVec 5) (d : Byte) : fieldB (busWord we off d) = Machine.offRefByte off :=
  congrArg RefByte.ofIndex (extract_busWord we off d 0 1 (by decide))

/-- The operation a read row spells is read off the offset alone. -/
theorem readRow_op {r : OpRow} (hr : r ∈ busReadRows) (off : BitVec 5) (d d' : Byte) :
    r.op (busWord false off d) = r.op (busWord false off d') := by
  revert r
  simp [busReadRows, fieldN_busWord, fieldJ_busWord, fieldB_busWord]

/-- A read row looks at the high byte of a word only. -/
theorem readRow_covers {r : OpRow} (hr : r ∈ busReadRows) (off : BitVec 5) (d : Byte) :
    r.covers (busWord false off d) = r.coversHi (0b00#2 ++ BitVec.ofBool false ++ off) := by
  have hlo : ∀ r ∈ busReadRows, r.mask.extractLsb' 0 8 = 0 ∧ r.mtch.extractLsb' 0 8 = 0 := by decide
  rw [busWord_eq, OpRow.covers_append]
  simp [OpRow.coversLo, hlo r hr]

/-- Every offset has a read row (20_memory.md R67). -/
theorem exists_readRow : ∀ off : BitVec 5,
    ∃ r ∈ busReadRows, r.coversHi (0b00#2 ++ BitVec.ofBool false ++ off) = true := by decide

/-- The first row that covers a read word is a read row, chosen by the offset. -/
theorem find?_readWord (off : BitVec 5) (d : Byte) :
    opcodeRows.find? (fun r => r.covers (busWord false off d)) =
      busReadRows.find? (fun r => r.coversHi (0b00#2 ++ BitVec.ofBool false ++ off)) := by
  have hread : busReadRows.find? (fun r => r.covers (busWord false off d)) =
      busReadRows.find? (fun r => r.coversHi (0b00#2 ++ BitVec.ofBool false ++ off)) :=
    List.find?_congr fun r hr => readRow_covers hr off d
  obtain ⟨r, hr⟩ := Option.isSome_iff_exists.mp (List.find?_isSome.mpr (exists_readRow off))
  simp only [opcodeRows, List.find?_append, hread, hr, Option.some_or]

/-- On a read `DATA` is ignored (30_encoding.md R86). -/
theorem decode_readWord_data (off : BitVec 5) (d d' : Byte) :
    decode (busWord false off d) = decode (busWord false off d') := by
  obtain ⟨r, hr⟩ := Option.isSome_iff_exists.mp (List.find?_isSome.mpr (exists_readRow off))
  unfold decode
  simp only [find?_readWord, hr]
  exact readRow_op (List.mem_of_find?_eq_some hr) off d d'

/-- A read word decodes to the read whose canonical word has its offset. -/
theorem decode_readWord {i : Instr} {off : BitVec 5} (hwf : i.wf = true) (henc : encode i = busWord false off 0x00)
    (d : Byte) : decode (busWord false off d) = i := by
  rw [decode_readWord_data off d 0x00, ← henc, decode_encode hwf]

end Sys2Proof

namespace Sys2Proof.Machine

/-! ### The map of the window (20_memory.md R67)

`memRead` and `memWrite` at the offsets of a multi-byte register; at the offset of a one-byte register they compute. -/

@[simp] theorem offGroup_wordOff (g : BitVec 3) (n : Fin 4) : offGroup (wordOff g n) = g := by
  revert g n; decide
@[simp] theorem offByte_wordOff (g : BitVec 3) (n : Fin 4) : offByte (wordOff g n) = n := by
  revert g n; decide
@[simp] theorem offSlot_hrefOff (j : Slot) (p : RefByte) : offSlot (hrefOff j p) = j := by
  cases j <;> cases p <;> rfl
@[simp] theorem offRefByte_hrefOff (j : Slot) (p : RefByte) : offRefByte (hrefOff j p) = p := by
  cases j <;> cases p <;> rfl

theorem offGroup_hrefOff (j : Slot) (p : RefByte) : offGroup (hrefOff j p) = 6 ∨ offGroup (hrefOff j p) = 7 := by
  cases j <;> cases p <;> decide

section Map
variable (n : Fin 4) (j : Slot) (p : RefByte) (v : Byte) (b : Block)

theorem memRead_tick : memRead (wordOff 0 n) b = .ok (wordByte b.tick n) := by simp [memRead]
theorem memRead_delay : memRead (wordOff 1 n) b = .ok (wordByte b.delay n) := by simp [memRead]
theorem memRead_target : memRead (wordOff 2 n) b = .ok (wordByte b.target n) := by simp [memRead]
theorem memRead_rsvd : memRead (wordOff 5 n) b = .error .rsvdAddr := by simp [memRead]
theorem memRead_href : memRead (hrefOff j p) b = .ok (refByte (b.href.get j) p) := by
  obtain h | h := offGroup_hrefOff j p <;> simp [memRead, h]

theorem memWrite_tick : memWrite (wordOff 0 n) v b = .error .readOnly := by simp [memWrite]
theorem memWrite_delay : memWrite (wordOff 1 n) v b = writeDelay n v b := by simp [memWrite]
theorem memWrite_target : memWrite (wordOff 2 n) v b = .error .readOnly := by simp [memWrite]
theorem memWrite_rsvd : memWrite (wordOff 5 n) v b = .error .rsvdAddr := by simp [memWrite]
theorem memWrite_href : memWrite (hrefOff j p) v b = writeHref j p v b := by
  obtain h | h := offGroup_hrefOff j p <;> simp [memWrite, h]

end Map

theorem offGroup_eq_five_iff : ∀ off : BitVec 5, (offGroup off).toFin = 5 ↔ off.toNat / 4 = 5 := by decide

/-- Only a read at a reserved offset raises, whatever the state (20_memory.md R64, R68). -/
theorem memRead_eq_error_iff {off : BitVec 5} {b : Block} {c : ErrCode} :
    memRead off b = .error c ↔ off.toNat / 4 = 5 ∧ c = .rsvdAddr := by
  rw [← offGroup_eq_five_iff]
  constructor
  · intro h
    unfold memRead at h
    split at h
    case h_4 => split at h <;> cases h
    case h_5 => split at h <;> cases h
    case h_6 hgroup => cases h; exact ⟨hgroup, rfl⟩
    all_goals cases h
  · rintro ⟨hgroup, rfl⟩
    unfold memRead
    rw [hgroup]
    rfl

/-! ### Bus transactions at an offset (20_memory.md R64, R65) -/

/-- A read word answers what the map says when its read does. -/
theorem exec_readWord_of {i : Instr} {off : BitVec 5} {r : Except ErrCode Byte} {s : State} (hwf : i.wf = true)
    (henc : encode i = busWord false off 0x00) (hexec : exec i s = .next (s.busRead r)) (hmap : memRead off s.blk = r)
    (d : Byte) : exec (decode (busWord false off d)) s = .next (s.busRead (memRead off s.blk)) := by
  rw [decode_readWord hwf henc, hexec, hmap]

/-- The bus read at an offset, by its row of the map (20_memory.md R67). -/
theorem exec_readWord (off : BitVec 5) (d : Byte) (s : State) :
    exec (decode (busWord false off d)) s = .next (s.busRead (memRead off s.blk)) := by
  obtain ⟨n, rfl⟩ | ⟨n, rfl⟩ | ⟨n, rfl⟩ | rfl | rfl | rfl | rfl | rfl | rfl | rfl | rfl | ⟨n, rfl⟩ | ⟨x, y, rfl⟩ :=
    offset_cases off
  · exact exec_readWord_of (i := .rdTick n) rfl rfl rfl (memRead_tick n _) d
  · exact exec_readWord_of (i := .rdDelay n) rfl rfl rfl (memRead_delay n _) d
  · exact exec_readWord_of (i := .rdTarget n) rfl rfl rfl (memRead_target n _) d
  · exact exec_readWord_of (i := .rdCtrl) rfl rfl rfl rfl d
  · exact exec_readWord_of (i := .rdCmd) rfl rfl rfl rfl d
  · exact exec_readWord_of (i := .rdStatus) rfl rfl rfl rfl d
  · exact exec_readWord_of (i := .rdIen) rfl rfl rfl rfl d
  · exact exec_readWord_of (i := .rdPend) rfl rfl rfl rfl d
  · exact exec_readWord_of (i := .rdOvr) rfl rfl rfl rfl d
  · exact exec_readWord_of (i := .rdErr) rfl rfl rfl rfl d
  · exact exec_readWord_of (i := .rdSvcr) rfl rfl rfl rfl d
  · exact exec_readWord_of (i := .rdRsvd n) rfl rfl rfl (memRead_rsvd n _) d
  · exact exec_readWord_of (i := .rdHref _ _) rfl rfl rfl (memRead_href _ _ _) d

/-- A write word answers what the map says when its write does. -/
theorem exec_writeWord_of {i : Instr} {off : BitVec 5} {v : Byte} {r : Except ErrCode Block} {s : State}
    (hwf : i.wf = true) (henc : encode i = busWord true off v) (hexec : exec i s = .next (s.busWrite r))
    (hmap : memWrite off v s.blk = r) :
    exec (decode (busWord true off v)) s = .next (s.busWrite (memWrite off v s.blk)) := by
  rw [← henc, decode_encode hwf, hexec, hmap]

/-- The bus write at an offset, by its row of the map (20_memory.md R67); at `CMD` by the byte (41_deadline_wait.md
R128, R137). -/
theorem exec_writeWord (off : BitVec 5) (v : Byte) (s : State) :
    exec (decode (busWord true off v)) s = .next (s.busWrite (memWrite off v s.blk)) := by
  obtain ⟨n, rfl⟩ | ⟨n, rfl⟩ | ⟨n, rfl⟩ | rfl | rfl | rfl | rfl | rfl | rfl | rfl | rfl | ⟨n, rfl⟩ | ⟨x, y, rfl⟩ :=
    offset_cases off
  · exact exec_writeWord_of (i := .wrTick n v) rfl rfl rfl (memWrite_tick n v _)
  · exact exec_writeWord_of (i := .wrDelay n v) rfl rfl rfl (memWrite_delay n v _)
  · exact exec_writeWord_of (i := .wrTarget n v) rfl rfl rfl (memWrite_target n v _)
  · exact exec_writeWord_of (i := .wrCtrl v) rfl rfl rfl rfl
  · by_cases hv : v = 0x01
    · subst hv
      exact exec_writeWord_of (i := .cmdArm) rfl rfl rfl rfl
    · exact exec_writeWord_of (i := .cmdBad v) (bne_iff_ne.mpr hv) rfl rfl (if_neg hv)
  · exact exec_writeWord_of (i := .wrStatus v) rfl rfl rfl rfl
  · exact exec_writeWord_of (i := .wrIen v) rfl rfl rfl rfl
  · exact exec_writeWord_of (i := .wrPend v) rfl rfl rfl rfl
  · exact exec_writeWord_of (i := .wrOvr v) rfl rfl rfl rfl
  · exact exec_writeWord_of (i := .wrErr v) rfl rfl rfl rfl
  · exact exec_writeWord_of (i := .wrSvcr v) rfl rfl rfl rfl
  · exact exec_writeWord_of (i := .wrRsvd n v) rfl rfl rfl (memWrite_rsvd n v _)
  · exact exec_writeWord_of (i := .wrHref _ _ v) rfl rfl rfl (memWrite_href _ _ v _)

/-- BusError of a read, as claims write it (60_exceptions.md R200). -/
theorem State.busRead_error_eq (s : State) (c : ErrCode) :
    s.busRead (.error c) = { s with blk := s.blk.withFirstError c.code, busOut := .read 0x00 true } := by
  rw [← Block.recordErr_eq]; rfl

/-- BusError of a write, as claims write it (60_exceptions.md R200). -/
theorem State.busWrite_error_eq (s : State) (c : ErrCode) :
    s.busWrite (.error c) = { s with blk := s.blk.withFirstError c.code, busOut := .write true } := by
  rw [← Block.recordErr_eq]; rfl

/-- Settles O18: the read of each row of the map, which raises at a reserved offset only. -/
theorem busReadsFollowTheMap : Obligations.BusReadsFollowTheMap := by
  intro off d s
  have hexec := exec_readWord off d s
  cases hmap : memRead off s.blk with
  | ok v => rwa [hmap] at hexec
  | error c =>
    obtain ⟨hoff, rfl⟩ := memRead_eq_error_iff.mp hmap
    rw [hmap, State.busRead_error_eq] at hexec
    exact ⟨hoff, rfl, hexec⟩

/-- Settles O19: the write of each row of the map. -/
theorem busWritesFollowTheMap : Obligations.BusWritesFollowTheMap := by
  intro off v s
  have hexec := exec_writeWord off v s
  cases hmap : memWrite off v s.blk with
  | ok b => rwa [hmap] at hexec
  | error c => rwa [hmap, State.busWrite_error_eq] at hexec

/-! ### The reserved offsets (20_memory.md R68) -/

theorem ofNat_rsvdOff : ∀ o : Fin 4, BitVec.ofNat 5 (0x14 + o.val) = wordOff 5 o := by decide

/-- Settles O14: decoding at the four offsets, and the error case of the bus operations with code 1. -/
theorem reservedOffsetsRaise : Obligations.ReservedOffsetsRaise := by
  refine ⟨fun o d => ?_, fun o v s => ⟨?_, ?_⟩⟩
  · rw [ofNat_rsvdOff]
    exact ⟨decode_readWord (i := .rdRsvd o) rfl rfl d, decode_encode (i := .wrRsvd o d) rfl⟩
  · exact congrArg Host.Outcome.next (s.busRead_error_eq .rsvdAddr)
  · exact congrArg Host.Outcome.next (s.busWrite_error_eq .rsvdAddr)

/-! ### Repeated accesses (20_memory.md R66) -/

/-- A second read of the same offset finds the same byte and the same record. -/
theorem State.busRead_busRead (s : State) (off : BitVec 5) :
    (s.busRead (memRead off s.blk)).busRead (memRead off (s.busRead (memRead off s.blk)).blk) =
      s.busRead (memRead off s.blk) := by
  cases hmap : memRead off s.blk with
  | ok v => simp [hmap, State.setBusOut]
  | error c =>
    have hagain : memRead off (s.blk.recordErr c) = .error c := memRead_eq_error_iff.mpr (memRead_eq_error_iff.mp hmap)
    simp [hagain, State.setBusOut, State.setBlk]

/-- A write effect that may be repeated: on the state it leaves, and on one that only recorded its error, it does the
same again. -/
def WriteRepeats (f : Block → Except ErrCode Block) : Prop :=
  (∀ a b, f a = .ok b → f b = .ok b) ∧ ∀ a c, f a = .error c → f (a.recordErr c) = .error c

/-- Writing twice an effect that may be repeated leaves the record of the first write. -/
theorem WriteRepeats.busWrite_blk {f : Block → Except ErrCode Block} (hf : WriteRepeats f) (s : State) :
    ((s.busWrite (f s.blk)).busWrite (f (s.busWrite (f s.blk)).blk)).blk = (s.busWrite (f s.blk)).blk := by
  obtain ⟨hok, herr⟩ := hf
  cases hfirst : f s.blk with
  | ok b => simp [hok _ _ hfirst]
  | error c => simp [herr _ _ hfirst]

/-- Replacing a byte of a data register twice by the same byte is replacing it once. -/
theorem setWordByte_setWordByte (x : Word) (n : Fin 4) (v : Byte) :
    setWordByte (setWordByte x n v) n v = setWordByte x n v := by
  unfold setWordByte
  generalize ~~~(0xFF#32 <<< (8 * n.val)) = keep, v.setWidth 32 <<< (8 * n.val) = byte
  ext k
  simp only [BitVec.getElem_or, BitVec.getElem_and]
  cases keep[k] <;> simp

/-- Replacing a byte of a handler reference twice by the same byte is replacing it once. -/
theorem setRefByte_setRefByte (h : HandlerRef) (p : RefByte) (v : Byte) :
    setRefByte (setRefByte h p v) p v = setRefByte h p v := by
  cases p
  · exact congrArg (· ++ v) BitVec.extractLsb'_append_eq_left
  · exact congrArg (v ++ ·) BitVec.extractLsb'_append_eq_right

@[simp] theorem HandlerTable.get_set (t : HandlerTable) (j : Slot) (h : HandlerRef) : (t.set j h).get j = h := by
  cases j <;> rfl
@[simp] theorem HandlerTable.set_set (t : HandlerTable) (j : Slot) (h h' : HandlerRef) :
    (t.set j h).set j h' = t.set j h' := by
  cases j <;> rfl

/-- A guarded write may be repeated when its effect does not close the guard and is the same applied twice. -/
theorem WriteRepeats.of_guard {f : Block → Except ErrCode Block} {refused : Block → Prop} {g : Block → Block}
    {c : ErrCode} [DecidablePred refused] (hf : ∀ a, f a = if refused a then .error c else .ok (g a))
    (hguard : ∀ a, refused (g a) → refused a) (hrecord : ∀ a c', refused a → refused (a.recordErr c'))
    (htwice : ∀ a, g (g a) = g a) : WriteRepeats f := by
  refine ⟨fun a b h => ?_, fun a c' h => ?_⟩
  · rw [hf] at h
    split at h
    · cases h
    next hopen => cases h; rw [hf, if_neg (mt (hguard a) hopen), htwice]
  · rw [hf] at h
    split at h
    next hshut => cases h; rw [hf, if_pos (hrecord a _ hshut)]
    · cases h

theorem writeDelay_repeats (n : Fin 4) (v : Byte) : WriteRepeats (writeDelay n v) :=
  .of_guard (refused := fun a => a.ws ≠ .idle) (fun _ => rfl) (fun _ => id) (by simp)
    fun a => by simp [setWordByte_setWordByte, Block.setDelay]

theorem writeCtrl_repeats (v : Byte) : WriteRepeats (writeCtrl v) :=
  .of_guard (refused := fun a => a.ws ≠ .idle) (fun _ => rfl) (fun _ => id) (by simp)
    fun a => by simp [Block.setOrd, Block.setLock]

theorem writeIen_repeats (v : Byte) : WriteRepeats (writeIen v) :=
  .of_guard (refused := fun a => v.extractLsb' 0 3 ≠ 0 ∧ a.lock = false) (fun _ => rfl) (fun _ => id) (by simp)
    fun _ => rfl

theorem writeHref_repeats (j : Slot) (p : RefByte) (v : Byte) : WriteRepeats (writeHref j p v) :=
  .of_guard (refused := fun a => a.lock = true) (fun _ => rfl) (fun _ => id) (by simp)
    fun a => by simp [setRefByte_setRefByte, Block.setHref]

/-- An accepted `ARM` starts a wait, so a second one raises BUSY (41_deadline_wait.md R128). -/
theorem writeArm_arm {b : Block} (hsvc : b.svc = .idle) : writeArm b.arm = .error .busy := by
  simp [writeArm, hsvc]

theorem writeArm_of_idle {b : Block} (hsvc : b.svc = .idle) (hws : b.ws = .idle) : writeArm b = .ok b.arm := by
  simp [writeArm, hsvc, hws]

/-- Settles O56: a read again, the four writes with a repeatable effect, and `ARM` after `ARM`. -/
theorem repeatedAccessesAreIdempotent : Obligations.RepeatedAccessesAreIdempotent := by
  refine ⟨fun off d s t u ht hu => ?_, fun i s t u hi ht hu => ?_, fun s t hsvc hws ht => ?_⟩
  · rw [exec_readWord] at ht hu
    cases ht; cases hu
    rw [State.busRead_busRead]
    exact ⟨rfl, rfl⟩
  · obtain ⟨n, v, rfl⟩ | ⟨v, rfl⟩ | ⟨v, rfl⟩ | ⟨j, p, v, rfl⟩ := hi <;> cases ht <;> cases hu
    · exact (writeDelay_repeats n v).busWrite_blk s
    · exact (writeCtrl_repeats v).busWrite_blk s
    · exact (writeIen_repeats v).busWrite_blk s
    · exact (writeHref_repeats j p v).busWrite_blk s
  · have hfirst : t.blk = s.blk.arm := by
      cases ht
      rw [writeArm_of_idle hsvc hws]; rfl
    have hbusy : writeArm t.blk = .error .busy := by rw [hfirst, writeArm_arm hsvc]
    calc exec .cmdArm t = .next (t.busWrite (writeArm t.blk)) := rfl
      _ = _ := by rw [hbusy, State.busWrite_error_eq]; rfl

/-! ### The frame of each class of steps (20_memory.md R65) -/

/-- A bus transaction writes no `TICK`, `PEND`, `OVR` or `SVC`. -/
theorem Effect.bus_frame {i : Instr} {a b : Block} (h : Effect i a b) (hb : i.isBus = true) :
    b.tick = a.tick ∧ b.pend = a.pend ∧ b.ovr = a.ovr ∧ b.svc = a.svc := by
  cases h with
  | events e hnb => rw [hnb] at hb; cases hb
  | enter | clear | poll | reset => cases hb
  | _ => simp

/-- An event or internal step writes no `DELAY`, `TARGET`, `ORD`, `LOCK`, `IEN` or `HREF`. -/
theorem Effect.nonbus_frame {i : Instr} {a b : Block} (h : Effect i a b) (hb : i.isBus = false) (hr : i ≠ .sysReset) :
    b.delay = a.delay ∧ b.target = a.target ∧ b.ord = a.ord ∧ b.lock = a.lock ∧ b.ien = a.ien ∧ b.href = a.href := by
  cases h with
  | events | enter | clear | poll => simp
  | reset => exact absurd rfl hr
  | same hbus | error _ hbus => rw [hb] at hbus; cases hbus
  | delay | ctrl | ien | href | arm => cases hb

/-- An event word writes no `TICK` or `WS` (42_interrupt_router.md R143, R146, R150). -/
theorem Effect.event_frame {i : Instr} {a b : Block} (h : Effect i a b)
    (hi : (∃ e, i = .evtMulti e) ∨
      i ∈ ([.evtNone, .evtRaiseTim, .evtRaiseRtc, .evtRaiseExt, .evtHret, .evtIack] : List Instr)) :
    b.tick = a.tick ∧ b.ws = a.ws := by
  cases h with
  | events | same | error => simp
  | _ => simp at hi

/-- An internal step writes no `OVR` or `ERR` (42_interrupt_router.md R147, R151, 41_deadline_wait.md R129). -/
theorem Effect.internal_frame {i : Instr} {a b : Block} (h : Effect i a b)
    (hi : i ∈ ([.intEnter, .intClear, .intPoll] : List Instr)) : b.ovr = a.ovr ∧ b.err = a.err := by
  have hi : i = .intEnter ∨ i = .intClear ∨ i = .intPoll := by simpa using hi
  have hbus : i.isBus = false := by obtain rfl | rfl | rfl := hi <;> rfl
  cases h with
  | enter | clear | poll => simp
  | events _ _ _ hev => obtain rfl | rfl | rfl := hi <;> simp at hev
  | same hb | error _ hb => rw [hbus] at hb; cases hb
  | _ => simp at hi

/-- A step that is no bus transaction drives nothing on the bus (60_exceptions.md R204; log entry 3). -/
theorem busOut_of_isBus_false {i : Instr} {s t : State} (h : exec i s = .next t) (hb : i.isBus = false) :
    t.busOut = .none := by
  cases i with
  | evtNone | evtRaiseTim | evtRaiseRtc | evtRaiseExt | evtHret | evtIack | evtMulti _ | sysReset => cases h; rfl
  | intEnter => simp only [exec, execIntEnter] at h; split at h <;> cases h; rfl
  | intClear => simp only [exec, execIntClear] at h; split at h <;> cases h; rfl
  | intPoll => simp only [exec, execIntPoll] at h; split at h <;> cases h; rfl
  | illegal w => cases h
  | _ => cases hb

/-- Settles O37: each clause from the frame of its class; the bus results from `busOut`. -/
theorem stepClassesKeepTheRest : Obligations.StepClassesKeepTheRest := by
  intro i s t hexec
  obtain ⟨heff, -⟩ := exec_effect hexec
  refine ⟨heff.bus_frame, fun hb hr => ?_, heff.event_frame, heff.internal_frame⟩
  have hout := busOut_of_isBus_false hexec hb
  obtain ⟨hdelay, htarget, hord, hlock, hien, hhref⟩ := heff.nonbus_frame hb hr
  exact ⟨hdelay, htarget, hord, hlock, hien, hhref, by simp [State.busErr, hout], by simp [State.busRdata, hout]⟩

end Sys2Proof.Machine
end

/-! PROOFS. The encoding (30_encoding.md): every step word is a read or canonical, what decoding and encoding it gives,
the words that spell no step, and the rows that share a word. -/

section
namespace Sys2Proof

/-! ### The words of each class (30_encoding.md R80 to R83, R85) -/

theorem class_cases : ∀ c : BitVec 2, c = 0b00 ∨ c = 0b01 ∨ c = 0b10 ∨ c = 0b11 := by decide

/-- A step word is its class and the fourteen bits below (30_encoding.md R80). -/
theorem word_eq_class_append (w : StepWord) : w = w.extractLsb' 14 2 ++ w.extractLsb' 0 14 := by
  rw [BitVec.extractLsb'_append_extractLsb'_eq_extractLsb' (by rfl)]
  simp

/-- The fields of format BUS (30_encoding.md R81). -/
theorem word_eq_bus_fields (w : StepWord) :
    w = w.extractLsb' 14 2 ++ w.extractLsb' 13 1 ++ w.extractLsb' 8 5 ++ w.extractLsb' 0 8 := by
  rw [BitVec.extractLsb'_append_extractLsb'_eq_extractLsb' (by rfl),
    BitVec.extractLsb'_append_extractLsb'_eq_extractLsb' (by rfl),
    BitVec.extractLsb'_append_extractLsb'_eq_extractLsb' (by rfl)]
  simp

/-- The fields of format EVT (30_encoding.md R82). -/
theorem word_eq_evt_fields (w : StepWord) : w = w.extractLsb' 14 2 ++ w.extractLsb' 5 9 ++ w.extractLsb' 0 5 := by
  rw [BitVec.extractLsb'_append_extractLsb'_eq_extractLsb' (by rfl),
    BitVec.extractLsb'_append_extractLsb'_eq_extractLsb' (by rfl)]
  simp

/-- The fields of format INT (30_encoding.md R83). -/
theorem word_eq_int_fields (w : StepWord) : w = w.extractLsb' 14 2 ++ w.extractLsb' 2 12 ++ w.extractLsb' 0 2 := by
  rw [BitVec.extractLsb'_append_extractLsb'_eq_extractLsb' (by rfl),
    BitVec.extractLsb'_append_extractLsb'_eq_extractLsb' (by rfl)]
  simp

theorem exists_busWord_of_class {w : StepWord} (h : w.extractLsb' 14 2 = 0b00) : ∃ we off d, w = busWord we off d := by
  have hbit : ∀ x : BitVec 1, ∃ we, x = BitVec.ofBool we := by decide
  obtain ⟨we, hwe⟩ := hbit (w.extractLsb' 13 1)
  have hw := word_eq_bus_fields w
  rw [h, hwe] at hw
  exact ⟨we, _, _, hw⟩

theorem eq_evtWord_of_class {w : StepWord} (h : w.extractLsb' 14 2 = 0b01) (hz : w.extractLsb' 5 9 = 0) :
    w = evtWord (w.extractLsb' 0 5) := by
  have hw := word_eq_evt_fields w
  rwa [h, hz] at hw

theorem eq_intWord_of_class {w : StepWord} (h : w.extractLsb' 14 2 = 0b10) (hz : w.extractLsb' 2 12 = 0) :
    w = intWord (w.extractLsb' 0 2) := by
  have hw := word_eq_int_fields w
  rwa [h, hz] at hw

/-- The words that spell no step, class by class (30_encoding.md R85). -/
theorem isIllegalWord_iff (w : StepWord) : isIllegalWord w = true ↔
    (w.extractLsb' 14 2 = 0b01 ∧ w.extractLsb' 5 9 ≠ 0) ∨
    (w.extractLsb' 14 2 = 0b10 ∧ (w.extractLsb' 2 12 ≠ 0 ∨ w.extractLsb' 0 2 = 0b11)) ∨
    (w.extractLsb' 14 2 = 0b11 ∧ w ≠ 0xC000) := by
  obtain h | h | h | h := class_cases (w.extractLsb' 14 2)
  · simp [isIllegalWord, h]
  · simp [isIllegalWord, h]
  · simp [isIllegalWord, h]
  · have hreset : w.extractLsb' 0 14 = 0 ↔ w = 0xC000 := by
      constructor
      · intro hz
        rw [word_eq_class_append w, h, hz]
        rfl
      · rintro rfl
        rfl
    simpa [isIllegalWord, h] using not_congr hreset

theorem isIllegalWord_busWord (we : Bool) (off : BitVec 5) (d : Byte) : isIllegalWord (busWord we off d) = false := by
  have hclass : (busWord we off d).extractLsb' 14 2 = 0b00#2 := by
    rw [busWord, BitVec.extractLsb'_append_eq_of_le (by decide), BitVec.extractLsb'_append_eq_of_le (by decide),
      BitVec.extractLsb'_append_eq_left]
  unfold isIllegalWord
  rw [hclass]
  rfl

/-- A step word has one of the four formats, or spells no step (30_encoding.md R81 to R83, R85). -/
theorem word_cases (w : StepWord) :
    (∃ we off d, w = busWord we off d) ∨ (∃ e, w = evtWord e) ∨ (∃ u, u ≠ 0b11 ∧ w = intWord u) ∨ w = sysWord ∨
    isIllegalWord w = true := by
  by_cases hill : isIllegalWord w = true
  · simp only [hill, or_true]
  · obtain ⟨hevt, hint, hsys⟩ : (w.extractLsb' 14 2 = 0b01 → w.extractLsb' 5 9 = 0) ∧
        (w.extractLsb' 14 2 = 0b10 → w.extractLsb' 2 12 = 0 ∧ w.extractLsb' 0 2 ≠ 0b11) ∧
        (w.extractLsb' 14 2 = 0b11 → w = 0xC000) := by
      simpa only [isIllegalWord_iff, not_or, not_and, not_not, ne_eq] using hill
    obtain h | h | h | h := class_cases (w.extractLsb' 14 2)
    · exact .inl (exists_busWord_of_class h)
    · exact .inr (.inl ⟨_, eq_evtWord_of_class h (hevt h)⟩)
    · obtain ⟨hz, hu⟩ := hint h
      exact .inr (.inr (.inl ⟨_, hu, eq_intWord_of_class h hz⟩))
    · exact .inr (.inr (.inr (.inl (hsys h))))

/-! ### Every word is a read or canonical (30_encoding.md R86) -/

/-- Every offset has a read (20_memory.md R67). -/
theorem exists_encode_read (off : BitVec 5) : ∃ i : Instr, i.wf = true ∧ encode i = busWord false off 0x00 := by
  obtain ⟨n, rfl⟩ | ⟨n, rfl⟩ | ⟨n, rfl⟩ | rfl | rfl | rfl | rfl | rfl | rfl | rfl | rfl | ⟨n, rfl⟩ | ⟨x, y, rfl⟩ :=
    offset_cases off
  exacts [⟨.rdTick n, rfl, rfl⟩, ⟨.rdDelay n, rfl, rfl⟩, ⟨.rdTarget n, rfl, rfl⟩, ⟨.rdCtrl, rfl, rfl⟩,
    ⟨.rdCmd, rfl, rfl⟩, ⟨.rdStatus, rfl, rfl⟩, ⟨.rdIen, rfl, rfl⟩, ⟨.rdPend, rfl, rfl⟩, ⟨.rdOvr, rfl, rfl⟩,
    ⟨.rdErr, rfl, rfl⟩, ⟨.rdSvcr, rfl, rfl⟩, ⟨.rdRsvd n, rfl, rfl⟩, ⟨.rdHref _ _, rfl, rfl⟩]

/-- At `CMD` the byte decides which write it is (30_encoding.md R87). -/
theorem exists_encode_command (v : Byte) : ∃ i : Instr, i.wf = true ∧ encode i = busWord true 0x0D v := by
  by_cases hv : v = 0x01
  · exact ⟨.cmdArm, rfl, hv ▸ rfl⟩
  · exact ⟨.cmdBad v, bne_iff_ne.mpr hv, rfl⟩

/-- Every offset has a write of every byte (20_memory.md R67). -/
theorem exists_encode_write (off : BitVec 5) (v : Byte) : ∃ i : Instr, i.wf = true ∧ encode i = busWord true off v := by
  obtain ⟨n, rfl⟩ | ⟨n, rfl⟩ | ⟨n, rfl⟩ | rfl | rfl | rfl | rfl | rfl | rfl | rfl | rfl | ⟨n, rfl⟩ | ⟨x, y, rfl⟩ :=
    offset_cases off
  exacts [⟨.wrTick n v, rfl, rfl⟩, ⟨.wrDelay n v, rfl, rfl⟩, ⟨.wrTarget n v, rfl, rfl⟩, ⟨.wrCtrl v, rfl, rfl⟩,
    exists_encode_command v, ⟨.wrStatus v, rfl, rfl⟩, ⟨.wrIen v, rfl, rfl⟩, ⟨.wrPend v, rfl, rfl⟩,
    ⟨.wrOvr v, rfl, rfl⟩, ⟨.wrErr v, rfl, rfl⟩, ⟨.wrSvcr v, rfl, rfl⟩, ⟨.wrRsvd n v, rfl, rfl⟩,
    ⟨.wrHref _ _ v, rfl, rfl⟩]

/-- Every combination of event bits is an event word (30_encoding.md R82). -/
theorem exists_encode_event (e : BitVec 5) : ∃ i : Instr, i.wf = true ∧ encode i = evtWord e := by
  by_cases hfew : fewerThanTwoEvents e = true
  · simp only [fewerThanTwoEvents, Bool.or_eq_true, beq_iff_eq, or_assoc] at hfew
    obtain rfl | rfl | rfl | rfl | rfl | rfl := hfew
    exacts [⟨.evtNone, rfl, rfl⟩, ⟨.evtRaiseTim, rfl, rfl⟩, ⟨.evtRaiseRtc, rfl, rfl⟩, ⟨.evtRaiseExt, rfl, rfl⟩,
      ⟨.evtHret, rfl, rfl⟩, ⟨.evtIack, rfl, rfl⟩]
  · exact ⟨.evtMulti e, by simpa [Instr.wf] using hfew, rfl⟩

/-- The three internal steps have words (30_encoding.md R83). -/
theorem exists_encode_internal {u : BitVec 2} (hu : u ≠ 0b11) : ∃ i : Instr, i.wf = true ∧ encode i = intWord u := by
  obtain rfl | rfl | rfl | rfl := class_cases u
  exacts [⟨.intEnter, rfl, rfl⟩, ⟨.intClear, rfl, rfl⟩, ⟨.intPoll, rfl, rfl⟩, absurd rfl hu]

/-- Every word is a read, or the canonical word of a well-formed instruction. -/
theorem read_or_exists_encode (w : StepWord) :
    (∃ off d, w = busWord false off d) ∨ ∃ i : Instr, i.wf = true ∧ encode i = w := by
  obtain ⟨we, off, d, rfl⟩ | ⟨e, rfl⟩ | ⟨u, hu, rfl⟩ | rfl | hill := word_cases w
  · cases we with
    | false => exact .inl ⟨off, d, rfl⟩
    | true => exact .inr (exists_encode_write off d)
  · exact .inr (exists_encode_event e)
  · exact .inr (exists_encode_internal hu)
  · exact .inr ⟨.sysReset, rfl, rfl⟩
  · exact .inr ⟨.illegal w, hill, rfl⟩

/-! ### Encoding what a word decodes to (30_encoding.md R86) -/

/-- Every decoded instruction is well-formed. -/
theorem decode_wf (w : StepWord) : (decode w).wf = true := by
  obtain ⟨off, d, rfl⟩ | ⟨i, hwf, rfl⟩ := read_or_exists_encode w
  · obtain ⟨i, hwf, henc⟩ := exists_encode_read off
    rwa [decode_readWord hwf henc]
  · rwa [decode_encode hwf]

/-- The canonical spelling of a read has `DATA = 0x00`. -/
theorem encode_decode_readWord (off : BitVec 5) (d : Byte) :
    encode (decode (busWord false off d)) = busWord false off 0x00 := by
  obtain ⟨i, hwf, henc⟩ := exists_encode_read off
  rw [decode_readWord hwf henc, henc]

/-- Every other word is its own canonical spelling. -/
theorem encode_decode_of_not_read {w : StepWord} (h : ¬∃ off d, w = busWord false off d) : encode (decode w) = w := by
  obtain ⟨i, hwf, rfl⟩ := (read_or_exists_encode w).resolve_left h
  rw [decode_encode hwf]

/-- The reads are the words with `CLS = 00` and `WR = 0` (30_encoding.md R81). -/
theorem exists_readWord_iff (w : StepWord) : (∃ off d, w = busWord false off d) ↔ w.extractLsb' 13 3 = 0 := by
  constructor
  · rintro ⟨off, d, rfl⟩
    rw [busWord, BitVec.extractLsb'_append_eq_of_le (by decide), BitVec.extractLsb'_append_eq_left]
    rfl
  · intro h
    refine ⟨w.extractLsb' 8 5, w.extractLsb' 0 8, ?_⟩
    have htop : w.extractLsb' 14 2 ++ w.extractLsb' 13 1 = w.extractLsb' 13 3 :=
      BitVec.extractLsb'_append_extractLsb'_eq_extractLsb' rfl
    rw [h] at htop
    calc w = w.extractLsb' 14 2 ++ w.extractLsb' 13 1 ++ w.extractLsb' 8 5 ++ w.extractLsb' 0 8 := word_eq_bus_fields w
      _ = _ := by rw [htop]; rfl

theorem busWord_and_clearData (we : Bool) (off : BitVec 5) (d : Byte) :
    busWord we off d &&& 0xFF00 = busWord we off 0x00 := by
  have hmask : (0xFF00 : StepWord) = BitVec.allOnes 8 ++ 0#8 := rfl
  rw [busWord_eq, busWord_eq, hmask, BitVec.and_append, BitVec.and_allOnes, BitVec.and_zero]
  rfl

/-- Encoding what a word decodes to clears the `DATA` of a read, and nothing else. -/
theorem encode_decode (w : StepWord) :
    encode (decode w) = if w.extractLsb' 13 3 = 0 then w &&& 0xFF00 else w := by
  split
  next hread =>
    obtain ⟨off, d, rfl⟩ := (exists_readWord_iff w).mpr hread
    rw [encode_decode_readWord, busWord_and_clearData]
  next hread => exact encode_decode_of_not_read (mt (exists_readWord_iff w).mp hread)

/-- Settles O1: the row of an instruction covers its canonical word, and no row before it does. -/
theorem decodeOfEncodeIsIdentity : Obligations.DecodeOfEncodeIsIdentity := fun _ => decode_encode

/-- Settles O2: every word is a read, decoded by its offset alone, or the canonical word of an instruction. -/
theorem encodeOfDecodeIsCanonical : Obligations.EncodeOfDecodeIsCanonical :=
  ⟨fun off d => decode_readWord_data off d 0x00, encode_decode, decode_wf⟩

/-! ### The words that spell no step (30_encoding.md R85) -/

/-- Exactly the illegal words decode to `ILLEGAL`, each with itself. -/
theorem decode_eq_illegal_iff {w x : StepWord} : decode w = .illegal x ↔ x = w ∧ isIllegalWord w = true := by
  constructor
  · intro h
    obtain ⟨off, d, rfl⟩ | ⟨i, hwf, rfl⟩ := read_or_exists_encode w
    · have hx : x = busWord false off 0x00 := by rw [← encode_decode_readWord off d, h]; rfl
      have hwf := decode_wf (busWord false off d)
      rw [h, hx] at hwf
      cases hwf.symm.trans (isIllegalWord_busWord false off 0x00)
    · rw [decode_encode hwf] at h
      subst h
      exact ⟨rfl, hwf⟩
  · rintro ⟨rfl, hill⟩
    exact decode_encode (i := .illegal x) hill

/-- Settles O5: the illegal words decode to `ILLEGAL` with themselves, which `exec` refuses in every state. -/
theorem illegalWordsSpellNoStep : Obligations.IllegalWordsSpellNoStep := by
  refine ⟨fun w => ?_, fun _ _ => rfl, fun w x rest s hdec hscript => ?_⟩
  · simp only [decode_eq_illegal_iff, exists_eq_left, isIllegalWord_iff]
  · obtain ⟨rfl, -⟩ := decode_eq_illegal_iff.mp hdec
    rw [Machine.step_of_script hscript, hdec]
    rfl

/-! ### The rows (30_encoding.md R84, R93) -/

theorem exists_row_covers (w : StepWord) : ∃ r ∈ opcodeRows, r.covers w = true :=
  ⟨opcodeRows[38], List.getElem_mem _, beq_iff_eq.mpr BitVec.and_zero⟩

/-- Some row is the first to cover a word, and decodes it. -/
theorem exists_first_row (w : StepWord) : ∃ (k : Nat) (r : OpRow), opcodeRows[k]? = some r ∧ r.covers w = true ∧
    decode w = r.op w ∧ ∀ (j : Nat) (q : OpRow), j < k → opcodeRows[j]? = some q → q.covers w = false := by
  obtain ⟨r, hfind⟩ := Option.isSome_iff_exists.mp (List.find?_isSome.mpr (exists_row_covers w))
  obtain ⟨hcov, k, hk, hget, hbefore⟩ := List.find?_eq_some_iff_getElem.mp hfind
  refine ⟨k, r, List.getElem?_eq_some_iff.mpr ⟨hk, hget⟩, hcov, by simp only [decode, hfind], fun j q hj hq => ?_⟩
  obtain ⟨-, rfl⟩ := List.getElem?_eq_some_iff.mp hq
  simpa using hbefore j hj

/-- Settles O3: the first covering row decodes; the columns are read off the list. -/
theorem decodeTakesFirstRow : Obligations.DecodeTakesFirstRow := by
  refine ⟨fun w => ?_, by decide⟩
  obtain ⟨k, r, hk, hcov, hop, hbefore⟩ := exists_first_row w
  exact ⟨k, r, hk, OpRow.covers_iff.mp hcov, hop,
    fun j q hj hq hq' => Bool.eq_false_iff.mp (hbefore j q hj hq) (OpRow.covers_iff.mpr hq')⟩

/-- A row matches within its mask. -/
theorem rows_match_within_mask : ∀ r ∈ opcodeRows, r.mtch &&& r.mask = r.mtch := by decide

/-- Two rows share a word exactly when they agree on the bits both fix: the word with the ones of both then does. -/
theorem exists_covers_both_iff {q r : OpRow} (hq : q ∈ opcodeRows) (hr : r ∈ opcodeRows) :
    (∃ w : StepWord, q.covers w = true ∧ r.covers w = true) ↔ q.mtch &&& r.mask = r.mtch &&& q.mask := by
  constructor
  · rintro ⟨w, hqw, hrw⟩
    exact OpRow.covers_agree hqw hrw
  · intro hagree
    have absorb : ∀ x y : StepWord, x ||| x &&& y = x := fun x y => by
      ext k
      simp only [BitVec.getElem_or, BitVec.getElem_and]
      cases x[k] <;> rfl
    refine ⟨q.mtch ||| r.mtch, OpRow.covers_iff.mpr ?_, OpRow.covers_iff.mpr ?_⟩
    · rw [BitVec.and_or_distrib_right, rows_match_within_mask q hq, ← hagree, absorb]
    · rw [BitVec.and_or_distrib_right, rows_match_within_mask r hr, hagree, BitVec.or_comm, absorb]

/-- The pairs of rows that agree on the bits both fix (30_encoding.md R84; log entry 10). -/
theorem rows_agree_iff : ∀ j k : Fin opcodeRows.length, j < k →
    (opcodeRows[j].mtch &&& opcodeRows[k].mask = opcodeRows[k].mtch &&& opcodeRows[j].mask ↔
      (j.val = 17 ∧ k.val = 18) ∨ (27 ≤ j.val ∧ j.val ≤ 32 ∧ k.val = 33) ∨ k.val = 38) := by decide

/-- Settles O4: rows share a word when they agree on the bits both fix, and these pairs do. -/
theorem rowsOverlapOnlyAsListed : Obligations.RowsOverlapOnlyAsListed := by
  intro j k p q hjk hj hk
  obtain ⟨hjlt, rfl⟩ := List.getElem?_eq_some_iff.mp hj
  obtain ⟨hklt, rfl⟩ := List.getElem?_eq_some_iff.mp hk
  rw [exists_covers_both_iff (List.getElem_mem hjlt) (List.getElem_mem hklt)]
  exact rows_agree_iff ⟨j, hjlt⟩ ⟨k, hklt⟩ hjk

/-- Settles O6: each word is the canonical word of its instruction. -/
theorem specWordsDecode : Obligations.SpecWordsDecode :=
  ⟨decode_encode (i := .rdTick 3) rfl, decode_encode (i := .rdRsvd 3) rfl,
    decode_encode (i := .rdHref .ptick .high) rfl, decode_encode (i := .wrDelay 3 0xFF) rfl,
    decode_encode (i := .cmdArm) rfl, decode_encode (i := .cmdBad 0xFF) rfl, decode_encode (i := .wrIen 0x07) rfl,
    decode_encode (i := .wrHref .systick .high 0x12) rfl, decode_encode (i := .evtHret) rfl,
    decode_encode (i := .evtMulti 0b10001) rfl, decode_encode (i := .intPoll) rfl, decode_encode (i := .sysReset) rfl,
    decode_encode (i := .illegal 0x4020) rfl⟩

end Sys2Proof
end

/-! PROOFS. The pseudo-operations that write (30_encoding.md R91, R92): a list of accepted bus writes runs to the record
it leads to, and what the writes of `WAITMS` and `BRINGUP` leave. -/

section
namespace Sys2Proof.Machine

/-! ### Bytes that make up a value (20_memory.md R62) -/

theorem getLsbD_byteMask (k : Nat) : (0xFF#32).getLsbD k = decide (k < 8) := by
  have hones : 0xFF#32 = (BitVec.allOnes 8).setWidth 32 := rfl
  rw [hones, BitVec.getLsbD_setWidth, BitVec.getLsbD_allOnes]
  simp only [Bool.and_eq_right_iff_imp, decide_eq_true_eq]
  omega

/-- Bit `k` after byte `n` is replaced (41_deadline_wait.md R121). -/
theorem getLsbD_setWordByte (x : Word) (n : Fin 4) (v : Byte) {k : Nat} (hk : k < 32) :
    (setWordByte x n v).getLsbD k = if k / 8 = n.val then v.getLsbD (k % 8) else x.getLsbD k := by
  simp only [setWordByte, BitVec.getLsbD_or, BitVec.getLsbD_and, BitVec.getLsbD_not, BitVec.getLsbD_shiftLeft,
    BitVec.getLsbD_setWidth, getLsbD_byteMask, hk, decide_true, Bool.true_and]
  obtain hlt | heq | hgt := lt_trichotomy (k / 8) n.val
  · have hbelow : k < 8 * n.val := by omega
    simp [hbelow, hlt.ne]
  · have hnot : ¬k < 8 * n.val := by omega
    have hplace : k - 8 * n.val = k % 8 := by omega
    have hsmall : k % 8 < 8 ∧ k % 8 < 32 := by omega
    simp [hnot, hplace, hsmall, heq]
  · have hnot : ¬k < 8 * n.val := by omega
    have habove : 8 ≤ k - 8 * n.val := by omega
    simp [hnot, habove, hgt.ne', BitVec.getLsbD_of_ge]

/-- Byte `m` after byte `n` is replaced (41_deadline_wait.md R121). -/
theorem wordByte_setWordByte (x : Word) (n m : Fin 4) (v : Byte) :
    wordByte (setWordByte x n v) m = if m = n then v else wordByte x m := by
  ext i hi
  have hbyte : (8 * m.val + i) / 8 = m.val := by omega
  have hplace : (8 * m.val + i) % 8 = i := by omega
  rw [wordByte, BitVec.getElem_extractLsb', getLsbD_setWordByte x n v (by omega), hbyte, hplace]
  by_cases hmn : m = n
  · rw [if_pos (congrArg Fin.val hmn), if_pos hmn, BitVec.getLsbD_eq_getElem hi]
  · rw [if_neg (Fin.val_ne_of_ne hmn), if_neg hmn, wordByte, BitVec.getElem_extractLsb']

/-- A data register is determined by its four bytes. -/
theorem word_ext_of_wordByte {x y : Word} (h : ∀ n, wordByte x n = wordByte y n) : x = y := by
  rw [← assemble_wordByte x, h, h, h, h, assemble_wordByte]

/-- Writing the four bytes of a value leaves the value (30_encoding.md R89). -/
theorem setWordByte_all (x d : Word) :
    setWordByte (setWordByte (setWordByte (setWordByte x 0 (wordByte d 0)) 1 (wordByte d 1)) 2 (wordByte d 2)) 3
      (wordByte d 3) = d := by
  have hbytes : ∀ n : Fin 4, n = 0 ∨ n = 1 ∨ n = 2 ∨ n = 3 := by decide
  refine word_ext_of_wordByte fun n => ?_
  obtain rfl | rfl | rfl | rfl := hbytes n <;> simp [wordByte_setWordByte]

/-- Writing both bytes of a reference leaves the reference (30_encoding.md R91). -/
theorem setRefByte_both (h₀ h : HandlerRef) :
    setRefByte (setRefByte h₀ .low (refByte h .low)) .high (refByte h .high) = h := by
  simp only [setRefByte, refByte, BitVec.extractLsb'_append_eq_right]
  exact (word_eq_hi_lo h).symm

/-! ### Accepted writes (20_memory.md R65) -/

/-- The instructions are bus writes, each accepted in the record the one before leaves; together they lead from the
first record to the second. -/
inductive AcceptedWrites : List Instr → Block → Block → Prop where
  | nil (a : Block) : AcceptedWrites [] a a
  | cons {i : Instr} {l : List Instr} {a b c : Block} (f : Block → Except ErrCode Block) :
      i.wf = true → (∀ s, exec i s = .next (s.busWrite (f s.blk))) → f a = .ok b → AcceptedWrites l b c →
      AcceptedWrites (i :: l) a c

/-- Accepted writes run without a stop to the record they lead to, and raise no BusError. -/
theorem AcceptedWrites.runsTo {l : List Instr} {a b : Block} (h : AcceptedWrites l a b) {rest : List StepWord}
    {s : State} (hblk : s.blk = a) (hscript : s.script = l.map encode ++ rest) :
    Machine.runsTo l.length s
      { blk := b, busOut := if l = [] then s.busOut else .write false, script := rest } := by
  induction h generalizing s with
  | nil =>
    subst hblk hscript
    exact runsTo_zero s
  | @cons i l a b c f hwf hexec hf _ ih =>
    have hstep : step s = .next { blk := b, busOut := .write false, script := l.map encode ++ rest } := by
      rw [step_of_script_encode hwf hscript, hexec, State.setScript_blk, hblk, hf]
      rfl
    have hrun := ih (s := { blk := b, busOut := .write false, script := l.map encode ++ rest }) rfl rfl
    exact runsTo_succ.mpr ⟨_, hstep, by simpa using hrun⟩

section Rules
variable {l : List Instr} {a c : Block}

/-- `WR.DELAY` outside a wait (41_deadline_wait.md R121). -/
theorem AcceptedWrites.wrDelay {n : Fin 4} {v : Byte} (hws : a.ws = .idle)
    (h : AcceptedWrites l (a.setDelay (setWordByte a.delay n v)) c) : AcceptedWrites (.wrDelay n v :: l) a c :=
  .cons (writeDelay n v) rfl (fun _ => rfl) (if_neg (not_not.mpr hws)) h

/-- `CMD.ARM` outside a service and a wait (41_deadline_wait.md R128). -/
theorem AcceptedWrites.cmdArm (hsvc : a.svc = .idle) (hws : a.ws = .idle) (h : AcceptedWrites l a.arm c) :
    AcceptedWrites (.cmdArm :: l) a c :=
  .cons writeArm rfl (fun _ => rfl) (writeArm_of_idle hsvc hws) h

/-- `WR.HREF` on an unlocked table (43_control_status.md R182). -/
theorem AcceptedWrites.wrHref {j : Slot} {p : RefByte} {v : Byte} (hlock : a.lock = false)
    (h : AcceptedWrites l (a.setHref (a.href.set j (setRefByte (a.href.get j) p v))) c) :
    AcceptedWrites (.wrHref j p v :: l) a c :=
  .cons (writeHref j p v) rfl (fun _ => rfl) (if_neg (by simp [hlock])) h

/-- `WR.CTRL` outside a wait (43_control_status.md R171). -/
theorem AcceptedWrites.wrCtrl {v : Byte} (hws : a.ws = .idle)
    (h : AcceptedWrites l ((a.setOrd (v.getLsbD 0)).setLock (a.lock || v.getLsbD 1)) c) :
    AcceptedWrites (.wrCtrl v :: l) a c :=
  .cons (writeCtrl v) rfl (fun _ => rfl) (if_neg (not_not.mpr hws)) h

/-- `WR.IEN` with the table locked (43_control_status.md R176). -/
theorem AcceptedWrites.wrIen {v : Byte} (hlock : a.lock = true)
    (h : AcceptedWrites l (a.setIen (v.extractLsb' 0 3)) c) : AcceptedWrites (.wrIen v :: l) a c :=
  .cons (writeIen v) rfl (fun _ => rfl) (if_neg (by simp [hlock])) h

end Rules

/-! ### `WAITMS` (30_encoding.md R92) -/

/-- The five writes of `WAITMS d` in normal context with no wait. -/
theorem waitMs_accepted {a : Block} (hsvc : a.svc = .idle) (hws : a.ws = .idle) (d : Word) :
    AcceptedWrites (waitMs d) a (a.setDelay d).arm := by
  have hdelay := congrArg a.setDelay (setWordByte_all a.delay d)
  refine .wrDelay hws (.wrDelay hws (.wrDelay hws (.wrDelay hws (.cmdArm hsvc hws ?_))))
  exact hdelay ▸ .nil _

/-- Settles O46: the four bytes of `d` make up `DELAY`, which the accepted `ARM` adds to `TICK`. -/
theorem waitMsArmsTheDeadline : Obligations.WaitMsArmsTheDeadline :=
  fun d _ _ hsvc hws hscript => (waitMs_accepted hsvc hws d).runsTo rfl hscript

/-! ### `SETVEC` and `BRINGUP` (30_encoding.md R91) -/

/-- `SETVEC j, h` on an unlocked table. -/
theorem AcceptedWrites.setVec {l : List Instr} {a c : Block} {j : Slot} {h : HandlerRef} (hlock : a.lock = false)
    (hrest : AcceptedWrites l (a.setHref (a.href.set j h)) c) : AcceptedWrites (Machine.setVec j h ++ l) a c := by
  refine .wrHref hlock (.wrHref hlock ?_)
  simp only [Block.setHref_href, HandlerTable.get_set, HandlerTable.set_set, setRefByte_both]
  exact hrest

/-- The ten writes of `BRINGUP` on an unlocked table with no wait: four references, then `LOCK`, then every source. -/
theorem bringUp_accepted {a : Block} (hlock : a.lock = false) (hws : a.ws = .idle) (h0 h1 h2 h3 : HandlerRef) :
    AcceptedWrites (bringUp h0 h1 h2 h3) a
      { a with href := ⟨h0, h1, h2, h3⟩, lock := true, ord := false, ien := 0b111 } := by
  simp only [bringUp, List.append_assoc]
  refine .setVec hlock (.setVec hlock (.setVec hlock (.setVec hlock (.wrCtrl hws (.wrIen (Bool.or_true _) ?_)))))
  cases a
  cases hlock
  exact .nil _

/-- Settles O59: the four references, then the lock, then the enables. -/
theorem bringUpBuildsTheTable : Obligations.BringUpBuildsTheTable :=
  fun h0 h1 h2 h3 _ _ hlock hws hscript => (bringUp_accepted hlock hws h0 h1 h2 h3).runsTo rfl hscript

end Sys2Proof.Machine
end

/-! PROOFS. The tick counter (40_tick_counter.md): the reads of the data registers, and what a step and a run do to
`TICK` (R100, R102, R110). -/

section
namespace Sys2Proof.Machine

/-! ### Bytes of the data registers (20_memory.md R62) -/

/-- Byte `n` of a data register on natural numbers (10_state.md R24). -/
theorem wordByte_eq_ofNat (x : Word) (n : Fin 4) : wordByte x n = BitVec.ofNat 8 (x.toNat / 256 ^ n.val) := by
  have hpow : 2 ^ (8 * n.val) = 256 ^ n.val := Nat.pow_mul 2 8 n.val
  rw [← hpow, ← Nat.shiftRight_eq_div_pow]
  rfl

theorem toNat_wordOff : ∀ (g : BitVec 3) (n : Fin 4), (wordOff g n).toNat = 4 * g.toNat + n.val := by decide

/-- Every word number of a data register read, `DATA` whatever it is, decodes to the read (30_encoding.md R81, R86). -/
theorem decode_wordReadWord {i : Instr} {g : BitVec 3} {n : Fin 4} (hwf : i.wf = true)
    (henc : encode i = busWord false (wordOff g n) 0x00) (d : Byte) :
    decode (BitVec.ofNat 16 (0x400 * g.toNat + 0x100 * n.val + d.toNat)) = i := by
  rw [ofNat_readWord (wordOff g n) (by rw [toNat_wordOff]; omega), decode_readWord hwf henc]

/-- Settles O9: the words by the offset of byte `n`, the bytes by `wordByte` on natural numbers. -/
theorem dataRegisterReadsReturnBytes : Obligations.DataRegisterReadsReturnBytes := by
  refine ⟨fun n d => ⟨?_, ?_, ?_⟩, fun n s => ?_⟩
  · exact decode_wordReadWord (i := .rdTick n) (g := 0) rfl rfl d
  · exact decode_wordReadWord (i := .rdDelay n) (g := 1) rfl rfl d
  · exact decode_wordReadWord (i := .rdTarget n) (g := 2) rfl rfl d
  · simp only [← wordByte_eq_ofNat]
    exact ⟨rfl, rfl, rfl⟩

/-! ### What a step and a run do to `TICK` (40_tick_counter.md R100, R102, R110) -/

/-- A step that is no reset carries out an instruction that is none. -/
theorem ne_sysReset_of_not_resetNext {s : State} {i : Instr} (hr : ¬s.resetNext) (hnext : s.nextInstr? = some i) :
    i ≠ .sysReset :=
  fun hi => hr (hnext.trans (congrArg some hi))

/-- A step without a reset adds to `TICK` the number of its advances. -/
theorem step_tick {s t : State} (h : step s = .next t) (hr : ¬s.resetNext) :
    t.blk.tick = s.blk.tick + BitVec.ofNat 32 s.advancesNext := by
  obtain ⟨w, -, hnext, heff⟩ := step_effect h
  simp only [heff.tick (ne_sysReset_of_not_resetNext hr hnext), State.advancesNext, hnext, Option.some.injEq]
  split <;> simp

/-- A run without a reset adds to `TICK` the number of its advances. -/
theorem RunWhile.tick {P : State → Prop} (hP : ∀ x, P x → ¬x.resetNext) {s t : State} {n : Nat}
    (h : RunWhile P s n t) : t.blk.tick = s.blk.tick + BitVec.ofNat 32 n := by
  induction h with
  | start => simp
  | step _ hp hstep ih => rw [step_tick hstep (hP _ hp), ih, BitVec.ofNat_add, BitVec.add_assoc]

/-- Settles O38: `RunWhile.tick`, by induction on the run. -/
theorem tickCountsTimerServices : Obligations.TickCountsTimerServices :=
  fun _ _ _ h => h.tick fun _ hr => hr

end Sys2Proof.Machine
end

/-! PROOFS. Reads of the counter with an interrupt between them: the torn read (40_tick_counter.md R105) and the guarded
read (R106), with the runs of canonical words they are made of. -/

section
namespace Sys2Proof.Machine

/-! ### Runs of canonical words -/

/-- A run grows by the step of a canonical word. -/
theorem runsTo_snoc_encode {k : Nat} {s u : State} {i : Instr} {b : Block} {o : BusOut} {rest : List StepWord}
    (h : runsTo k s ⟨b, o, encode i :: rest⟩) (hwf : i.wf = true) (hexec : exec i ⟨b, o, rest⟩ = .next u) :
    runsTo (k + 1) s u :=
  runsTo_snoc h ((step_of_script_encode hwf rfl).trans hexec)

/-- Two runs one after the other. -/
theorem runsTo_add {j k : Nat} {s t u : State} (h : runsTo j s t) (h' : runsTo k t u) : runsTo (j + k) s u := by
  induction j generalizing s with
  | zero =>
    cases h
    rwa [Nat.zero_add]
  | succ j ih =>
    obtain ⟨v, hv, hrest⟩ := runsTo_succ.mp h
    rw [Nat.add_right_comm]
    exact runsTo_succ.mpr ⟨v, hv, ih hrest⟩

/-- A run grows by a read of `TICK` (40_tick_counter.md R104). -/
theorem runsTo_snoc_rdTick {n : Nat} {s : State} {b : Block} {o : BusOut} {rest : List StepWord} {k : Fin 4}
    (h : runsTo n s ⟨b, o, encode (.rdTick k) :: rest⟩) :
    runsTo (n + 1) s ⟨b, .read (wordByte b.tick k) false, rest⟩ :=
  runsTo_snoc_encode h rfl rfl

/-- A run grows by a write of `IEN` that the state of the table allows (43_control_status.md R176). -/
theorem runsTo_snoc_wrIen {n : Nat} {s : State} {b : Block} {o : BusOut} {rest : List StepWord} {v : Byte}
    {f : BitVec 3} (h : runsTo n s ⟨b, o, encode (.wrIen v) :: rest⟩) (hv : v.extractLsb' 0 3 = f)
    (hlock : f ≠ 0 → b.lock = true) : runsTo (n + 1) s ⟨b.setIen f, .write false, rest⟩ := by
  subst hv
  have hok : writeIen v b = .ok (b.setIen (v.extractLsb' 0 3)) :=
    if_neg fun ⟨hne, hunlocked⟩ => by rw [hlock hne] at hunlocked; cases hunlocked
  exact runsTo_snoc_encode h rfl (congrArg (fun r => Host.Outcome.next (State.busWrite ⟨b, o, rest⟩ r)) hok)

/-- One whole timer interrupt in normal context with no re-test outstanding (30_encoding.md R91): TIM stands first in
`PRIO` (42_interrupt_router.md R144), so the acknowledge selects it whatever else requests. -/
theorem runsTo_advanceOps {b : Block} (hsvc : b.svc = .idle) (hws : b.ws ≠ .check) (hien : flag b.ien .tim = true)
    (o : BusOut) (rest : List StepWord) :
    runsTo 6 ⟨b, o, advanceOps.map encode ++ rest⟩ ⟨(b.raise .tim).advance.clear .tim, .none, rest⟩ := by
  have hirq : (b.raise .tim).irq = true := (Block.irq_iff _).mpr ⟨by simpa, by simpa, .tim, by simp, by simpa⟩
  have hsel : (b.raise .tim).sel = some .tim := by simp [Block.sel_eq, Block.flag_req, hien]
  have hack := Block.iack_of_irq hirq hsel
  have h1 : runsTo 1 ⟨b, o, advanceOps.map encode ++ rest⟩ ⟨b.raise .tim, .none, (service .tim).map encode ++ rest⟩ :=
    runsTo_snoc_encode (runsTo_zero _) (i := .evtRaiseTim) rfl rfl
  generalize b.raise .tim = r at h1 hack ⊢
  have h2 := runsTo_snoc_encode h1 (i := .evtIack) (u := ⟨r.iack, .none, _⟩) rfl rfl
  rw [hack] at h2
  have h3 := runsTo_snoc_encode h2 (i := .intEnter) (u := ⟨r.advance.setSvc (.hnd .tim0), .none, _⟩) rfl rfl
  have h4 := runsTo_snoc_encode h3 (i := .evtHret) (u := ⟨r.advance.setSvc (.hnd .tim1), .none, _⟩) rfl rfl
  have h5 := runsTo_snoc_encode h4 (i := .evtHret) (u := ⟨r.advance.setSvc (.clr .tim), .none, _⟩) rfl rfl
  exact runsTo_snoc_encode h5 (i := .intClear) (u := ⟨r.advance.clear .tim, .none, _⟩) rfl rfl

/-! ### The torn read (40_tick_counter.md R105) -/

/-- Settles O48: a read, a timer interrupt, three reads; the bytes are those of `TICK` at each of them. -/
theorem plainReadCanTear : Obligations.PlainReadCanTear := by
  rintro ⟨b, o, script⟩ htick hsvc hws - hien hscript
  simp only at htick hsvc hws hien hscript
  subst hscript
  have h1 : runsTo 1 ⟨b, o, tornRead.map encode⟩ ⟨b, .read (wordByte b.tick 0) false,
      advanceOps.map encode ++ ([.rdTick 1, .rdTick 2, .rdTick 3] : List Instr).map encode⟩ :=
    runsTo_snoc_rdTick (runsTo_zero _)
  have h7 := runsTo_add h1 (runsTo_advanceOps hsvc (by simp [hws]) hien _ _)
  have h8 := runsTo_snoc_rdTick h7
  have h9 := runsTo_snoc_rdTick h8
  have h10 := runsTo_snoc_rdTick h9
  have hadvanced : ((b.raise .tim).advance.clear .tim).tick = 0x00000100 := by simp [Block.advance, htick]
  refine ⟨_, _, _, _, _, h1, h7, h8, h9, h10, ?_⟩
  simp only [State.busRdata, htick, hadvanced]
  decide

/-! ### The source in service (42_interrupt_router.md R146) -/

/-- An event word keeps the source in service, or acknowledges an enabled one. -/
theorem Block.events_source?_eq_or_enabled (b : Block) (e : BitVec 5) :
    (b.events e).svc.source? = b.svc.source? ∨ ∃ q, (b.events e).svc.source? = some q ∧ flag b.ien q = true := by
  obtain hsame | ⟨-, h, k, hsvc, hnext, hk⟩ | ⟨-, h, hsvc, -, hclr⟩ | ⟨-, -, -, q, hack, -, hien⟩ :=
    b.events_svc_cases e
  · exact .inl (by rw [hsame])
  · exact .inl (by simp [hk, hsvc, Svc.source?, (Handler.next?_some hnext).1])
  · exact .inl (by simp [hclr, hsvc, Svc.source?])
  · exact .inr ⟨q, by rw [hack]; rfl, hien⟩

/-- A step keeps the source in service, ends the service, or acknowledges an enabled source. -/
theorem Effect.source?_cases {i : Instr} {a b : Block} (h : Effect i a b) :
    b.svc.source? = a.svc.source? ∨ b.svc.source? = none ∨ ∃ q, b.svc.source? = some q ∧ flag a.ien q = true := by
  cases h with
  | events e => exact (a.events_source?_eq_or_enabled e).imp_right .inr
  | enter s hs => exact .inl (by simp [hs, Svc.source?])
  | clear | reset => exact .inr (.inl rfl)
  | _ => exact .inl (by simp)

/-! ### The guarded read (40_tick_counter.md R106) -/

/-- Along a run without a reset that keeps `IEN[0] = 0`, with TIM not in service at its start: TIM is not in service at
its end, no step advances, and a pending TIM event stays. -/
theorem RunWhile.tim_not_served {s t : State} {n : Nat}
    (h : RunWhile (fun x => ¬x.resetNext ∧ flag x.blk.ien .tim = false) s n t)
    (hs : s.blk.svc.source? ≠ some .tim) :
    t.blk.svc.source? ≠ some .tim ∧ n = 0 ∧ (flag s.blk.pend .tim = true → flag t.blk.pend .tim = true) := by
  induction h with
  | start => exact ⟨hs, rfl, id⟩
  | @step t u n _ hp hstep ih =>
    obtain ⟨hr, hien⟩ := hp
    obtain ⟨hsvc, rfl, hpend⟩ := ih
    obtain ⟨w, -, hnext, heff⟩ := step_effect hstep
    refine ⟨?_, ?_, fun hset => ?_⟩
    · obtain hsame | hnone | ⟨q, hq, hen⟩ := heff.source?_cases
      · rwa [hsame]
      · rw [hnone]; nofun
      · rw [hq]
        rintro ⟨⟩
        rw [hien] at hen; cases hen
    · have hack : t.blk.svc ≠ .ack .tim := fun hack => hsvc (by rw [hack]; rfl)
      simp [State.advancesNext, hack]
    · obtain ⟨-, hraised⟩ | ⟨-, hclr, -⟩ | hsame :=
        heff.flag_pend (ne_sysReset_of_not_resetNext hr hnext) .tim
      · exact hraised
      · exact absurd (by rw [hclr]; rfl) hsvc
      · rw [hsame, hpend hset]

theorem extract_sourceByte (f : BitVec 3) : (sourceByte f).extractLsb' 0 3 = f := BitVec.extractLsb'_append_eq_right

/-- The mask of `NOW.G` clears the bit of TIM alone. -/
theorem extract_sourceByte_mask (f : BitVec 3) : (sourceByte f &&& 0xFE).extractLsb' 0 3 = clearFlag f .tim := by
  revert f; decide

/-- Settles O49: under the guard TIM is not served, so `RunWhile.tick` counts no advance; `NOW.G` step by step. -/
theorem guardedReadIsExact : Obligations.GuardedReadIsExact := by
  refine ⟨fun s t n hsvc h => ?_, ?_⟩
  · obtain ⟨-, rfl, hpend⟩ := h.tim_not_served (by rw [hsvc]; nofun)
    have htick : t.blk.tick = s.blk.tick := by simpa using h.tick fun _ hx => hx.1
    exact ⟨htick, rfl, hpend, fun k => htick ▸ rfl⟩
  · rintro ⟨b, o, script⟩ m rest hwf rfl hscript
    simp only at hwf hscript
    subst hscript
    have hlock : b.ien ≠ 0 → b.lock = true := (b.wf_iff.mp hwf).2
    have hclear : clearFlag b.ien .tim ≠ 0 → b.lock = true := fun hne => hlock fun h0 => hne (by rw [h0]; rfl)
    have h1 : runsTo 1 ⟨b, o, (nowGuarded (sourceByte b.ien)).map encode ++ rest⟩
        ⟨b, .read (sourceByte b.ien) false, (nowGuarded (sourceByte b.ien)).tail.map encode ++ rest⟩ :=
      runsTo_snoc_encode (runsTo_zero _) (i := .rdIen) rfl rfl
    have h2 := runsTo_snoc_wrIen h1 (extract_sourceByte_mask b.ien) hclear
    have h3 := runsTo_snoc_rdTick h2
    have h4 := runsTo_snoc_rdTick h3
    have h5 := runsTo_snoc_rdTick h4
    have h6 := runsTo_snoc_rdTick h5
    have h7 := runsTo_snoc_wrIen h6 (extract_sourceByte b.ien) hlock
    refine ⟨⟨_, h1, rfl⟩, ⟨_, h2, rfl, rfl, fun q => by simp⟩, fun k => ?_, h7⟩
    match k with
    | 0 => exact ⟨_, h3, rfl⟩
    | 1 => exact ⟨_, h4, rfl⟩
    | 2 => exact ⟨_, h5, rfl⟩
    | 3 => exact ⟨_, h6, rfl⟩

end Sys2Proof.Machine
end

/-! PROOFS. The read-verify-reread (40_tick_counter.md R107): an invariant of a reader beside a run, that the record of
the two reads of byte 0 explains every byte of the turn from the first of them to the second. -/

section
namespace Sys2Proof.Machine

/-! ### Byte 0 and the reader's own step -/

/-- Fewer than 256 advances that leave byte 0 as it was are none: the count is the difference modulo 256. -/
theorem eq_zero_of_wordByte_add {x : Word} {n : Nat} (hn : n < 256)
    (h : wordByte (x + BitVec.ofNat 32 n) 0 = wordByte x 0) : n = 0 := by
  have hmod := congrArg BitVec.toNat h
  simp only [wordByte_eq_ofNat, BitVec.toNat_ofNat, BitVec.toNat_add, Fin.val_zero, pow_zero, Nat.div_one] at hmod
  omega

/-- Equal assembled values have equal bytes 0. -/
theorem byte_zero_eq_of_assemble_eq {a3 a2 a1 a0 b3 b2 b1 b0 : Byte}
    (h : assemble a3 a2 a1 a0 = assemble b3 b2 b1 b0) : a0 = b0 := by
  rw [← wordByte_assemble_zero a3 a2 a1 a0, h, wordByte_assemble_zero]

/-- A reader's own step reads the byte and changes no state. -/
theorem step_of_nextInstr?_rdTick {s : State} {k : Fin 4} (h : s.nextInstr? = some (.rdTick k)) :
    step s = .next ⟨s.blk, .read (wordByte s.blk.tick k) false, s.script.tail⟩ := by
  obtain ⟨w, hw, hdec⟩ := Option.map_eq_some_iff.mp h
  obtain ⟨rest, hscript⟩ := List.head?_eq_some_iff.mp hw
  rw [step_of_script hscript, hdec, hscript]
  rfl

/-! ### The record explains the bytes -/

/-- What `d`, the byte the step after `j` steps of a turn returned, says of the record: if that step stands between the
two reads of byte 0, or is one of them, `TICK` had made `a` of the record's advances; none at the first, all at the
second, where `TICK` was recorded. -/
def LowReads.Explains (x : LowReads) (o : ReadOrder) (j : Nat) (d : Byte) : Prop :=
  ∀ k : Fin 4, o.turn[j]? = some (.rdTick k) → o.lowStep ≤ j + 1 → j + 1 ≤ o.lowStep + 4 →
    ∃ a ≤ x.advances, d = wordByte (x.first + BitVec.ofNat 32 a) k ∧ (j + 1 = o.lowStep → a = 0) ∧
      (j + 1 = o.lowStep + 4 → a = x.advances ∧ x.second = x.first + BitVec.ofNat 32 a)

/-- The record explains every byte a turn has returned. -/
def LowReads.ExplainsAll (x : LowReads) (o : ReadOrder) (got : List Byte) : Prop :=
  ∀ j d, got[j]? = some d → x.Explains o j d

/-- A read of the reader's own leaves the record right about the bytes before it. -/
theorem LowReads.Explains.afterRead {o : ReadOrder} {x : LowReads} {r : Rereader} {j : Nat} {d : Byte}
    (h : x.Explains o j d) (hj : j < r.stepsDone) (tick : Word) : (x.afterRead o r tick).Explains o j d := by
  intro k hk hlo hhi
  obtain ⟨a, ha, hd, hfirst, hsecond⟩ := h k hk hlo hhi
  have hne : r.stepsDone + 1 ≠ o.lowStep := by omega
  by_cases heq : r.stepsDone + 1 = o.lowStep + 4
  · rw [LowReads.afterRead_second heq]
    exact ⟨a, ha, hd, hfirst, by omega⟩
  · rw [LowReads.afterRead_of_ne hne heq]
    exact ⟨a, ha, hd, hfirst, hsecond⟩

/-- A read of the reader's own makes the record right about the byte it returns. -/
theorem LowReads.explains_read {o : ReadOrder} {x : LowReads} {r : Rereader} {tick : Word} {k : Fin 4}
    (htick : r.betweenLowReads o = true → tick = x.first + BitVec.ofNat 32 x.advances)
    (hk : o.turn[r.stepsDone]? = some (.rdTick k)) :
    (x.afterRead o r tick).Explains o r.stepsDone (wordByte tick k) := by
  rw [Rereader.betweenLowReads_iff] at htick
  intro k' hk' hlo hhi
  cases hk.symm.trans hk'
  by_cases hfirst : r.stepsDone + 1 = o.lowStep
  · rw [LowReads.afterRead_first hfirst]
    exact ⟨0, le_rfl, by simp, fun _ => rfl, by omega⟩
  · have hnow := htick (by omega)
    by_cases hsecond : r.stepsDone + 1 = o.lowStep + 4
    · rw [LowReads.afterRead_second hsecond]
      exact ⟨x.advances, le_rfl, by rw [hnow], by omega, fun _ => ⟨rfl, hnow⟩⟩
    · rw [LowReads.afterRead_of_ne hfirst hsecond]
      exact ⟨x.advances, le_rfl, by rw [hnow], by omega, by omega⟩

/-- A read of the reader's own: the record explains the byte it returns and those before. -/
theorem LowReads.ExplainsAll.afterRead {o : ReadOrder} {x : LowReads} {tick : Word} {got : List Byte} {k : Fin 4}
    (hexp : x.ExplainsAll o got)
    (htick : (Rereader.reading got).betweenLowReads o = true → tick = x.first + BitVec.ofNat 32 x.advances)
    (hk : o.turn[got.length]? = some (.rdTick k)) :
    (x.afterRead o (.reading got) tick).ExplainsAll o (got ++ [wordByte tick k]) := by
  intro j d hj
  obtain hlt | hge := Nat.lt_or_ge j got.length
  · rw [List.getElem?_append_left hlt] at hj
    exact (hexp j d hj).afterRead (r := .reading got) hlt tick
  · obtain ⟨hlen, rfl⟩ := List.getElem?_eq_some_iff.mp hj
    rw [List.length_append, List.length_singleton] at hlen
    obtain rfl : j = got.length := by omega
    rw [List.getElem_concat_length rfl]
    exact LowReads.explains_read htick hk

/-! ### Acceptance -/

section Accept
variable {o : ReadOrder} {x : LowReads} {got : List Byte}

/-- The byte the first read of byte 0 returned. -/
theorem LowReads.ExplainsAll.low_first (h : x.ExplainsAll o got) {j : Nat} {d : Byte} (hj : got[j]? = some d)
    (hk : o.turn[j]? = some (.rdTick 0)) (hlow : j + 1 = o.lowStep) : d = wordByte x.first 0 := by
  obtain ⟨a, -, hd, ha, -⟩ := h j d hj 0 hk (by omega) (by omega)
  simpa [ha hlow] using hd

/-- The byte the second read of byte 0 returned. -/
theorem LowReads.ExplainsAll.low_second (h : x.ExplainsAll o got) {j : Nat} {d : Byte} (hj : got[j]? = some d)
    (hk : o.turn[j]? = some (.rdTick 0)) (hlow : j + 1 = o.lowStep + 4) :
    d = wordByte x.second 0 ∧ x.second = x.first + BitVec.ofNat 32 x.advances := by
  obtain ⟨a, -, hd, -, ha⟩ := h j d hj 0 hk (by omega) (by omega)
  obtain ⟨rfl, hsecond⟩ := ha hlow
  exact ⟨hsecond ▸ hd, hsecond⟩

/-- With no advance between the reads of byte 0, every byte from the first of them to the second is one of `first`. -/
theorem LowReads.ExplainsAll.of_advances_eq_zero (h : x.ExplainsAll o got) (hzero : x.advances = 0) {j : Nat} {d : Byte}
    {k : Fin 4} (hj : got[j]? = some d) (hk : o.turn[j]? = some (.rdTick k)) (hlo : o.lowStep ≤ j + 1)
    (hhi : j + 1 ≤ o.lowStep + 4) : d = wordByte x.first k := by
  obtain ⟨a, ha, hd, -⟩ := h j d hj k hk hlo hhi
  obtain rfl : a = 0 := by omega
  simpa using hd

end Accept

/-- Equal low bytes fewer than 256 advances apart leave no advance between them. -/
theorem LowReads.advances_eq_zero {x : LowReads} (hsecond : x.second = x.first + BitVec.ofNat 32 x.advances)
    (hlt : x.advances < 256) (hbyte : wordByte x.second 0 = wordByte x.first 0) : x.advances = 0 :=
  eq_zero_of_wordByte_add hlt (hsecond ▸ hbyte)

/-- The eight bytes of a turn with `a == b` and fewer than 256 advances between the reads of byte 0: none lay between
them, and the value is what `TICK` was at both. High byte first the bytes read from step 4 on are of that one value
(those of `b`), low byte first those up to step 5 (those of `a`). -/
theorem LowReads.ExplainsAll.eq_of_accepts {o : ReadOrder} {x : LowReads} {v : Word} {a1 a2 a3 a4 b1 b2 b3 b4 : Byte}
    (h : x.ExplainsAll o [a1, a2, a3, a4, b1, b2, b3, b4]) (ha : o.value a1 a2 a3 a4 = v)
    (hb : o.value b1 b2 b3 b4 = v) (hlt : x.advances < 256) : x = ⟨v, v, 0⟩ := by
  suffices hx : x.advances = 0 ∧ x.second = x.first + BitVec.ofNat 32 x.advances ∧ x.first = v by
    obtain ⟨hzero, hsecond, rfl⟩ := hx
    calc x = ⟨x.first, x.second, x.advances⟩ := rfl
      _ = ⟨x.first, x.first, 0⟩ := by simp [hsecond, hzero]
  cases o with
  | down =>
    have hlow := h.low_first (j := 3) rfl rfl rfl
    obtain ⟨hagain, hsecond⟩ := h.low_second (j := 7) rfl rfl rfl
    have hbyte : b4 = a4 := byte_zero_eq_of_assemble_eq (hb.trans ha.symm)
    have hzero := LowReads.advances_eq_zero hsecond hlt (hagain.symm.trans (hbyte.trans hlow))
    have h5 := h.of_advances_eq_zero hzero (j := 4) (k := 3) rfl rfl (by decide) (by decide)
    have h6 := h.of_advances_eq_zero hzero (j := 5) (k := 2) rfl rfl (by decide) (by decide)
    have h7 := h.of_advances_eq_zero hzero (j := 6) (k := 1) rfl rfl (by decide) (by decide)
    refine ⟨hzero, hsecond, ?_⟩
    rw [← hb, ReadOrder.value, h5, h6, h7, hbyte, hlow, assemble_wordByte]
  | up =>
    have hlow := h.low_first (j := 0) rfl rfl rfl
    obtain ⟨hagain, hsecond⟩ := h.low_second (j := 4) rfl rfl rfl
    have hbyte : b1 = a1 := byte_zero_eq_of_assemble_eq (hb.trans ha.symm)
    have hzero := LowReads.advances_eq_zero hsecond hlt (hagain.symm.trans (hbyte.trans hlow))
    have h2 := h.of_advances_eq_zero hzero (j := 1) (k := 1) rfl rfl (by decide) (by decide)
    have h3 := h.of_advances_eq_zero hzero (j := 2) (k := 2) rfl rfl (by decide) (by decide)
    have h4 := h.of_advances_eq_zero hzero (j := 3) (k := 3) rfl rfl (by decide) (by decide)
    refine ⟨hzero, hsecond, ?_⟩
    rw [← ha, ReadOrder.value, h2, h3, h4, hlow, assemble_wordByte]

/-! ### The invariant along a run -/

/-- What holds of a reader and its record at every state of a run. -/
def RereadInvariant (o : ReadOrder) (x : LowReads) (tick : Word) : Rereader → Prop
  | .reading got => got.length < 8 ∧ x.ExplainsAll o got ∧
      ((Rereader.reading got).betweenLowReads o = true → tick = x.first + BitVec.ofNat 32 x.advances)
  | .accepted v => x.advances < 256 → x = ⟨v, v, 0⟩

theorem rereadInvariant_start (o : ReadOrder) (x : LowReads) (tick : Word) : RereadInvariant o x tick .start := by
  refine ⟨by simp, by simp [LowReads.ExplainsAll], fun h => ?_⟩
  cases o <;> simp [ReadOrder.lowStep] at h

/-- A step that is none of the reader's own keeps the invariant: it moves `TICK` by its advances, and the record counts
them while it stands between the two reads of byte 0. -/
theorem RereadInvariant.afterOther {o : ReadOrder} {x : LowReads} {tick : Word} {r : Rereader}
    (h : RereadInvariant o x tick r) (n : Nat) :
    RereadInvariant o (x.afterOther o r n) (tick + BitVec.ofNat 32 n) r := by
  cases r with
  | accepted v =>
    have hsame : x.afterOther o (.accepted v) n = x := by simp [LowReads.afterOther]
    rwa [hsame]
  | reading got =>
    obtain ⟨hlen, hexp, htick⟩ := h
    refine ⟨hlen, fun j d hj k hk hlo hhi => ?_, fun hbetween => ?_⟩
    · obtain ⟨a, ha, hd, hfirst, hsecond⟩ := hexp j d hj k hk hlo hhi
      have hlt : j < got.length := (List.getElem?_eq_some_iff.mp hj).1
      refine ⟨a, ?_, hd, hfirst, fun hlast => ?_⟩
      · rw [LowReads.afterOther_advances]
        split <;> omega
      · have hpast : ¬(Rereader.reading got).betweenLowReads o = true := by
          rw [Rereader.betweenLowReads_iff, Rereader.stepsDone_reading]
          omega
        rw [LowReads.afterOther_advances, if_neg hpast]
        exact hsecond hlast
    · rw [LowReads.afterOther_advances, if_pos hbetween, htick hbetween, LowReads.afterOther_first, BitVec.ofNat_add,
        BitVec.add_assoc]

/-- A read of the reader's own keeps the invariant. -/
theorem RereadInvariant.afterRead {o : ReadOrder} {x : LowReads} {tick : Word} {r : Rereader} {k : Fin 4}
    (h : RereadInvariant o x tick r) (hnext : r.next? o = some (.rdTick k)) :
    RereadInvariant o (x.afterRead o r tick) tick (r.take o (wordByte tick k)) := by
  cases r with
  | accepted v => cases hnext
  | reading got =>
    obtain ⟨hlen, hexp, htick⟩ := h
    have hall := hexp.afterRead htick hnext
    by_cases h7 : got.length = 7
    · match got, h7 with
      | [a1, a2, a3, a4, b1, b2, b3], _ =>
        rw [Rereader.take_eighth]
        split
        next hab => exact hall.eq_of_accepts rfl hab.symm
        · exact rereadInvariant_start _ _ _
    · rw [Rereader.take_reading h7]
      refine ⟨by simp; omega, hall, fun hbetween => ?_⟩
      rw [Rereader.betweenLowReads_iff, Rereader.stepsDone_reading, List.length_append,
        List.length_singleton] at hbetween
      by_cases hfirst : (Rereader.reading got).stepsDone + 1 = o.lowStep
      · simp [LowReads.afterRead_first hfirst]
      · have hsecond : (Rereader.reading got).stepsDone + 1 ≠ o.lowStep + 4 := hbetween.2.ne
        rw [LowReads.afterRead_of_ne hfirst hsecond]
        rw [Rereader.stepsDone_reading] at hfirst
        exact htick ((Rereader.betweenLowReads_iff _ _).mpr ⟨by simp; omega, by simp; omega⟩)

/-- The invariant holds along every run with a reader. -/
theorem RereadRun.invariant {o : ReadOrder} {s t : State} {r : Rereader} {x : LowReads} (h : RereadRun o s r x t) :
    RereadInvariant o x t.blk.tick r := by
  induction h with
  | start => exact rereadInvariant_start _ _ _
  | other _ hr hstep ih =>
    rw [step_tick hstep hr]
    exact ih.afterOther _
  | read _ hnext hinstr hstep hdata ih =>
    obtain ⟨k, rfl, -⟩ := Rereader.next?_eq_some hnext
    rw [step_of_nextInstr?_rdTick hinstr] at hstep
    cases hstep
    cases hdata
    exact ih.afterRead hnext

/-! ### Eight reads with no other step between -/

/-- Both low bytes read at one value of `TICK`, with no advance between, and so it stays. -/
theorem LowReads.afterRead_same (o : ReadOrder) (r : Rereader) (tick : Word) :
    LowReads.afterRead ⟨tick, tick, 0⟩ o r tick = ⟨tick, tick, 0⟩ := by
  simp [LowReads.afterRead]

/-- The next read of a turn in which `TICK` has not changed. -/
theorem RereadRun.snoc_rdTick {o : ReadOrder} {s : State} {got : List Byte} {b : Block} {out : BusOut}
    {rest : List StepWord} {k : Fin 4}
    (h : RereadRun o s (.reading got) ⟨b.tick, b.tick, 0⟩ ⟨b, out, encode (.rdTick k) :: rest⟩)
    (hk : o.turn[got.length]? = some (.rdTick k)) :
    RereadRun o s ((Rereader.reading got).take o (wordByte b.tick k)) ⟨b.tick, b.tick, 0⟩
      ⟨b, .read (wordByte b.tick k) false, rest⟩ := by
  have hinstr : (State.mk b out (encode (.rdTick k) :: rest)).nextInstr? = some (.rdTick k) :=
    congrArg some (decode_encode rfl)
  have hread := RereadRun.read h hk hinstr (step_of_nextInstr?_rdTick hinstr) rfl
  rw [LowReads.afterRead_same] at hread
  exact hread

/-- The four reads of an order, and that they give the value. -/
theorem ReadOrder.exists_reads (o : ReadOrder) : ∃ k1 k2 k3 k4 : Fin 4,
    o.reads = [.rdTick k1, .rdTick k2, .rdTick k3, .rdTick k4] ∧
    ∀ x, o.value (wordByte x k1) (wordByte x k2) (wordByte x k3) (wordByte x k4) = x := by
  cases o with
  | down => exact ⟨3, 2, 1, 0, rfl, assemble_wordByte⟩
  | up => exact ⟨0, 1, 2, 3, rfl, assemble_wordByte⟩

/-- Eight reads with no other step between accept `TICK`, in either order. -/
theorem rereadRun_turn (o : ReadOrder) (b : Block) (out : BusOut) (rest : List StepWord) :
    ∃ out', RereadRun o ⟨b, out, o.turn.map encode ++ rest⟩ (.accepted b.tick) ⟨b.tick, b.tick, 0⟩ ⟨b, out', rest⟩ := by
  obtain ⟨k1, k2, k3, k4, hreads, hvalue⟩ := o.exists_reads
  have hturn : o.turn =
      [.rdTick k1, .rdTick k2, .rdTick k3, .rdTick k4, .rdTick k1, .rdTick k2, .rdTick k3, .rdTick k4] := by
    rw [ReadOrder.turn, hreads]; rfl
  have h0 := RereadRun.start (o := o) ⟨b, out, o.turn.map encode ++ rest⟩
  rw [hturn] at h0 ⊢
  have h1 := RereadRun.snoc_rdTick (k := k1) (b := b) (got := []) h0 (hturn ▸ rfl)
  have h2 := RereadRun.snoc_rdTick (k := k2) (got := [_]) h1 (hturn ▸ rfl)
  have h3 := RereadRun.snoc_rdTick (k := k3) (got := [_, _]) h2 (hturn ▸ rfl)
  have h4 := RereadRun.snoc_rdTick (k := k4) (got := [_, _, _]) h3 (hturn ▸ rfl)
  have h5 := RereadRun.snoc_rdTick (k := k1) (got := [_, _, _, _]) h4 (hturn ▸ rfl)
  have h6 := RereadRun.snoc_rdTick (k := k2) (got := [_, _, _, _, _]) h5 (hturn ▸ rfl)
  have h7 := RereadRun.snoc_rdTick (k := k3) (got := [_, _, _, _, _, _]) h6 (hturn ▸ rfl)
  have h8 := RereadRun.snoc_rdTick (k := k4) (got := [_, _, _, _, _, _, _]) h7 (hturn ▸ rfl)
  rw [Rereader.take_eighth, if_pos rfl, hvalue] at h8
  exact ⟨_, h8⟩

/-- Settles O50: by the count of advances modulo 256, the invariant of the reader, and eight reads in a row. -/
theorem rereadIsExact : Obligations.RereadIsExact := by
  refine ⟨fun s m t j k hj hk hlt hbyte => ?_, fun o s t x v h hlt => h.invariant hlt, ?_, ?_⟩
  · have hm := hj.tick fun _ => id
    have ht : t.blk.tick = s.blk.tick + BitVec.ofNat 32 (j + k) := by
      rw [hk.tick fun _ => id, hm, BitVec.ofNat_add, BitVec.add_assoc]
    have hzero : j + k = 0 := eq_zero_of_wordByte_add hlt (ht ▸ hbyte.symm)
    obtain ⟨rfl, rfl⟩ := Nat.add_eq_zero_iff.mp hzero
    exact ⟨by simpa using hm, by simpa using ht⟩
  · intro s t u r x i d v h hnext hinstr hstep hdata htake hlt
    have hu := RereadRun.read h hnext hinstr hstep hdata
    have htick : u.blk.tick = t.blk.tick := by
      obtain ⟨k, rfl, -⟩ := Rereader.next?_eq_some hnext
      rw [step_of_nextInstr?_rdTick hinstr] at hstep
      cases hstep
      rfl
    cases r with
    | accepted w => cases hnext
    | reading got =>
      obtain ⟨a1, a2, a3, a4, b1, b2, b3, rfl, -⟩ := Rereader.take_eq_accepted htake
      rw [htake, LowReads.afterRead_second rfl] at hu
      have hx := hu.invariant hlt
      rw [LowReads.mk.injEq] at hx
      obtain ⟨-, hv, hzero⟩ := hx
      exact ⟨hzero, hv, htick.trans hv⟩
  · rintro o ⟨b, out, script⟩ rest hscript
    obtain rfl : script = _ := hscript
    obtain ⟨out', h⟩ := rereadRun_turn o b out rest
    exact ⟨_, h, rfl, rfl⟩

end Sys2Proof.Machine
end

/-! PROOFS. The deadline unit (41_deadline_wait.md): the comparator, the writes to `DELAY` and `CMD`, `INT.POLL`, and
the moves of the wait sequencer. -/

section
namespace Sys2Proof.Machine

/-! ### The comparator (R125, R126, R127) -/

/-- `k` ticks from the deadline onward the order test holds iff `k` is in the first half range. -/
theorem Block.reached_iff_of_tick_eq {b : Block} {k : Nat} (hk : k < 2 ^ 32)
    (htick : b.tick = b.target + BitVec.ofNat 32 k) : b.reached = true ↔ k < 2 ^ 31 := by
  have hdiff : b.tick - b.target = BitVec.ofNat 32 k := by rw [htick, BitVec.add_comm, BitVec.add_sub_cancel]
  rw [Block.reached, hdiff, decide_eq_true_iff, BitVec.toNat_ofNat, Nat.mod_eq_of_lt hk]

theorem Block.reached_iff_msb (b : Block) : b.reached = true ↔ (b.tick - b.target).msb = false := by
  rw [BitVec.msb_eq_false_iff_two_mul_lt, Block.reached, decide_eq_true_iff]
  omega

/-- The deadline itself is reached. -/
theorem Block.reached_of_matches {b : Block} (h : b.matches = true) : b.reached = true :=
  (Block.reached_iff_of_tick_eq (k := 0) (by decide) (by simpa using b.matches_iff.mp h)).mpr (by decide)

/-- Settles O57: the ticks counted from the deadline, the sign bit of the difference, and the bits of `STATUS`. -/
theorem comparatorOrdersAcrossTheWrap : Obligations.ComparatorOrdersAcrossTheWrap := by
  refine ⟨fun b k hk htick => b.reached_iff_of_tick_eq hk htick, fun b => ?_⟩
  obtain ⟨-, -, hmatch, hreached, -⟩ := b.statusByte_getLsbD
  refine ⟨?_, ?_, b.matches_iff, b.reached_of_matches, hmatch, hreached, rfl⟩
  · rw [b.reached_iff_msb, BitVec.msb_eq_getLsbD_last]
  · rw [b.reached_iff_msb, BitVec.msb_eq_toInt, decide_eq_false_iff_not, Int.not_lt]

/-! ### The command port (R128, R137) -/

/-- The word number `0x2000 + 0x100 * OFF + DATA` is the bus write of `DATA` at `OFF` (30_encoding.md R81). -/
theorem ofNat_writeWord {n : Nat} (off : BitVec 5) (hn : n = 0x2000 + 0x100 * off.toNat) (v : Byte) :
    BitVec.ofNat 16 (n + v.toNat) = busWord true off v := by
  simpa [hn] using ofNat_busWord true off v

/-- Settles O16: the words of `CMD`, the error case of a bus write with code 3, and the read of 0x00. -/
theorem commandPortTakesOnlyArm : Obligations.CommandPortTakesOnlyArm := by
  refine ⟨fun v hv => ?_, fun d => ?_, fun v s => ?_, fun s => rfl⟩
  · rw [ofNat_writeWord (n := 0x2D00) 0x0D rfl]
    exact decode_encode (i := .cmdBad v) (bne_iff_ne.mpr hv)
  · rw [ofNat_readWord (n := 0x0D00) 0x0D rfl]
    exact decode_readWord (i := .rdCmd) rfl rfl d
  · exact congrArg Host.Outcome.next (s.busWrite_error_eq .badCmd)

/-- A bus write whose effect is an error answers BusError, as claims write it (60_exceptions.md R200). -/
theorem exec_of_write_error {i : Instr} {f : Block → Except ErrCode Block} {c : ErrCode} {s : State}
    (hexec : exec i s = .next (s.busWrite (f s.blk))) (hf : f s.blk = .error c) :
    exec i s = .next { s with blk := s.blk.withFirstError c.code, busOut := .write true } := by
  rw [hexec, hf, State.busWrite_error_eq]

/-- A bus write whose effect is accepted leaves that effect. -/
theorem exec_of_write_ok {i : Instr} {f : Block → Except ErrCode Block} {b : Block} {s : State}
    (hexec : exec i s = .next (s.busWrite (f s.blk))) (hf : f s.blk = .ok b) :
    exec i s = .next { s with blk := b, busOut := .write false } := by
  rw [hexec, hf]; rfl

/-- An accepted `ARM` (R128). -/
theorem exec_cmdArm_of_idle {s : State} (hsvc : s.blk.svc = .idle) (hws : s.blk.ws = .idle) :
    exec .cmdArm s = .next { s with blk := s.blk.arm, busOut := .write false } :=
  exec_of_write_ok (f := writeArm) rfl (writeArm_of_idle hsvc hws)

/-- Settles O24: the three cases of `writeArm`, IN_SERVICE before BUSY (60_exceptions.md R202). -/
theorem armStartsTheWait : Obligations.ArmStartsTheWait := by
  refine ⟨decode_encode (i := .cmdArm) rfl, fun s hsvc => ?_, fun s hsvc hws => ?_, fun s hsvc hws => ?_⟩
  · exact exec_of_write_error (f := writeArm) rfl (if_pos hsvc)
  · exact exec_of_write_error (f := writeArm) (c := .busy) rfl (by simp [writeArm, hsvc, hws])
  · rw [← BitVec.add_def]
    exact exec_cmdArm_of_idle hsvc hws

/-! ### `WR.DELAY` (R121) -/

/-- Byte `m` of a data register on natural numbers (10_state.md R24). -/
theorem toNat_wordByte (x : Word) (m : Fin 4) : (wordByte x m).toNat = x.toNat / 256 ^ m.val % 256 := by
  rw [wordByte_eq_ofNat, BitVec.toNat_ofNat]

/-- The word number of a write of byte `n` of a data register decodes to the write (30_encoding.md R81). -/
theorem decode_wordWriteWord {i : Instr} {g : BitVec 3} {n : Fin 4} {v : Byte} (hwf : i.wf = true)
    (henc : encode i = busWord true (wordOff g n) v) :
    decode (BitVec.ofNat 16 (0x2000 + 0x400 * g.toNat + 0x100 * n.val + v.toNat)) = i := by
  rw [ofNat_writeWord (wordOff g n) (by rw [toNat_wordOff]; omega), ← henc, decode_encode hwf]

/-- Settles O20: the word of byte `n` of `DELAY`, and the two cases of `writeDelay`. -/
theorem delayWriteReplacesOneByte : Obligations.DelayWriteReplacesOneByte := by
  refine ⟨fun n v => ?_, fun n v s hws => ?_, fun n v s hws => ⟨setWordByte s.blk.delay n v, ?_, fun m => ?_⟩⟩
  · exact decode_wordWriteWord (i := .wrDelay n v) (g := 1) rfl rfl
  · exact exec_of_write_error (f := writeDelay n v) rfl (if_pos hws)
  · exact exec_of_write_ok (f := writeDelay n v) rfl (if_neg (not_not.mpr hws))
  · rw [← toNat_wordByte, ← toNat_wordByte, wordByte_setWordByte, apply_ite BitVec.toNat]

/-! ### `INT.POLL` (R129) -/

theorem Block.poll_of_waitOver {b : Block} (h : b.waitOver) : b.poll = b.setWs .idle := if_pos (b.done_iff.mpr h)

theorem Block.poll_of_not_waitOver {b : Block} (h : ¬b.waitOver) : b.poll = b.setWs .halt :=
  if_neg (mt b.done_iff.mp h)

theorem exec_intPoll_of_check {s : State} (h : s.blk.ws = .check) : exec .intPoll s = .next (s.quietStep s.blk.poll) :=
  if_pos (beq_iff_eq.mpr h)

/-- Settles O25: the test in `W_CHECK` with its two answers, and the refusal elsewhere. -/
theorem pollTestsAndHalts : Obligations.PollTestsAndHalts := by
  refine ⟨decode_encode (i := .intPoll) rfl, fun s hws hover => ?_, fun s hws hover => ?_, fun s hws => ?_⟩
  · rw [exec_intPoll_of_check hws, Block.poll_of_waitOver hover]; rfl
  · rw [exec_intPoll_of_check hws, Block.poll_of_not_waitOver hover]; rfl
  · exact if_neg (mt beq_iff_eq.mp hws)

/-! ### The moves of the wait sequencer (R131, R135) -/

/-- What a step without a reset does to `WS`. -/
theorem Effect.ws_cases {i : Instr} {a b : Block} (h : Effect i a b) (hr : i ≠ .sysReset) :
    b.ws = a.ws ∨
    (i = .cmdArm ∧ a.ws = .idle ∧ b.ws = .check) ∨
    (i = .intPoll ∧ a.ws = .check ∧ b.ws = .idle ∧ a.waitOver) ∨
    (i = .intPoll ∧ a.ws = .check ∧ b.ws = .halt ∧ ¬a.waitOver) ∨
    (i = .intClear ∧ a.ws = .halt ∧ b.ws = .check) := by
  cases h with
  | arm _ hws => exact .inr (.inl ⟨rfl, hws, rfl⟩)
  | poll hws =>
    by_cases hover : a.waitOver
    · exact .inr (.inr (.inl ⟨rfl, hws, by rw [Block.poll_of_waitOver hover]; rfl, hover⟩))
    · exact .inr (.inr (.inr (.inl ⟨rfl, hws, by rw [Block.poll_of_not_waitOver hover]; rfl, hover⟩)))
  | clear =>
    by_cases hhalt : a.ws = .halt
    · exact .inr (.inr (.inr (.inr ⟨rfl, hhalt, by simp [hhalt, WaitState.afterService]⟩)))
    · exact .inl (by simp [WaitState.afterService_eq, hhalt])
  | reset => exact absurd rfl hr
  | _ => exact .inl (by simp)

/-- Settles O41: by cases on the effect. -/
theorem waitSequencerMoves : Obligations.WaitSequencerMoves :=
  fun _ _ _ hexec hr => (exec_effect hexec).1.ws_cases hr

end Sys2Proof.Machine
end

/-! PROOFS. What a wait guarantees (41_deadline_wait.md R132 to R136): along a run after an accepted `CMD.ARM`, a count
of the advances made so far says where the wait stands, and the count at which the loop condition holds ends it. -/

section
namespace Sys2Proof.Machine

/-! ### How many advances a wait takes -/

/-- The advances of a wait of `d` (R132, R133): `d`, but none when the order test is already true at the `ARM`. -/
def waitLength (ord : Bool) (d : Word) : Nat := if ord ∧ 2 ^ 31 < d.toNat then 0 else d.toNat

@[simp] theorem waitLength_equality (d : Word) : waitLength false d = d.toNat := if_neg (by simp)

theorem waitLength_of_le {d : Word} (h : d.toNat ≤ 2 ^ 31) (ord : Bool) : waitLength ord d = d.toNat :=
  if_neg fun ⟨_, hgt⟩ => absurd hgt (Nat.not_lt.mpr h)

theorem waitLength_of_gt {d : Word} (h : 2 ^ 31 < d.toNat) : waitLength true d = 0 := if_pos ⟨rfl, h⟩

/-- Up to its length a wait is over exactly at its length: in both modes the loop condition first holds there. -/
theorem Block.waitOver_iff_of_advances {b : Block} {start d : Word} {n : Nat}
    (htick : b.tick = start + BitVec.ofNat 32 n) (htarget : b.target = start + d) (hle : n ≤ waitLength b.ord d) :
    b.waitOver ↔ n = waitLength b.ord d := by
  have hd := d.isLt
  cases hord : b.ord with
  | false =>
    rw [hord, waitLength_equality] at hle
    have hn : n % 2 ^ 32 = n := Nat.mod_eq_of_lt (by omega)
    simp only [Block.waitOver, hord, waitLength_equality, Bool.false_eq_true, if_false]
    rw [htick, htarget, BitVec.add_right_inj, BitVec.toNat_eq, BitVec.toNat_ofNat, hn]
  | true =>
    rw [hord] at hle
    have hstart := start.isLt
    simp only [Block.waitOver, hord, if_true, Block.deadlinePassed, htick, htarget, BitVec.toNat_add,
      BitVec.toNat_ofNat]
    obtain hfar | hhalf := Nat.lt_or_ge (2 ^ 31) d.toNat
    · rw [waitLength_of_gt hfar] at hle ⊢
      omega
    · rw [waitLength_of_le hhalf] at hle ⊢
      omega

/-! ### Where a wait stands -/

/-- No handler of a service has been dispatched: `INT.ENTER` is still to come. -/
def Svc.beforeEnter : Svc → Bool
  | .idle | .ack _ => true
  | .hnd _ | .clr _ => false

/-- No event word dispatches the first handler of a service (42_interrupt_router.md R146, R150). -/
theorem Block.events_beforeEnter (b : Block) (e : BitVec 5) : (b.events e).svc.beforeEnter = b.svc.beforeEnter := by
  obtain hsame | ⟨-, h, k, hsvc, -, hk⟩ | ⟨-, h, hsvc, -, hclr⟩ | ⟨-, hsvc, -, q, hack, -⟩ :=
    b.events_svc_cases e
  · rw [hsame]
  · rw [hk, hsvc]; rfl
  · rw [hclr, hsvc]; rfl
  · rw [hack, hsvc]; rfl

/-- In `W_CHECK` no event word starts a service (42_interrupt_router.md R145). -/
theorem Block.events_svc_of_check {b : Block} (hws : b.ws = .check) (hsvc : b.svc = .idle) (e : BitVec 5) :
    (b.events e).svc = .idle := by
  obtain hsame | ⟨-, h, _, hhnd, -⟩ | ⟨-, h, hhnd, -⟩ | ⟨-, -, hne, -⟩ := b.events_svc_cases e
  · rw [hsame, hsvc]
  · rw [hsvc] at hhnd; cases hhnd
  · rw [hsvc] at hhnd; cases hhnd
  · exact absurd hws hne

/-- Where a wait of length `l` stands after `n` advances. -/
structure WaitPhase (l n : Nat) (b : Block) : Prop where
  le : n ≤ l
  /-- The CPU re-tests in normal context (10_state.md R43 (c)). -/
  check : b.ws = .check → b.svc = .idle
  /-- A halted wait has an advance to come, unless the service that wakes it has begun. -/
  halt : b.ws = .halt → b.svc.beforeEnter = true → n < l
  /-- Only a wait that has an advance to make halts at all. -/
  length_pos : b.ws = .halt → 0 < l
  idle : b.ws = .idle → n = l

/-- An accepted `ARM` starts a wait (R128). -/
theorem WaitPhase.arm {b : Block} (hsvc : b.svc = .idle) (l : Nat) : WaitPhase l 0 b.arm :=
  ⟨Nat.zero_le l, fun _ => hsvc, nofun, nofun, nofun⟩

theorem WaitState.eq_halt {w : WaitState} (hidle : w ≠ .idle) (hcheck : w ≠ .check) : w = .halt := by
  cases w with
  | idle => exact absurd rfl hidle
  | check => exact absurd rfl hcheck
  | halt => rfl

section Moves
variable {l n : Nat} {a b : Block}

/-- The phase is read off `WS` and `SVC`. -/
theorem WaitPhase.congr (h : WaitPhase l n a) (hws : b.ws = a.ws) (hsvc : b.svc = a.svc) : WaitPhase l n b := by
  obtain ⟨hle, hcheck, hhalt, hpos, hidle⟩ := h
  exact ⟨hle, by rwa [hws, hsvc], by rwa [hws, hsvc], by rwa [hws], by rwa [hws]⟩

theorem WaitPhase.events (h : WaitPhase l n a) (e : BitVec 5) : WaitPhase l n (a.events e) := by
  obtain ⟨hle, hcheck, hhalt, hpos, hidle⟩ := h
  refine ⟨hle, fun hws => ?_, ?_, ?_, ?_⟩
  · rw [Block.events_ws] at hws
    exact Block.events_svc_of_check hws (hcheck hws) e
  · rwa [Block.events_ws, Block.events_beforeEnter]
  · rwa [Block.events_ws]
  · rwa [Block.events_ws]

/-- The service that `INT.ENTER` begins makes the advance the halted wait had to come. -/
theorem WaitPhase.enter (h : WaitPhase l n a) (hws : a.ws ≠ .idle) {s : Source} (hs : a.svc = .ack s) :
    WaitPhase l (n + if s = .tim then 1 else 0) (a.enter s) := by
  have hcheck : a.ws ≠ .check := fun hc => by rw [h.check hc] at hs; cases hs
  have hhalt : a.ws = .halt := WaitState.eq_halt hws hcheck
  have hlt : n < l := h.halt hhalt (by rw [hs]; rfl)
  refine ⟨by split <;> omega, fun hc => absurd (a.enter_ws s ▸ hc) hcheck, ?_, fun _ => h.length_pos hhalt,
    fun hi => absurd (a.enter_ws s ▸ hi) hws⟩
  rw [Block.enter_svc]
  nofun

theorem WaitPhase.clear (h : WaitPhase l n a) (hws : a.ws ≠ .idle) (s : Source) : WaitPhase l n (a.clear s) := by
  have hcheck : (a.clear s).ws = .check := by
    rw [Block.clear_ws]
    cases hw : a.ws with
    | idle => exact absurd hw hws
    | check | halt => rfl
  exact ⟨h.le, fun _ => rfl, by rw [hcheck]; nofun, by rw [hcheck]; nofun, by rw [hcheck]; nofun⟩

/-- A re-test ends the wait at its length, and halts it before. -/
theorem WaitPhase.poll (h : WaitPhase l n a) (hover : a.waitOver ↔ n = l) : WaitPhase l n a.poll := by
  have hle := h.le
  by_cases heq : n = l
  · rw [Block.poll_of_waitOver (hover.mpr heq)]
    exact ⟨hle, nofun, nofun, nofun, fun _ => heq⟩
  · rw [Block.poll_of_not_waitOver (mt hover.mp heq)]
    exact ⟨hle, nofun, fun _ _ => by omega, fun _ => by omega, nofun⟩

/-- A step of a wait other than `INT.ENTER` and reset keeps the count of advances. -/
theorem Effect.waitPhase {i : Instr} (heff : Effect i a b) (hr : i ≠ .sysReset) (hi : i ≠ .intEnter)
    (hws : a.ws ≠ .idle) (hover : a.waitOver ↔ n = l) (h : WaitPhase l n a) : WaitPhase l n b := by
  cases heff with
  | events e => exact h.events e
  | clear s => exact h.clear hws s
  | poll => exact h.poll hover
  | arm _ hidle | delay hidle | ctrl hidle => exact absurd hidle hws
  | enter => exact absurd rfl hi
  | reset => exact absurd rfl hr
  | same | error | ien | href => exact h.congr (by simp) (by simp)

/-- An `INT.ENTER` that is carried out is that of the acknowledged source. -/
theorem Effect.eq_enter (h : Effect .intEnter a b) : ∃ s, a.svc = .ack s ∧ b = a.enter s := by
  cases h with
  | enter s hs => exact ⟨s, hs, rfl⟩
  | same hb | error _ hb => cases hb
  | events _ _ _ hi => simp at hi

/-- During a wait `TARGET` and `ORD` stay (R149). -/
theorem Effect.wait_frame {i : Instr} (h : Effect i a b) (hr : i ≠ .sysReset) (hws : a.ws ≠ .idle) :
    b.target = a.target ∧ b.ord = a.ord := by
  cases h with
  | arm _ hidle | ctrl hidle => exact absurd hidle hws
  | reset => exact absurd rfl hr
  | _ => simp

end Moves

/-! ### Runs that wait -/

/-- A wait is in progress and the next step is no reset. -/
def State.waits (s : State) : Prop := ¬s.resetNext ∧ s.blk.ws ≠ .idle

theorem step_wait_frame {t u : State} (ht : t.waits) (hstep : step t = .next u) :
    u.blk.target = t.blk.target ∧ u.blk.ord = t.blk.ord := by
  obtain ⟨hr, hws⟩ := ht
  obtain ⟨w, -, hnext, heff⟩ := step_effect hstep
  exact heff.wait_frame (ne_sysReset_of_not_resetNext hr hnext) hws

theorem step_waitPhase {t u : State} {l n : Nat} (ht : t.waits) (hstep : step t = .next u)
    (hover : t.blk.waitOver ↔ n = l) (h : WaitPhase l n t.blk) : WaitPhase l (n + t.advancesNext) u.blk := by
  obtain ⟨hr, hws⟩ := ht
  obtain ⟨w, -, hnext, heff⟩ := step_effect hstep
  simp only [State.advancesNext, hnext, Option.some.injEq]
  by_cases hi : decode w = .intEnter
  · rw [hi] at heff
    obtain ⟨s, hs, hu⟩ := heff.eq_enter
    simpa [hi, hs, hu] using h.enter hws hs
  · simpa [hi] using heff.waitPhase (ne_sysReset_of_not_resetNext hr hnext) hi hws hover h

/-- The step of an accepted `CMD.ARM` (R128). -/
theorem blk_eq_arm_of_step {s a : State} (hnext : s.nextInstr? = some .cmdArm) (hsvc : s.blk.svc = .idle)
    (hws : s.blk.ws = .idle) (hstep : step s = .next a) : a.blk = s.blk.arm := by
  obtain ⟨w, hscript, hw, -⟩ := step_effect hstep
  have hdec : decode w = .cmdArm := Option.some.inj (hw.symm.trans hnext)
  rw [step_of_script hscript, hdec, exec_cmdArm_of_idle (s := s.setScript a.script) hsvc hws] at hstep
  exact (congrArg State.blk (Host.Outcome.next.inj hstep)).symm

section Armed
variable {b : Block} {a t : State} {n : Nat}

/-- Along a run that waits `TARGET` and `ORD` stay. -/
theorem RunWhile.wait_frame (h : RunWhile State.waits a n t) :
    t.blk.target = a.blk.target ∧ t.blk.ord = a.blk.ord := by
  induction h with
  | start => exact ⟨rfl, rfl⟩
  | step _ hp hstep ih =>
    obtain ⟨htarget, hord⟩ := step_wait_frame hp hstep
    exact ⟨htarget.trans ih.1, hord.trans ih.2⟩

/-- Up to the length of the wait, the loop condition holds exactly when the advances made are that length. -/
theorem RunWhile.waitOver_iff (h : RunWhile State.waits a n t) (harm : a.blk = b.arm)
    (hle : n ≤ waitLength b.ord b.delay) : t.blk.waitOver ↔ n = waitLength b.ord b.delay := by
  obtain ⟨htarget, hord⟩ := h.wait_frame
  have htick := h.tick fun _ hp => hp.1
  rw [harm] at htarget hord htick
  rw [Block.arm_ord] at hord
  rw [← hord] at hle ⊢
  exact Block.waitOver_iff_of_advances htick htarget hle

/-- The invariant of a wait: after `n` advances it stands where its length says. -/
theorem RunWhile.waitPhase (h : RunWhile State.waits a n t) (harm : a.blk = b.arm) (hsvc : b.svc = .idle) :
    WaitPhase (waitLength b.ord b.delay) n t.blk := by
  induction h with
  | start => exact harm ▸ .arm hsvc _
  | step hrun hp hstep ih => exact step_waitPhase hp hstep (hrun.waitOver_iff harm ih.le) ih

/-- While advances are missing a run without a reset waits: nothing else ends the wait. -/
theorem RunWhile.waits_of_lt (h : RunWhile (fun x => ¬x.resetNext) a n t) (harm : a.blk = b.arm)
    (hsvc : b.svc = .idle) (hlt : n < waitLength b.ord b.delay) : RunWhile State.waits a n t := by
  induction h with
  | start => exact .start _
  | step _ hp hstep ih =>
    have hrun := ih (by omega)
    have hws := mt (hrun.waitPhase harm hsvc).idle (by omega)
    exact hrun.step ⟨hp, hws⟩ hstep

end Armed

/-! ### The length of a wait (R132 to R136) -/

/-- `TICK` has come to `TARGET` when `DELAY` advances have been made. -/
theorem RunWhile.tick_eq_target {b : Block} {a t : State} {n : Nat} (h : RunWhile State.waits a n t)
    (harm : a.blk = b.arm) (hn : n = b.delay.toNat) : t.blk.tick = t.blk.target := by
  have htick := h.tick fun _ hp => hp.1
  rw [htick, h.wait_frame.1, harm, hn, BitVec.ofNat_toNat, BitVec.setWidth_eq]
  rfl

/-- Settles O42: in equality mode the length of the wait is `DELAY`. -/
theorem equalityWaitTakesExactlyDelay : Obligations.EqualityWaitTakesExactlyDelay := by
  intro s a t n hnext hsvc hws hord hstep h
  have harm := blk_eq_arm_of_step hnext hsvc hws hstep
  have hphase := h.waitPhase harm hsvc
  have hover := h.waitOver_iff harm hphase.le
  rw [hord, waitLength_equality] at hphase hover
  exact ⟨hphase.le, fun hidle => ⟨hphase.idle hidle, h.tick_eq_target harm (hphase.idle hidle)⟩,
    fun _ => hover⟩

/-- Settles O43: in ordered mode the length of the wait is `DELAY` up to half the range, and nothing beyond. -/
theorem orderedWaitNeedsHalfRange : Obligations.OrderedWaitNeedsHalfRange := by
  intro s a t n hnext hsvc hws hord hstep h
  have harm := blk_eq_arm_of_step hnext hsvc hws hstep
  have hphase := h.waitPhase harm hsvc
  have hover := h.waitOver_iff harm hphase.le
  refine ⟨fun hhalf => ?_, fun hfar => ?_⟩
  · rw [waitLength_of_le hhalf] at hphase hover
    exact ⟨hphase.le, hphase.idle, fun _ => hover⟩
  · rw [hord, waitLength_of_gt hfar] at hphase hover
    have hzero := Nat.le_zero.mp hphase.le
    exact ⟨hzero, fun hhalt => absurd (hphase.length_pos hhalt) (Nat.lt_irrefl 0), fun _ => hover.mpr hzero⟩

/-- Settles O44: in both modes the length of the wait is 0, so it never halts. -/
theorem zeroDelayNeverHalts : Obligations.ZeroDelayNeverHalts := by
  intro s a t n hnext hsvc hws hdelay hstep h
  have harm := blk_eq_arm_of_step hnext hsvc hws hstep
  have hlength : waitLength s.blk.ord s.blk.delay = 0 := by
    rw [waitLength_of_le (by rw [hdelay]; decide), hdelay]; rfl
  have hphase := h.waitPhase harm hsvc
  have hover := h.waitOver_iff harm hphase.le
  rw [hlength] at hphase hover
  have hzero := Nat.le_zero.mp hphase.le
  have hhalt : t.blk.ws ≠ .halt := fun hhalt => absurd (hphase.length_pos hhalt) (Nat.lt_irrefl 0)
  exact ⟨hzero, h.tick_eq_target harm (by rw [hzero, hdelay]; rfl), hhalt, by simp [Block.lpReq, hhalt],
    fun _ => hover.mpr hzero⟩

/-- Settles O45: without an advance the wait has one to come, so its run goes on waiting; and a disabled TIM is not
served (`RunWhile.tim_not_served`). -/
theorem waitBlocksWithoutTimerServices : Obligations.WaitBlocksWithoutTimerServices := by
  intro s a t n hnext hsvc hws hord hdelay hstep
  have harm := blk_eq_arm_of_step hnext hsvc hws hstep
  refine ⟨fun h => ?_, fun h => ?_⟩
  · have hlt : 0 < waitLength s.blk.ord s.blk.delay := by
      rw [hord, waitLength_equality, Nat.pos_iff_ne_zero]
      exact fun h0 => hdelay (BitVec.eq_of_toNat_eq h0)
    have hrun := h.waits_of_lt harm hsvc hlt
    refine ⟨mt (hrun.waitOver_iff harm hlt.le).mp hlt.ne, mt (hrun.waitPhase harm hsvc).idle hlt.ne, ?_⟩
    simpa [harm] using h.tick fun _ => id
  · have hidle : a.blk.svc.source? ≠ some .tim := by rw [harm, Block.arm_svc, hsvc]; nofun
    exact (h.tim_not_served hidle).2.1

/-! ### The schedule of one whole wait (R132, 95_test_vectors.md S3) -/

/-- Normal context, equality mode, TIM enabled, with `k` advances between `TICK` and `TARGET`. -/
structure Block.LacksAdvances (b : Block) (k : Nat) : Prop where
  svc : b.svc = .idle
  ord : b.ord = false
  ien : flag b.ien .tim = true
  target : b.target = b.tick + BitVec.ofNat 32 k

/-- One timer interrupt makes one of the advances. -/
theorem Block.LacksAdvances.advance {b : Block} {k : Nat} (h : b.LacksAdvances (k + 1)) :
    ((b.raise .tim).advance.clear .tim).LacksAdvances k := by
  obtain ⟨-, hord, hien, htarget⟩ := h
  refine ⟨rfl, by simpa [Block.advance], by simpa [Block.advance], ?_⟩
  have hsplit : BitVec.ofNat 32 (k + 1) = 1 + BitVec.ofNat 32 k := by rw [BitVec.ofNat_add, BitVec.add_comm]; rfl
  simpa [Block.advance, hsplit, BitVec.add_assoc] using htarget

/-- A re-test changes `WS` only. -/
theorem Block.LacksAdvances.poll {b : Block} {k : Nat} (h : b.LacksAdvances k) : b.poll.LacksAdvances k := by
  obtain ⟨hsvc, hord, hien, htarget⟩ := h
  exact ⟨by simpa, by simpa, by simpa, by simpa⟩

/-- A re-test ends the wait when no advance is missing, else it halts. -/
theorem Block.LacksAdvances.poll_ws {b : Block} {k : Nat} (h : b.LacksAdvances k) (hk : k < 2 ^ 32) :
    b.poll.ws = if k = 0 then .idle else .halt := by
  have hover := Block.waitOver_iff_of_advances (b := b) (start := b.tick) (d := BitVec.ofNat 32 k) (n := 0)
    (by simp) h.target (Nat.zero_le _)
  rw [h.ord, waitLength_equality, BitVec.toNat_ofNat, Nat.mod_eq_of_lt hk] at hover
  by_cases h0 : k = 0
  · rw [Block.poll_of_waitOver (hover.mpr h0.symm), if_pos h0]; rfl
  · rw [Block.poll_of_not_waitOver fun hw => h0 (hover.mp hw).symm, if_neg h0]; rfl

/-- `k` turns of the schedule: a timer interrupt and a re-test each. -/
def waitTurns (k : Nat) : List Instr := (List.replicate k (advanceOps ++ [.intPoll])).flatten

theorem waitTurns_succ (k : Nat) : waitTurns (k + 1) = advanceOps ++ .intPoll :: waitTurns k := by
  simp [waitTurns, List.replicate_succ]

theorem waitSchedule_eq (d : Word) : waitSchedule d = waitMs d ++ .intPoll :: waitTurns d.toNat := by
  simp [waitSchedule, waitTurns]

/-- A run grows by a re-test in `W_CHECK` (R129). -/
theorem runsTo_snoc_intPoll {n : Nat} {s : State} {b : Block} {o : BusOut} {rest : List StepWord}
    (h : runsTo n s ⟨b, o, encode .intPoll :: rest⟩) (hws : b.ws = .check) :
    runsTo (n + 1) s ⟨b.poll, .none, rest⟩ :=
  runsTo_snoc_encode h rfl (exec_intPoll_of_check hws)

/-- From the re-test of a wait that lacks `k` advances, `k` turns return from it. -/
theorem runsTo_waitTurns (rest : List StepWord) {k : Nat} (hk : k < 2 ^ 32) {c : Block} (h : c.LacksAdvances k) :
    ∃ b : Block, runsTo (7 * k) ⟨c.poll, .none, (waitTurns k).map encode ++ rest⟩ ⟨b, .none, rest⟩ ∧
      b.ws = .idle ∧ b.LacksAdvances 0 ∧ b.target = c.target ∧ b.err = c.err := by
  induction k generalizing c with
  | zero => exact ⟨c.poll, runsTo_zero _, h.poll_ws hk, h.poll, c.poll_target, c.poll_err⟩
  | succ k ih =>
    have hhalt : c.poll.ws = .halt := h.poll_ws hk
    obtain ⟨b, hrun, hws, hlacks, htarget, herr⟩ := ih (by omega) h.poll.advance
    have hadvance := runsTo_advanceOps h.poll.svc (by rw [hhalt]; nofun) h.poll.ien .none
      ((.intPoll :: waitTurns k).map encode ++ rest)
    have hpoll := runsTo_snoc_intPoll hadvance (by simp [Block.advance, hhalt, WaitState.afterService])
    refine ⟨b, ?_, hws, hlacks, by simpa [Block.advance] using htarget, by simpa [Block.advance] using herr⟩
    rw [waitTurns_succ, List.map_append, List.append_assoc, Nat.mul_succ, Nat.add_comm]
    exact runsTo_add hpoll hrun

/-- Settles O47: `WAITMS d` arms a wait that lacks `d` advances, and the turns make them. -/
theorem waitMsReturnsAfterServices : Obligations.WaitMsReturnsAfterServices := by
  intro d rest s hsvc hws hord hien hscript
  rw [waitSchedule_eq, List.map_append, List.append_assoc] at hscript
  have hlacks : (s.blk.setDelay d).arm.LacksAdvances d.toNat := ⟨hsvc, hord, hien, by simp⟩
  have hpoll := runsTo_snoc_intPoll ((waitMs_accepted hsvc hws d).runsTo rfl hscript) rfl
  obtain ⟨b, hrun, hidle, ⟨hbsvc, -, -, hbtarget⟩, htarget, herr⟩ := runsTo_waitTurns rest d.isLt hlacks
  have htick : b.target = b.tick := by simpa using hbtarget
  exact ⟨_, runsTo_add hpoll hrun, rfl, hidle, hbsvc, htick.symm.trans htarget, htick, herr⟩

end Sys2Proof.Machine
end

/-! PROOFS. The interrupt router (42_interrupt_router.md): what each event and internal step does (R143 to R151), how an
event word composes its events (R152), and what a service guarantees (R153 to R156). -/

section
namespace Sys2Proof.Machine

/-! ### Steps that drive nothing on the bus -/

/-- The instruction is enabled in every state, changes the record by `f`, and drives nothing on the bus. -/
def ActsBy (i : Instr) (f : Block → Block) : Prop := ∀ s : State, exec i s = .next (s.quietStep (f s.blk))

theorem actsBy_raiseOf (src : Source) : ActsBy (raiseOf src) (·.raise src) := by
  intro s
  cases src <;> rfl

theorem actsBy_evtHret : ActsBy .evtHret Block.hret := fun _ => rfl

theorem actsBy_evtIack : ActsBy .evtIack Block.iack := fun _ => rfl

/-! ### Raise (R143) -/

/-- A raise writes `PEND` and `OVR` only. -/
theorem Block.raise_frame (b : Block) (src : Source) :
    b.raise src = { b with pend := (b.raise src).pend, ovr := (b.raise src).ovr } := by
  unfold Block.raise
  split <;> rfl

/-- Settles O26: a raise in every state, its two registers bit by bit. -/
theorem raiseSetsPendingOrOverrun : Obligations.RaiseSetsPendingOrOverrun := by
  refine ⟨⟨decode_encode (i := .evtRaiseTim) rfl, decode_encode (i := .evtRaiseRtc) rfl,
    decode_encode (i := .evtRaiseExt) rfl⟩, fun src s => ⟨(s.blk.raise src).pend, (s.blk.raise src).ovr, ?_, ?_⟩⟩
  · rw [← Block.raise_frame]
    exact actsBy_raiseOf src s
  · intro q
    simp

/-! ### Acknowledge (R144 to R146) -/

/-- The first pending and enabled source in `PRIO` is acknowledged. -/
theorem Block.iack_of_first {b : Block} {src : Source} (hsvc : b.svc = .idle) (hws : b.ws ≠ .check)
    (hpend : flag b.pend src = true) (hien : flag b.ien src = true)
    (hfirst : ∀ q : Source, q.index < src.index → ¬(flag b.pend q = true ∧ flag b.ien q = true)) :
    b.iack = b.setSvc (.ack src) := by
  have hirq : b.irq = true := b.irq_iff.mpr ⟨hsvc, hws, src, hpend, hien⟩
  have hsel : b.sel = some src := by
    rw [Block.sel_eq_some, Block.flag_req, hpend, hien]
    exact ⟨rfl, fun q hq => by rw [Block.flag_req, ← Bool.not_eq_true, Bool.and_eq_true]; exact hfirst q hq⟩
  exact Block.iack_of_irq hirq hsel

/-- Settles O27: an acknowledge takes the first request, and is ignored while `irq` is low. -/
theorem iackSelectsByPriority : Obligations.IackSelectsByPriority := by
  refine ⟨decode_encode (i := .evtIack) rfl, fun s => ⟨fun src hsvc hws hpend hien hfirst => ?_, fun hlow => ?_⟩⟩
  · rw [actsBy_evtIack, Block.iack_of_first hsvc hws hpend hien hfirst]
    rfl
  · have hirq : s.blk.irq = false := by
      rw [← Bool.not_eq_true, Block.irq_iff]
      rintro ⟨hsvc, hws, src, hreq⟩
      obtain hne | hcheck | hnone := hlow
      · exact hne hsvc
      · exact hws hcheck
      · exact hnone src hreq
    rw [actsBy_evtIack, Block.iack_of_not_irq hirq]
    rfl

/-! ### Enter (R147, R148) -/

theorem exec_intEnter_of_ack {s : State} {src : Source} (h : s.blk.svc = .ack src) :
    exec .intEnter s = .next (s.quietStep (s.blk.enter src)) := by
  simp only [exec, execIntEnter, h]

theorem exec_intEnter_of_not_ack {s : State} (h : ∀ src, s.blk.svc ≠ .ack src) :
    exec .intEnter s = .refused .enterNotEnabled := by
  simp only [exec, execIntEnter]
  split
  case h_1 src hack => exact absurd hack (h src)
  all_goals rfl

/-- `INT.ENTER` writes `TICK` and `SVC` only. -/
theorem Block.enter_frame (b : Block) (src : Source) :
    b.enter src = { b with tick := (b.enter src).tick, svc := .hnd (firstHandler src) } := by
  cases src <;> rfl

/-- Settles O28: the effect of `ENTER`, the slot of each source's first handler, and the refusal elsewhere. -/
theorem enterAdvancesAndDispatches : Obligations.EnterAdvancesAndDispatches := by
  refine ⟨decode_encode (i := .intEnter) rfl, fun src s hack => ?_, fun s => exec_intEnter_of_not_ack⟩
  refine ⟨firstHandler src, _, exec_intEnter_of_ack hack, ?_, firstHandler_source src, firstHandler_step src, ?_⟩
  · have htick : BitVec.ofNat 32 (s.blk.tick.toNat + 1) = s.blk.tick + 1 := (BitVec.add_def s.blk.tick 1).symm
    rw [htick, ← Block.enter_tick, ← Block.enter_frame]
    rfl
  · cases src <;> exact ⟨rfl, rfl, rfl⟩

/-! ### Handler return (R150) -/

theorem Block.hret_of_next {b : Block} {h k : Handler} (hsvc : b.svc = .hnd h) (hnext : h.next? = some k) :
    b.hret = b.setSvc (.hnd k) := by
  simp only [Block.hret, hsvc, hnext]

theorem Block.hret_of_last {b : Block} {h : Handler} (hsvc : b.svc = .hnd h) (hlast : h.next? = none) :
    b.hret = b.setSvc (.clr h.source) := by
  simp only [Block.hret, hsvc, hlast]

theorem Block.hret_of_not_running {b : Block} (h : ∀ k, b.svc ≠ .hnd k) : b.hret = b.recordErr .spuriousHret := by
  unfold Block.hret
  split
  case h_1 k hsvc => exact absurd hsvc (h k)
  all_goals rfl

/-- Only the first TIM handler has a next (R141). -/
theorem Handler.next?_eq_none_of_ne {h : Handler} (hne : h ≠ .tim0) : h.next? = none := by
  cases h with
  | tim0 => exact absurd rfl hne
  | tim1 | rtc0 | ext0 => rfl

/-- Settles O29: the next handler, the end of the list, and the spurious return. -/
theorem hretDispatchesNextOrClears : Obligations.HretDispatchesNextOrClears := by
  refine ⟨decode_encode (i := .evtHret) rfl, fun s hsvc => ⟨_, actsBy_evtHret s, ?_⟩, fun h s hsvc hne => ?_,
    fun s hnone => ?_⟩
  · rw [Block.hret_of_next hsvc rfl]
    exact ⟨rfl, rfl, rfl⟩
  · rw [actsBy_evtHret, Block.hret_of_last hsvc (Handler.next?_eq_none_of_ne hne)]
    rfl
  · rw [actsBy_evtHret, Block.hret_of_not_running hnone, Block.recordErr_eq]
    rfl

/-! ### Clear (R151) -/

theorem exec_intClear_of_clr {s : State} {src : Source} (h : s.blk.svc = .clr src) :
    exec .intClear s = .next (s.quietStep (s.blk.clear src)) := by
  simp only [exec, execIntClear, h]

theorem exec_intClear_of_not_clr {s : State} (h : ∀ src, s.blk.svc ≠ .clr src) :
    exec .intClear s = .refused .clearNotEnabled := by
  simp only [exec, execIntClear]
  split
  case h_1 src hclr => exact absurd hclr (h src)
  all_goals rfl

/-- Settles O30: the effect of `CLEAR`, the flags bit by bit, and the refusal elsewhere. -/
theorem clearEndsTheService : Obligations.ClearEndsTheService := by
  refine ⟨decode_encode (i := .intClear) rfl, fun src s hclr => ⟨clearFlag s.blk.pend src, ?_, fun q => ?_⟩,
    fun s => exec_intClear_of_not_clr⟩
  · rw [exec_intClear_of_clr hclr, ← WaitState.afterService_eq]
    rfl
  · simp

/-! ### Event words (R152) -/

/-- A conditional further event, after a step that drives nothing. -/
theorem ActsBy.thenIf {i : Instr} {f : Block → Block} (h : ActsBy i f) (c : Bool) (s : State) (b : Block) :
    Machine.thenIf c i (.next (s.quietStep b)) = .next (s.quietStep (if c then f b else b)) := by
  cases c with
  | false => rfl
  | true => exact h (s.quietStep b)

/-- Two instructions whose effects on the record commute may be carried out in either order. -/
theorem ActsBy.thenIf_comm {i j : Instr} {f g : Block → Block} (hi : ActsBy i f) (hj : ActsBy j g)
    (hcomm : ∀ b, g (f b) = f (g b)) (s : State) :
    Machine.thenIf true j (exec i s) = Machine.thenIf true i (exec j s) := by
  rw [hi, hj, hj.thenIf, hi.thenIf, if_pos rfl, if_pos rfl, hcomm]

theorem Block.raise_setSvc (b : Block) (src : Source) (v : Svc) :
    (b.setSvc v).raise src = (b.raise src).setSvc v := by
  unfold Block.raise
  rw [Block.setSvc_pend]
  split <;> rfl

theorem Block.raise_recordErr (b : Block) (src : Source) (c : ErrCode) :
    (b.recordErr c).raise src = (b.raise src).recordErr c := by
  unfold Block.recordErr
  rw [Block.raise_err]
  split
  · unfold Block.raise
    rw [Block.setErr_pend]
    split <;> rfl
  · rfl

/-- A raise and a handler return commute: they write different fields, and neither reads what the other writes. -/
theorem Block.hret_raise (b : Block) (src : Source) : (b.raise src).hret = b.hret.raise src := by
  obtain ⟨h, k, hsvc, hnext, heq⟩ | ⟨h, hsvc, hlast, heq⟩ | ⟨hnone, heq⟩ := b.hret_cases
  · rw [heq, Block.raise_setSvc, Block.hret_of_next (by rwa [Block.raise_svc]) hnext]
  · rw [heq, Block.raise_setSvc, Block.hret_of_last (by rwa [Block.raise_svc]) hlast]
  · rw [heq, Block.raise_recordErr, Block.hret_of_not_running (by rwa [Block.raise_svc])]

/-- Two raises commute. -/
theorem Block.raise_comm (b : Block) (p q : Source) : (b.raise p).raise q = (b.raise q).raise p := by
  have hpend : ((b.raise p).raise q).pend = ((b.raise q).raise p).pend :=
    flags_ext fun x => by simp [Bool.or_right_comm]
  have hovr : ((b.raise p).raise q).ovr = ((b.raise q).raise p).ovr := by
    by_cases heq : p = q
    · rw [heq]
    · exact flags_ext fun x => by simp [heq, Ne.symm heq, Bool.or_right_comm]
  exact Block.ext_fields (by simp) (by simp) (by simp) (by simp) (by simp) (by simp) (by simp) hpend hovr (by simp)
    (by simp) (by simp)

theorem exists_raiseOf_of_mem {i : Instr} (h : i ∈ ([.evtRaiseTim, .evtRaiseRtc, .evtRaiseExt] : List Instr)) :
    ∃ src, i = raiseOf src := by
  simp only [List.mem_cons, List.not_mem_nil, or_false] at h
  obtain rfl | rfl | rfl := h
  · exact ⟨.tim, rfl⟩
  · exact ⟨.rtc, rfl⟩
  · exact ⟨.ext, rfl⟩

/-- The word number `0x4000 + EV` is the event word of `EV` (30_encoding.md R82). -/
theorem add_setWidth_eq_evtWord : ∀ e : BitVec 5, 0x4000 + e.setWidth 16 = evtWord e := by decide

/-- With a handler running no event word starts a service (R152's remark; log entry 19). -/
theorem Block.events_not_ack {b : Block} {h : Handler} (hsvc : b.svc = .hnd h) (e : BitVec 5) (src : Source) :
    (b.events e).svc ≠ .ack src := by
  obtain hsame | ⟨-, _, k, -, -, hk⟩ | ⟨-, _, -, -, hclr⟩ | ⟨-, hidle, -⟩ := b.events_svc_cases e
  · rw [hsame, hsvc]; nofun
  · rw [hk]; nofun
  · rw [hclr]; nofun
  · rw [hsvc] at hidle; cases hidle

/-- Settles O31: the five conditional events one after the other are `Block.events`; raises commute with raises and
with the handler return; a running handler leaves no room for an acknowledge. -/
theorem eventWordsCompose : Obligations.EventWordsCompose := by
  refine ⟨⟨decode_encode (i := .evtNone) rfl, fun e he => ?_⟩, fun s => rfl, fun e s => ⟨_, rfl, ?_⟩,
    fun i j s hi hj => ?_, fun e h s t _ hsvc hexec src => ?_⟩
  · rw [add_setWidth_eq_evtWord]
    exact decode_encode (i := .evtMulti e) (by simp [Instr.wf, he])
  · have hnone : exec .evtNone s = .next (s.quietStep s.blk) := rfl
    have htim : ActsBy .evtRaiseTim (·.raise .tim) := actsBy_raiseOf .tim
    have hrtc : ActsBy .evtRaiseRtc (·.raise .rtc) := actsBy_raiseOf .rtc
    have hext : ActsBy .evtRaiseExt (·.raise .ext) := actsBy_raiseOf .ext
    rw [hnone, htim.thenIf, hrtc.thenIf, hext.thenIf, actsBy_evtHret.thenIf, actsBy_evtIack.thenIf]
    rfl
  · obtain ⟨p, rfl⟩ := exists_raiseOf_of_mem hi
    obtain hraise | rfl : j ∈ ([.evtRaiseTim, .evtRaiseRtc, .evtRaiseExt] : List Instr) ∨ j = .evtHret := by
      simpa [or_assoc] using hj
    · obtain ⟨q, rfl⟩ := exists_raiseOf_of_mem hraise
      exact (actsBy_raiseOf p).thenIf_comm (actsBy_raiseOf q) (fun b => b.raise_comm p q) s
    · exact (actsBy_raiseOf p).thenIf_comm actsBy_evtHret (fun b => b.hret_raise p) s
  · cases hexec
    exact Block.events_not_ack hsvc e src

/-! ### A service does not nest (R153) -/

/-- What a step without a reset does to the service in progress. -/
theorem Effect.svc_cases {i : Instr} {a b : Block} (h : Effect i a b) (hsvc : a.svc ≠ .idle) (hr : i ≠ .sysReset) :
    b.svc = a.svc ∨
    (i = .intEnter ∧ ∃ src, a.svc = .ack src ∧ b.svc = .hnd (firstHandler src)) ∨
    (i.returns = true ∧ ∃ h, a.svc = .hnd h ∧
      ((h.next? = none ∧ b.svc = .clr h.source) ∨ ∃ k, h.next? = some k ∧ b.svc = .hnd k)) ∨
    (i = .intClear ∧ ∃ src, a.svc = .clr src ∧ b.svc = .idle) := by
  cases h with
  | events e _ hbits =>
    subst hbits
    obtain hsame | ⟨hret, h, k, hh, hnext, hk⟩ | ⟨hret, h, hh, hlast, hclr⟩ | ⟨-, hidle, -⟩ :=
      a.events_svc_cases i.eventBits
    · exact .inl hsame
    · exact .inr (.inr (.inl ⟨hret, h, hh, .inr ⟨k, hnext, hk⟩⟩))
    · exact .inr (.inr (.inl ⟨hret, h, hh, .inl ⟨hlast, hclr⟩⟩))
    · exact absurd hidle hsvc
  | enter src hack => exact .inr (.inl ⟨rfl, src, hack, a.enter_svc src⟩)
  | clear src hclr => exact .inr (.inr (.inr ⟨rfl, src, hclr, rfl⟩))
  | reset => exact absurd rfl hr
  | _ => exact .inl (by simp)

/-- Settles O39: what the effect does to `SVC`, with the handler lists on numbers. -/
theorem servicesDoNotNest : Obligations.ServicesDoNotNest := by
  intro i s t hsvc hexec hr
  obtain hsame | ⟨hi, src, hack, hhnd⟩ | ⟨hret, h, hh, hmove⟩ | hclear := (exec_effect hexec).1.svc_cases hsvc hr
  · exact .inl hsame
  · exact .inr (.inl ⟨hi, src, _, hack, hhnd, firstHandler_source src, firstHandler_step src⟩)
  · refine .inr (.inr (.inl ⟨hret, h, hh, hmove.imp ?_ ?_⟩))
    · exact And.imp_left h.next?_none.mp
    · rintro ⟨k, hnext, hk⟩
      exact ⟨k, hk, Handler.next?_some hnext⟩
  · exact .inr (.inr (.inr hclear))

/-! ### What the handlers read (R108, R154) -/

/-- While a handler is dispatched no step advances `TICK`. -/
theorem State.advancesNext_of_dispValid {s : State} (h : s.blk.dispValid = true) : s.advancesNext = 0 := by
  refine if_neg fun ⟨_, hack⟩ => ?_
  simp [Block.dispValid, Block.handler?, hack] at h

theorem RunWhile.advances_eq_zero {P : State → Prop} (hP : ∀ x, P x → x.blk.dispValid = true) {s t : State} {n : Nat}
    (h : RunWhile P s n t) : n = 0 := by
  induction h with
  | start => rfl
  | step _ hp _ ih => rw [ih, State.advancesNext_of_dispValid (hP _ hp)]

/-- Settles O40: the `INT.ENTER` advances once, and no step of its handlers does. -/
theorem handlersSeePostIncrementTick : Obligations.HandlersSeePostIncrementTick := by
  intro s t u n hnext hack hstep hrun
  have henter : t.blk.tick = s.blk.tick + 1 := by
    have hr : ¬s.resetNext := by rw [State.resetNext, hnext]; nofun
    rw [step_tick hstep hr, State.advancesNext, if_pos ⟨hnext, hack⟩]
    rfl
  obtain rfl := hrun.advances_eq_zero fun _ hx => hx.2
  have htick : u.blk.tick = s.blk.tick + 1 := by simpa [henter] using hrun.tick fun _ hx => hx.1
  refine ⟨htick, fun m => ?_⟩
  rw [← htick, ← wordByte_eq_ofNat]
  rfl

/-! ### A service and `IEN` (R156) -/

theorem Block.enter_setIen (b : Block) (e : BitVec 3) (src : Source) :
    (b.setIen e).enter src = (b.enter src).setIen e := by
  cases src <;> rfl

theorem Block.recordErr_setIen (b : Block) (e : BitVec 3) (c : ErrCode) :
    (b.setIen e).recordErr c = (b.recordErr c).setIen e := by
  unfold Block.recordErr
  rw [Block.setIen_err]
  split <;> rfl

theorem Block.hret_setIen (b : Block) (e : BitVec 3) : (b.setIen e).hret = b.hret.setIen e := by
  obtain ⟨h, k, hsvc, hnext, heq⟩ | ⟨h, hsvc, hlast, heq⟩ | ⟨hnone, heq⟩ := b.hret_cases
  · rw [heq, Block.hret_of_next (b := b.setIen e) hsvc hnext]; rfl
  · rw [heq, Block.hret_of_last (b := b.setIen e) hsvc hlast]; rfl
  · rw [heq, Block.hret_of_not_running (b := b.setIen e) hnone, Block.recordErr_setIen]

/-- An `INT.CLEAR` that is carried out is that of the service to be cleared. -/
theorem Effect.eq_clear {a b : Block} (h : Effect .intClear a b) : ∃ src, a.svc = .clr src ∧ b = a.clear src := by
  cases h with
  | clear src hclr => exact ⟨src, hclr, rfl⟩
  | same hb | error _ hb => cases hb
  | events _ _ _ hi => simp at hi

/-- Settles O53: each of the three effects commutes with replacing `IEN`, and is enabled by `SVC` alone. -/
theorem serviceIgnoresEnable : Obligations.ServiceIgnoresEnable := by
  intro i e s t hi hexec
  have heff := (exec_effect hexec).1
  change exec i (s.setBlk (s.blk.setIen e)) = .next (t.setBlk (t.blk.setIen e))
  simp only [List.mem_cons, List.not_mem_nil, or_false] at hi
  obtain rfl | rfl | rfl := hi
  · obtain ⟨src, hack, -⟩ := heff.eq_enter
    cases (exec_intEnter_of_ack hack).symm.trans hexec
    rw [exec_intEnter_of_ack (s := s.setBlk (s.blk.setIen e)) hack, State.setBlk_blk, Block.enter_setIen]
    rfl
  · cases hexec
    rw [actsBy_evtHret, State.setBlk_blk, Block.hret_setIen]
    rfl
  · obtain ⟨src, hclr, -⟩ := heff.eq_clear
    cases (exec_intClear_of_clr hclr).symm.trans hexec
    rw [exec_intClear_of_clr (s := s.setBlk (s.blk.setIen e)) hclr]
    rfl

/-! ### One event and its service (R155, 95_test_vectors.md S5) -/

/-- A run grows by an event that drives nothing on the bus. -/
theorem ActsBy.runsTo_snoc {i : Instr} {f : Block → Block} (h : ActsBy i f) (hwf : i.wf = true) {n : Nat} {s : State}
    {b : Block} {o : BusOut} {rest : List StepWord} (hrun : runsTo n s ⟨b, o, encode i :: rest⟩) :
    runsTo (n + 1) s ⟨f b, .none, rest⟩ :=
  runsTo_snoc_encode hrun hwf (h _)

section Runs
variable {n : Nat} {s : State} {b : Block} {o : BusOut} {rest : List StepWord}

theorem runsTo_snoc_raiseOf {src : Source} (h : runsTo n s ⟨b, o, encode (raiseOf src) :: rest⟩) :
    runsTo (n + 1) s ⟨b.raise src, .none, rest⟩ :=
  (actsBy_raiseOf src).runsTo_snoc (by cases src <;> rfl) h

theorem runsTo_snoc_intEnter {src : Source} (h : runsTo n s ⟨b, o, encode .intEnter :: rest⟩)
    (hack : b.svc = .ack src) : runsTo (n + 1) s ⟨b.enter src, .none, rest⟩ :=
  runsTo_snoc_encode h rfl (exec_intEnter_of_ack hack)

theorem runsTo_snoc_intClear {src : Source} (h : runsTo n s ⟨b, o, encode .intClear :: rest⟩)
    (hclr : b.svc = .clr src) : runsTo (n + 1) s ⟨b.clear src, .none, rest⟩ :=
  runsTo_snoc_encode h rfl (exec_intClear_of_clr hclr)

/-- A run grows by the return of the last handler of a source. -/
theorem runsTo_snoc_lastReturn {k : Handler} (h : runsTo n s ⟨b, o, encode .evtHret :: rest⟩) (hsvc : b.svc = .hnd k)
    (hlast : k.next? = none) : runsTo (n + 1) s ⟨b.setSvc (.clr k.source), .none, rest⟩ := by
  rw [← Block.hret_of_last hsvc hlast]
  exact actsBy_evtHret.runsTo_snoc rfl h

end Runs

/-- What a service does after its acknowledge and its `INT.ENTER`: the handlers return, the flag is cleared. -/
def afterEnter : Source → List Instr
  | .tim => [.evtHret, .evtHret, .intClear]
  | .rtc | .ext => [.evtHret, .intClear]

theorem service_eq (src : Source) : service src = .evtIack :: .intEnter :: afterEnter src := by cases src <;> rfl

/-- With nothing pending, a raise of an enabled source is the one request, which the acknowledge takes. -/
theorem Block.iack_raise {b : Block} {src : Source} (hsvc : b.svc = .idle) (hws : b.ws ≠ .check) (hpend : b.pend = 0)
    (hien : flag b.ien src = true) : (b.raise src).iack = (b.raise src).setSvc (.ack src) := by
  have hclear := (flags_eq_zero b.pend).mp hpend
  refine Block.iack_of_first (by simpa) (by simpa) (by simp) (by simpa) fun q hq ⟨hreq, _⟩ => ?_
  have heq : q = src := by simpa [hclear] using hreq
  exact absurd (heq ▸ hq) (Nat.lt_irrefl _)

/-- The first three steps of an event and its service lead to the first handler. -/
theorem runsTo_firstHandler {b : Block} {src : Source} (hsvc : b.svc = .idle) (hws : b.ws ≠ .check) (hpend : b.pend = 0)
    (hien : flag b.ien src = true) (o : BusOut) (rest : List StepWord) :
    runsTo 3 ⟨b, o, (raiseOf src :: service src).map encode ++ rest⟩
      ⟨(b.raise src).enter src, .none, (afterEnter src).map encode ++ rest⟩ := by
  rw [service_eq]
  have h1 := runsTo_snoc_raiseOf (src := src)
    (runsTo_zero ⟨b, o, (raiseOf src :: .evtIack :: .intEnter :: afterEnter src).map encode ++ rest⟩)
  have h2 := actsBy_evtIack.runsTo_snoc rfl h1
  rw [Block.iack_raise hsvc hws hpend hien] at h2
  have h3 := runsTo_snoc_intEnter h2 rfl
  have henter : ((b.raise src).setSvc (.ack src)).enter src = (b.raise src).enter src := by cases src <;> rfl
  rwa [henter] at h3

/-- An event and its service leave what they found, but for the advance of TIM and the re-test of a halted wait. -/
theorem Block.clear_enter_raise {b : Block} (hsvc : b.svc = .idle) (hpend : b.pend = 0) (src : Source) :
    ((b.raise src).enter src).clear src = { b with
      tick := if src = .tim then b.tick + 1 else b.tick, ws := if b.ws = .halt then .check else b.ws } := by
  have hflags := (flags_eq_zero b.pend).mp hpend
  have hpend' : clearFlag (b.raise src).pend src = b.pend := flags_ext fun q => by simp [hflags]
  have hovr : (b.raise src).ovr = b.ovr := flags_ext fun q => by simp [hflags]
  apply Block.ext_fields <;> simp [hpend', hovr, hsvc, WaitState.afterService_eq]

/-- Settles O51: the handlers of each source in turn, from the first handler on. -/
theorem oneEventOneService : Obligations.OneEventOneService := by
  rintro src rest ⟨b, o, script⟩ hsvc hws hpend hien hscript
  simp only at hsvc hws hpend hien hscript
  subst hscript
  have h3 := runsTo_firstHandler hsvc hws hpend hien o rest
  simp only [← Block.clear_enter_raise hsvc hpend src]
  cases src with
  | tim =>
    have h4 := actsBy_evtHret.runsTo_snoc rfl h3
    have h5 := runsTo_snoc_lastReturn h4 rfl rfl
    exact ⟨_, _, _, h3, h4, runsTo_snoc_intClear h5 rfl, rfl, rfl, rfl, fun _ => rfl, rfl⟩
  | rtc | ext =>
    have h4 := runsTo_snoc_lastReturn h3 rfl rfl
    exact ⟨_, _, _, h3, h4, runsTo_snoc_intClear h4 rfl, rfl, rfl, rfl, nofun, rfl⟩

end Sys2Proof.Machine
end

/-! PROOFS. The control, status and handler table registers (43_control_status.md): the words of their reads and writes,
the bytes the reads return, the writes of `CTRL`, `IEN` and `HREF`, and the writes that raise READ_ONLY. -/

section
namespace Sys2Proof.Machine

/-! ### The words of an offset (30_encoding.md R81, R86) -/

/-- Every word number of the read of an offset, `DATA` whatever it is, decodes to the read. -/
theorem decode_readNumber {i : Instr} {n : Nat} (off : BitVec 5) (hn : n = 0x100 * off.toNat) (hwf : i.wf = true)
    (henc : encode i = busWord false off 0x00) (d : Byte) : decode (BitVec.ofNat 16 (n + d.toNat)) = i := by
  rw [ofNat_readWord off hn, decode_readWord hwf henc]

/-- The word number of the write of a byte at an offset decodes to the write. -/
theorem decode_writeNumber {i : Instr} {n : Nat} {v : Byte} (off : BitVec 5) (hn : n = 0x2000 + 0x100 * off.toNat)
    (hwf : i.wf = true) (henc : encode i = busWord true off v) : decode (BitVec.ofNat 16 (n + v.toNat)) = i := by
  rw [ofNat_writeWord off hn, ← henc, decode_encode hwf]

/-! ### The reads of `CTRL`, `IEN`, `PEND`, `OVR`, `ERR` (R170, R175, R177 to R179) -/

/-- `LOCK` is bit 1 and `ORD` bit 0 (10_state.md R37). -/
theorem Block.ctrlByte_eq_ofNat (b : Block) : b.ctrlByte = BitVec.ofNat 8 (2 * b.lock.toNat + b.ord.toNat) := by
  unfold Block.ctrlByte
  cases b.lock <;> cases b.ord <;> rfl

theorem sourceByte_eq_ofNat : ∀ f : BitVec 3, sourceByte f = BitVec.ofNat 8 f.toNat := by decide

theorem Block.errByte_eq_ofNat (b : Block) : b.errByte = BitVec.ofNat 8 b.err.toNat := by
  have hzeros : ∀ e : BitVec 4, 0b0000#4 ++ e = BitVec.ofNat 8 e.toNat := by decide
  exact hzeros b.err

/-- While a handler of a source runs its flag is set (10_state.md R43 (a)). -/
theorem Block.flag_pend_of_hnd {b : Block} {h : Handler} (hwf : b.wf = true) (hsvc : b.svc = .hnd h) :
    flag b.pend h.source = true := by
  obtain ⟨hserved, -⟩ := b.wf_iff.mp hwf
  obtain ⟨hpend, -⟩ := hserved h.source (by rw [hsvc]; rfl)
  exact hpend

/-- Settles O10: the word of each read, its byte on natural numbers, and R43 (a) for a running handler. -/
theorem controlRegisterReadsReturnBits : Obligations.ControlRegisterReadsReturnBits := by
  refine ⟨fun d => ⟨?_, ?_, ?_, ?_, ?_⟩, fun s => ?_, fun _ _ hwf hsvc => Block.flag_pend_of_hnd hwf hsvc⟩
  · exact decode_readNumber 0x0C rfl rfl rfl d
  · exact decode_readNumber 0x0F rfl rfl rfl d
  · exact decode_readNumber 0x10 rfl rfl rfl d
  · exact decode_readNumber 0x11 rfl rfl rfl d
  · exact decode_readNumber 0x12 rfl rfl rfl d
  · simp only [← Block.ctrlByte_eq_ofNat, ← sourceByte_eq_ofNat, ← Block.errByte_eq_ofNat]
    exact ⟨rfl, rfl, rfl, rfl, rfl⟩

/-! ### The writes that raise READ_ONLY (R103, R123, R173) -/

/-- Settles O15: the words of the seven registers, and one bus write whose effect is READ_ONLY for all of them. -/
theorem readOnlyWritesRaise : Obligations.ReadOnlyWritesRaise := by
  refine ⟨fun n v => ⟨?_, ?_, ?_, ?_, ?_, ?_, ?_⟩, fun n v s i hi => ?_⟩
  · exact decode_wordWriteWord (g := 0) rfl rfl
  · exact decode_wordWriteWord (g := 2) rfl rfl
  · exact decode_writeNumber 0x0E rfl rfl rfl
  · exact decode_writeNumber 0x10 rfl rfl rfl
  · exact decode_writeNumber 0x11 rfl rfl rfl
  · exact decode_writeNumber 0x12 rfl rfl rfl
  · exact decode_writeNumber 0x13 rfl rfl rfl
  · simp only [List.mem_cons, List.not_mem_nil, or_false] at hi
    obtain rfl | rfl | rfl | rfl | rfl | rfl | rfl := hi <;>
      exact exec_of_write_error (f := fun _ => .error .readOnly) rfl rfl

/-! ### `WR.CTRL` (R171) -/

/-- An accepted write of `CTRL`, its bits on natural numbers. -/
theorem writeCtrl_of_idle {b : Block} (h : b.ws = .idle) (v : Byte) :
    writeCtrl v b = .ok { b with
      ord := decide (v.toNat % 2 = 1), lock := b.lock || decide (v.toNat / 2 % 2 = 1) } := by
  have hord : v.getLsbD 0 = decide (v.toNat % 2 = 1) := Nat.testBit_zero _
  have hlock : v.getLsbD 1 = decide (v.toNat / 2 % 2 = 1) := Nat.testBit_eq_decide_div_mod_eq
  rw [← hord, ← hlock]
  exact if_neg (not_not.mpr h)

/-- Settles O21: the word of `CTRL`, and the two cases of `writeCtrl`. -/
theorem ctrlWriteSetsOrdAndLock : Obligations.CtrlWriteSetsOrdAndLock := by
  refine ⟨fun v => ?_, fun v s hws => ?_, fun v s hws => ?_⟩
  · exact decode_writeNumber 0x0C rfl rfl rfl
  · exact exec_of_write_error (f := writeCtrl v) rfl (if_pos hws)
  · exact exec_of_write_ok (f := writeCtrl v) rfl (writeCtrl_of_idle hws v)

/-! ### `WR.IEN` (R176) -/

/-- A byte enables no source when its number is a multiple of 8. -/
theorem extract_enables_eq_zero_iff (v : Byte) : v.extractLsb' 0 3 = 0 ↔ v.toNat % 8 = 0 := by
  rw [← BitVec.toNat_inj]
  rfl

/-- Enabling a source before the table is locked. -/
theorem writeIen_of_unlocked {b : Block} {v : Byte} (hv : v.toNat % 8 ≠ 0) (hlock : b.lock = false) :
    writeIen v b = .error .notLocked :=
  if_pos ⟨mt (extract_enables_eq_zero_iff v).mp hv, hlock⟩

/-- An accepted write of `IEN`. -/
theorem writeIen_of_accepted {b : Block} {v : Byte} (h : v.toNat % 8 = 0 ∨ b.lock = true) :
    writeIen v b = .ok { b with ien := BitVec.ofNat 3 v.toNat } := by
  refine if_neg fun ⟨hv, hlock⟩ => ?_
  obtain hzero | hlocked := h
  · exact hv ((extract_enables_eq_zero_iff v).mpr hzero)
  · exact absurd hlocked (Bool.eq_false_iff.mp hlock)

/-- Settles O22: the word of `IEN`, the two cases of `writeIen`, and `irq` of the record it leaves. -/
theorem ienWriteNeedsLock : Obligations.IenWriteNeedsLock := by
  refine ⟨fun v => ?_, fun v s hv hlock => ?_, fun v s h => ⟨_, ?_, rfl, Block.irq_iff _⟩⟩
  · exact decode_writeNumber 0x0F rfl rfl rfl
  · exact exec_of_write_error (f := writeIen v) rfl (writeIen_of_unlocked hv hlock)
  · exact exec_of_write_ok (f := writeIen v) rfl (writeIen_of_accepted h)

/-! ### The handler table (R181, R182) -/

theorem toNat_hrefOff_low (j : Slot) : (hrefOff j .low).toNat = 0x18 + 2 * j.index.toNat := by cases j <;> rfl

theorem toNat_hrefOff_high (j : Slot) : (hrefOff j .high).toNat = 0x19 + 2 * j.index.toNat := by cases j <;> rfl

/-- The two bytes of a reference on natural numbers (20_memory.md R62). -/
theorem refByte_low_eq_ofNat (h : HandlerRef) : refByte h .low = BitVec.ofNat 8 h.toNat := rfl

theorem refByte_high_eq_ofNat (h : HandlerRef) : refByte h .high = BitVec.ofNat 8 (h.toNat / 256) :=
  congrArg (BitVec.ofNat 8) (Nat.shiftRight_eq_div_pow h.toNat 8)

/-- Settles O13: the words by the offset of the byte, the bytes by `refByte` on natural numbers. -/
theorem handlerTableReadsReturnBytes : Obligations.HandlerTableReadsReturnBytes := by
  refine ⟨fun j d => ⟨?_, ?_⟩, fun j s => ?_⟩
  · exact decode_readNumber (hrefOff j .low) (by rw [toNat_hrefOff_low]; omega) rfl rfl d
  · exact decode_readNumber (hrefOff j .high) (by rw [toNat_hrefOff_high]; omega) rfl rfl d
  · rw [← refByte_low_eq_ofNat, ← refByte_high_eq_ofNat]
    exact ⟨rfl, rfl⟩

/-- A reference as the number its two bytes make up. -/
theorem toNat_append_byte (hi lo : Byte) : (hi ++ lo : HandlerRef).toNat = 256 * hi.toNat + lo.toNat := by
  rw [BitVec.toNat_append, ← Nat.shiftLeft_add_eq_or_of_lt lo.isLt, Nat.shiftLeft_eq, Nat.mul_comm]

/-- Replacing the low byte of a reference, on natural numbers. -/
theorem toNat_setRefByte_low (h : HandlerRef) (v : Byte) :
    (setRefByte h .low v).toNat = h.toNat / 256 * 256 + v.toNat := by
  have hlt := h.isLt
  have hhigh : (refByte h .high).toNat = h.toNat / 256 := by
    rw [refByte_high_eq_ofNat, BitVec.toNat_ofNat, Nat.mod_eq_of_lt (by omega)]
  rw [Nat.mul_comm, ← hhigh]
  exact toNat_append_byte _ v

/-- Replacing the high byte of a reference, on natural numbers. -/
theorem toNat_setRefByte_high (h : HandlerRef) (v : Byte) :
    (setRefByte h .high v).toNat = 256 * v.toNat + h.toNat % 256 := by
  have hlow : (refByte h .low).toNat = h.toNat % 256 := by rw [refByte_low_eq_ofNat, BitVec.toNat_ofNat]
  rw [← hlow]
  exact toNat_append_byte v _

/-- Writing one entry of the table leaves the others. -/
theorem HandlerTable.get_set_of_ne {j q : Slot} (hne : q ≠ j) (t : HandlerTable) (h : HandlerRef) :
    (t.set j h).get q = t.get q := by
  revert hne
  cases j <;> cases q <;> simp [HandlerTable.get, HandlerTable.set]

/-- Settles O23: the words by the offset of the byte, the two cases of `writeHref`, and the entries of the table the
accepted one leaves. -/
theorem hrefWriteReplacesOneByte : Obligations.HrefWriteReplacesOneByte := by
  refine ⟨fun j v => ⟨?_, ?_⟩, fun j p v s hlock => ?_, fun j p v s hlock =>
    ⟨s.blk.href.set j (setRefByte (s.blk.href.get j) p v), ?_, fun q hne => ?_, ?_⟩⟩
  · exact decode_writeNumber (hrefOff j .low) (by rw [toNat_hrefOff_low]; omega) rfl rfl
  · exact decode_writeNumber (hrefOff j .high) (by rw [toNat_hrefOff_high]; omega) rfl rfl
  · exact exec_of_write_error (f := writeHref j p v) rfl (if_pos hlock)
  · exact exec_of_write_ok (f := writeHref j p v) rfl (if_neg (Bool.eq_false_iff.mp hlock))
  · exact HandlerTable.get_set_of_ne hne _ _
  · rw [HandlerTable.get_set]
    cases p with
    | low => exact toNat_setRefByte_low _ v
    | high => exact toNat_setRefByte_high _ v

end Sys2Proof.Machine
end

/-! PROOFS. Errors, quiet states and low power (60_exceptions.md): when a bus transaction raises and what it records
(R200 to R204), what the host contract excludes (R218), and when the low-power request moves (R220). -/

section
namespace Sys2Proof.Machine

/-! ### The causes of BusError (R200 to R202) -/

/-- The result of a bus transaction and the cause the table names: an error with its own cause, or no cause and a value
that is `ok`. -/
inductive Caused {α : Type} (ok : α → Prop) : Except ErrCode α → Option ErrCode → Prop where
  | raised (c : ErrCode) : Caused ok (.error c) (some c)
  | accepted {x : α} : ok x → Caused ok (.ok x) none

/-- A guard that raises and the same guard in the table. -/
theorem Caused.guard {α : Type} {ok : α → Prop} {p : Prop} [Decidable p] {c : ErrCode} {r : Except ErrCode α}
    {o : Option ErrCode} (h : Caused ok r o) :
    Caused ok (if p then .error c else r) (if p then some c else o) := by
  split
  · exact .raised c
  · exact h

/-- A bus transaction is a read or a write whose result is an error exactly for the causes of the table; an accepted
write leaves `ERR`. -/
theorem exec_of_isBus {i : Instr} (h : i.isBus = true) (s : State) :
    (∃ r, exec i s = .next (s.busRead r) ∧ Caused (fun _ => True) r (busCause i s.blk)) ∨
    (∃ r, exec i s = .next (s.busWrite r) ∧ Caused (fun b => b.err = s.blk.err) r (busCause i s.blk)) := by
  cases i with
  | rdRsvd o => exact .inl ⟨_, rfl, .raised .rsvdAddr⟩
  | rdTick _ | rdDelay _ | rdTarget _ | rdCtrl | rdCmd | rdStatus | rdIen | rdPend | rdOvr | rdErr | rdSvcr
  | rdHref _ _ => exact .inl ⟨_, rfl, .accepted trivial⟩
  | wrRsvd _ _ => exact .inr ⟨_, rfl, .raised .rsvdAddr⟩
  | wrTick _ _ | wrTarget _ _ | wrStatus _ | wrPend _ | wrOvr _ | wrErr _ | wrSvcr _ =>
    exact .inr ⟨_, rfl, .raised .readOnly⟩
  | cmdBad _ => exact .inr ⟨_, rfl, .raised .badCmd⟩
  | cmdArm => exact .inr ⟨_, rfl, .guard (.guard (.accepted rfl))⟩
  | wrDelay _ _ | wrCtrl _ | wrHref _ _ _ => exact .inr ⟨_, rfl, .guard (.accepted rfl)⟩
  | wrIen v =>
    simp only [busCause, ne_eq, ← extract_enables_eq_zero_iff]
    exact .inr ⟨_, rfl, .guard (.accepted rfl)⟩
  | _ => cases h

/-- What a handler return does to `ERR` (R204). -/
theorem Block.hret_err (b : Block) :
    b.hret.err = if b.dispValid = false ∧ b.err = 0 then ErrCode.code .spuriousHret else b.err := by
  rw [← Block.events_hret, Block.events_err_eq]
  simp [Block.dispValid, ErrCode.code]

/-- Settles O17: a bus transaction is `busRead` or `busWrite` of a result that raises as the table says; a handler
return is no bus transaction. -/
theorem busErrorIsExactlyTheTable : Obligations.BusErrorIsExactlyTheTable := by
  refine ⟨fun i s hbus => ?_, fun s => ⟨_, actsBy_evtHret s, rfl, s.blk.hret_err⟩, rfl⟩
  obtain ⟨r, hexec, hcause⟩ | ⟨r, hexec, hcause⟩ := exec_of_isBus hbus s
  · refine ⟨_, hexec, ?_⟩
    generalize busCause i s.blk = cause at hcause ⊢
    cases hcause with
    | raised c => exact ⟨rfl, Block.recordErr_eq _ c, fun d hd => (Option.some.inj hd).symm⟩
    | accepted => exact ⟨rfl, rfl⟩
  · refine ⟨_, hexec, ?_⟩
    generalize busCause i s.blk = cause at hcause ⊢
    cases hcause with
    | raised c => exact ⟨rfl, Block.recordErr_eq _ c, nofun⟩
    | accepted herr => exact ⟨rfl, herr⟩

/-! ### The host contract (R203, R218) -/

/-- Under the contract no cause of the table applies (log entry 14). -/
theorem busCause_of_keepsContract {i : Instr} {b : Block} (h : keepsContract i b = true) : busCause i b = none := by
  obtain ⟨hbus, hrow⟩ := Bool.and_eq_true_iff.mp h
  cases i with
  | rdRsvd _ | wrRsvd _ _ | cmdBad _ | wrTick _ _ | wrTarget _ _ | wrStatus _ | wrPend _ | wrOvr _ | wrErr _
  | wrSvcr _ => cases hrow
  | cmdArm =>
    have hsvc : b.svc = .idle := by simpa [Block.inSvc] using hrow
    have hws : b.ws = .idle := by simpa [Instr.isBus, Block.waitBusy, Block.inSvc, hsvc] using hbus
    simp [busCause, hsvc, hws]
  | wrDelay _ _ | wrCtrl _ => simpa [busCause, Block.waitBusy] using hrow
  | wrHref _ _ _ => simpa [busCause] using hrow
  | wrIen v =>
    have hv : v.toNat % 8 = 0 ∨ b.lock = true := by simpa [← extract_enables_eq_zero_iff] using hrow
    simpa [busCause, or_iff_not_imp_left] using hv
  | _ => rfl

/-- Under the contract a handler returns only while one runs (H3). -/
theorem dispValid_of_keepsContract {i : Instr} {b : Block} (h : keepsContract i b = true) (hret : i.returns = true) :
    b.dispValid = true := by
  obtain ⟨-, hrow⟩ := Bool.and_eq_true_iff.mp h
  cases i with
  | evtHret => exact hrow
  | evtMulti e =>
    have hbit : e.getLsbD 3 = true := hret
    simpa only [hbit, Bool.not_true, Bool.false_or] using hrow
  | _ => simp [Instr.returns, Instr.eventBits] at hret

/-- A step that is no bus transaction records an error only for a handler return with no handler running (R204). -/
theorem Effect.err_of_not_isBus {i : Instr} {a b : Block} (h : Effect i a b) (hbus : i.isBus = false)
    (hret : i.returns = true → a.dispValid = true) (herr : a.err = 0) : b.err = 0 := by
  cases h with
  | events e _ hbits =>
    subst hbits
    rw [Block.events_err_eq, if_neg, herr]
    rintro ⟨hbit, hnone, -⟩
    have hrun := hret hbit
    rw [Block.dispValid, hnone] at hrun
    cases hrun
  | reset => rfl
  | same hb | error _ hb => rw [hbus] at hb; cases hb
  | enter | clear | poll => simpa
  | _ => cases hbus

/-- Settles O54: a bus transaction under the contract has no cause in the table, another step no spurious return. -/
theorem contractKeepsErrZero : Obligations.ContractKeepsErrZero := by
  intro i s t hkeeps herr hexec
  cases hbus : i.isBus with
  | true =>
    have hnone := busCause_of_keepsContract hkeeps
    obtain ⟨r, hr, hcause⟩ | ⟨r, hr, hcause⟩ := hnone ▸ exec_of_isBus hbus s
    · cases hcause
      cases hr.symm.trans hexec
      exact ⟨herr, rfl⟩
    · cases hcause with
      | accepted hsame =>
        cases hr.symm.trans hexec
        exact ⟨hsame.trans herr, rfl⟩
  | false =>
    have hout := busOut_of_isBus_false hexec hbus
    exact ⟨(exec_effect hexec).1.err_of_not_isBus hbus (dispValid_of_keepsContract hkeeps) herr,
      by rw [State.busErr, hout]⟩

/-! ### Quiet states (R221) -/

theorem Block.quiet_iff (b : Block) : b.quiet = true ↔ b.svc = .idle ∧ b.ws = .idle ∧ b.req = 0 := by
  simp [Block.quiet, and_assoc]

theorem Block.irq_of_req_eq_zero {b : Block} (h : b.req = 0) : b.irq = false := by simp [Block.irq, h]

/-- An event word that raises nothing keeps the requests. -/
theorem Block.events_req {b : Block} {e : BitVec 5} (h : ∀ src : Source, e.getLsbD src.index = false) :
    (b.events e).req = b.req :=
  flags_ext fun src => by simp [Block.flag_req, Block.flag_events_pend, h]

/-- An event word starts a service of a requesting source only. -/
theorem Block.events_svc_of_req_eq_zero {b : Block} {e : BitVec 5} (hsvc : b.svc = .idle)
    (hreq : (b.events e).req = 0) : (b.events e).svc = .idle := by
  obtain hsame | ⟨-, h, _, hhnd, -⟩ | ⟨-, h, hhnd, -⟩ | ⟨-, -, -, src, -, hpend, hien⟩ := b.events_svc_cases e
  · rw [hsame, hsvc]
  · rw [hsvc] at hhnd; cases hhnd
  · rw [hsvc] at hhnd; cases hhnd
  · have hnone := (flags_eq_zero _).mp hreq src
    rw [Block.flag_req, hpend, Block.events_ien, hien] at hnone
    cases hnone

/-- Settles O55: no request makes `irq` low and an acknowledge ignored; the internal steps need a service or a wait. -/
theorem quietStatesStayQuiet : Obligations.QuietStatesStayQuiet := by
  intro s hquiet
  obtain ⟨hsvc, hws, hreq⟩ := s.blk.quiet_iff.mp hquiet
  refine ⟨Block.irq_of_req_eq_zero hreq, fun i hi => ?_, fun i t hbus hraise hexec => ?_⟩
  · simp only [List.mem_cons, List.not_mem_nil, or_false] at hi
    obtain rfl | rfl | rfl := hi
    · exact ⟨_, exec_intEnter_of_not_ack (by rw [hsvc]; nofun)⟩
    · exact ⟨_, exec_intClear_of_not_clr (by rw [hsvc]; nofun)⟩
    · exact ⟨_, if_neg (by simp [Block.pollEnabled, hws])⟩
  · have heff := (exec_effect hexec).1
    generalize s.blk = a, t.blk = b at *
    cases heff with
    | events e _ hbits =>
      subst hbits
      have hreq' := (Block.events_req hraise).trans hreq
      exact (Block.quiet_iff _).mpr ⟨Block.events_svc_of_req_eq_zero hsvc hreq', by simpa, hreq'⟩
    | reset => rfl
    | enter _ hack => rw [hsvc] at hack; cases hack
    | clear _ hclr => rw [hsvc] at hclr; cases hclr
    | poll hcheck => rw [hws] at hcheck; cases hcheck
    | same hb | error _ hb => rw [hbus] at hb; cases hb
    | _ => cases hbus

/-! ### The low-power request (R220) -/

theorem Block.lpReq_iff (b : Block) : b.lpReq = true ↔ b.ws = .halt ∧ b.svc = .idle := by simp [Block.lpReq]

/-- The low-power request is read off `WS` and `SVC`. -/
theorem Block.lpReq_congr {a b : Block} (hws : b.ws = a.ws) (hsvc : b.svc = a.svc) : b.lpReq = a.lpReq := by
  rw [Block.lpReq, Block.lpReq, hws, hsvc]

/-- A service once begun is not ended by an event word. -/
theorem Block.svc_idle_of_events {b : Block} {e : BitVec 5} (h : (b.events e).svc = .idle) : b.svc = .idle := by
  obtain hsame | ⟨-, _, _, -, -, hk⟩ | ⟨-, _, -, -, hclr⟩ | ⟨-, hidle, -⟩ := b.events_svc_cases e
  · rwa [hsame] at h
  · rw [hk] at h; cases h
  · rw [hclr] at h; cases h
  · exact hidle

theorem WaitState.afterService_ne_halt (w : WaitState) : w.afterService ≠ .halt := by cases w <;> nofun

/-- The request rises only by a re-test that does not find `done`. -/
theorem Effect.lpReq_rise {i : Instr} {a b : Block} (h : Effect i a b) (hlow : a.lpReq = false)
    (hhigh : b.lpReq = true) : i = .intPoll ∧ ¬a.waitOver := by
  obtain ⟨hws, hsvc⟩ := b.lpReq_iff.mp hhigh
  have hkept : ¬(b.ws = a.ws ∧ b.svc = a.svc) := fun ⟨hw, hs⟩ => by
    rw [Block.lpReq_congr hw hs, hlow] at hhigh; cases hhigh
  cases h with
  | events e =>
    exact absurd ⟨by simp, hsvc.trans (Block.svc_idle_of_events hsvc).symm⟩ hkept
  | poll =>
    refine ⟨rfl, fun hover => ?_⟩
    rw [Block.poll_of_waitOver hover] at hws
    cases hws
  | enter src => rw [Block.enter_svc] at hsvc; cases hsvc
  | clear => exact absurd hws (WaitState.afterService_ne_halt _)
  | arm | reset => cases hws
  | _ => exact absurd ⟨by simp, by simp⟩ hkept

/-- The request falls only by a reset or by the acknowledge of a request. -/
theorem Effect.lpReq_fall {i : Instr} {a b : Block} (h : Effect i a b) (hhigh : a.lpReq = true)
    (hlow : b.lpReq = false) : i = .sysReset ∨
      (i.eventBits.getLsbD 4 = true ∧ ∃ src, b.svc = .ack src ∧ flag b.req src = true) := by
  obtain ⟨hws, hsvc⟩ := a.lpReq_iff.mp hhigh
  have hkept : ¬(b.ws = a.ws ∧ b.svc = a.svc) := fun ⟨hw, hs⟩ => by
    rw [Block.lpReq_congr hw hs, hhigh] at hlow; cases hlow
  cases h with
  | events e _ hbits =>
    subst hbits
    obtain hsame | ⟨-, _, _, hhnd, -⟩ | ⟨-, _, hhnd, -⟩ | ⟨hack, -, -, src, hsrc, hpend, hien⟩ :=
      a.events_svc_cases i.eventBits
    · exact absurd ⟨by simp, hsame⟩ hkept
    · rw [hsvc] at hhnd; cases hhnd
    · rw [hsvc] at hhnd; cases hhnd
    · exact .inr ⟨hack, src, hsrc, by rw [Block.flag_req, hpend, Block.events_ien, hien]; rfl⟩
  | reset => exact .inl rfl
  | enter _ hack => rw [hsvc] at hack; cases hack
  | clear _ hclr => rw [hsvc] at hclr; cases hclr
  | poll hcheck => rw [hws] at hcheck; cases hcheck
  | arm _ hidle => rw [hws] at hidle; cases hidle
  | _ => exact absurd ⟨by simp, by simp⟩ hkept

/-- Settles O58: by cases on the effect. -/
theorem haltIsEnteredByPollLeftByAcknowledge : Obligations.HaltIsEnteredByPollLeftByAcknowledge :=
  fun _ _ _ hexec => ⟨(exec_effect hexec).1.lpReq_rise, (exec_effect hexec).1.lpReq_fall⟩

end Sys2Proof.Machine
end

/-! PROOFS. Progress (60_exceptions.md R219): in a fair run every service ends and TIM is served again and again, so the
counter comes to the deadline of a wait; the service that brings it there is followed by the re-test that ends the
wait. -/

section
namespace Sys2Proof.Machine

/-! ### Steps that a fair run owes -/

/-- What holds at `m` and not for ever after ends at some step. -/
theorem exists_last {P : Nat → Prop} {m : Nat} (h : P m) (hends : ¬∀ k, m ≤ k → P k) :
    ∃ k, m ≤ k ∧ P k ∧ ¬P (k + 1) := by
  by_contra hnone
  refine hends fun k hk => Nat.le_induction h (fun j hj hP => ?_) k hk
  by_contra hn
  exact hnone ⟨j, hj, hP, hn⟩

theorem Instr.eventBits_of_isBus {i : Instr} (h : i.isBus = true) : i.eventBits = 0 := by
  cases i with
  | evtNone | evtRaiseTim | evtRaiseRtc | evtRaiseExt | evtHret | evtIack | evtMulti _ => cases h
  | _ => rfl

section Effects
variable {i : Instr} {a b : Block}

/-- A step that samples an event bit carries out its event word. -/
theorem Effect.eq_events (h : Effect i a b) {n : Nat} (hbit : i.eventBits.getLsbD n = true) :
    b = a.events i.eventBits := by
  have hbits : i.eventBits ≠ 0 := fun h0 => by simp [h0] at hbit
  cases h with
  | events e _ he => rw [he]
  | same hbus | error _ hbus => exact absurd (Instr.eventBits_of_isBus hbus) hbits
  | _ => exact absurd rfl hbits

/-- An `INT.POLL` that is carried out is a re-test. -/
theorem Effect.eq_poll (h : Effect .intPoll a b) : b = a.poll := by
  cases h with
  | poll => rfl
  | same hb | error _ hb => cases hb
  | events _ _ _ hi => simp at hi

/-- A step that leaves `W_CHECK` is a re-test. -/
theorem Effect.eq_poll_of_leave (h : Effect i a b) (hr : i ≠ .sysReset) (hws : a.ws = .check) (hleft : b.ws ≠ .check) :
    b = a.poll := by
  cases h with
  | poll => rfl
  | clear => exact absurd (by rw [Block.clear_ws, hws]; rfl) hleft
  | arm => exact absurd rfl hleft
  | reset => exact absurd rfl hr
  | _ => exact absurd (by simpa using hws) hleft

/-! ### A service comes to its end (42_interrupt_router.md R147 to R151) -/

/-- How many moves of the service sequencer lead to `IDLE`: `ENTER`, a return of each handler, `CLEAR`. -/
def Svc.movesLeft : Svc → Nat
  | .idle => 0
  | .clr _ => 1
  | .hnd h => nh h.source - h.step + 1
  | .ack s => nh s + 2

/-- Every move of a service in progress is one towards `IDLE`. -/
theorem Effect.movesLeft_lt (h : Effect i a b) (hr : i ≠ .sysReset) (hsvc : a.svc ≠ .idle) (hmove : b.svc ≠ a.svc) :
    b.svc.movesLeft < a.svc.movesLeft := by
  obtain hsame | ⟨-, src, hack, hhnd⟩ | ⟨-, x, hhnd, ⟨-, hclr⟩ | ⟨k, hnext, hk⟩⟩ | ⟨-, src, hclr, hidle⟩ :=
    h.svc_cases hsvc hr
  · exact absurd hsame hmove
  · simp [hack, hhnd, Svc.movesLeft]
  · have hlt := x.step_lt_nh
    rw [hhnd, hclr, Svc.movesLeft, Svc.movesLeft]
    omega
  · obtain ⟨hsource, hstep⟩ := Handler.next?_some hnext
    have hlt := k.step_lt_nh
    rw [hhnd, hk, Svc.movesLeft, Svc.movesLeft, hstep, hsource]
    rw [hstep, hsource] at hlt
    omega
  · simp [hclr, hidle, Svc.movesLeft]

theorem Block.iack_of_svc_ne_idle {b : Block} (h : b.svc ≠ .idle) : b.iack = b :=
  Block.iack_of_not_irq (by simp [Block.irq, h])

/-- A handler return ends the handler that runs. -/
theorem Block.hret_svc_of_hnd {b : Block} {h : Handler} (hsvc : b.svc = .hnd h) :
    b.hret.svc ≠ .idle ∧ b.hret.svc ≠ .hnd h := by
  cases hnext : h.next? with
  | some k =>
    rw [Block.hret_of_next hsvc hnext]
    refine ⟨nofun, fun heq => ?_⟩
    obtain rfl : k = h := Svc.hnd.inj heq
    have hstep := (Handler.next?_some hnext).2
    omega
  | none =>
    rw [Block.hret_of_last hsvc hnext]
    exact ⟨nofun, nofun⟩

/-- An event word with a handler return ends the handler that runs. -/
theorem Block.events_svc_ne_of_hret {b : Block} {e : BitVec 5} {h : Handler} (hsvc : b.svc = .hnd h)
    (hbit : e.getLsbD 3 = true) : (b.events e).svc ≠ .hnd h := by
  obtain ⟨r, -, -, hr, -, -, -, he⟩ := b.events_eq e
  obtain ⟨hidle, hne⟩ := Block.hret_svc_of_hnd (hr.trans hsvc)
  simp only [he, hbit, if_true, Block.iack_of_svc_ne_idle hidle, ite_self]
  exact hne

/-! ### TIM stands first in `PRIO` (42_interrupt_router.md R144) -/

/-- An acknowledge takes TIM when TIM requests. -/
theorem Block.iack_svc_of_tim {b : Block} {src : Source} (hpend : flag b.pend .tim = true)
    (hien : flag b.ien .tim = true) (hsvc : b.svc = .idle) (hack : b.iack.svc = .ack src) : src = .tim := by
  obtain ⟨-, hsame⟩ | ⟨-, q, hsel, -, hq⟩ := b.iack_cases
  · rw [hsame, hsvc] at hack
    cases hack
  · rw [hq] at hack
    cases hack
    simpa [Block.sel_eq, Block.flag_req, hpend, hien, eq_comm] using hsel

/-- An event word that starts a service starts that of TIM when TIM requests. -/
theorem Block.events_ack_tim {b : Block} {e : BitVec 5} {src : Source} (hsvc : b.svc = .idle)
    (hpend : flag b.pend .tim = true) (hien : flag b.ien .tim = true) (hack : (b.events e).svc = .ack src) :
    src = .tim := by
  obtain ⟨r, hp, -, hr, -, hi, -, he⟩ := b.events_eq e
  have hrsvc : r.svc = .idle := hr.trans hsvc
  have hret : r.hret = r.recordErr .spuriousHret := Block.hret_of_not_running (by rw [hrsvc]; nofun)
  rw [he, hret] at hack
  generalize hc : (if e.getLsbD 3 = true then r.recordErr .spuriousHret else r) = c at hack
  obtain ⟨hcsvc, hcpend, hcien⟩ : c.svc = .idle ∧ c.pend = r.pend ∧ c.ien = r.ien := by
    rw [← hc]
    split <;> simp [hrsvc]
  dsimp only at hack
  split at hack
  · exact Block.iack_svc_of_tim (by simp [hcpend, hp, hpend]) (by rw [hcien, hi, hien]) hcsvc hack
  · rw [hcsvc] at hack
    cases hack

/-- A halted CPU is woken by the service of TIM when TIM requests. -/
theorem Effect.ack_tim_of_lpReq (h : Effect i a b) (hr : i ≠ .sysReset) (hhigh : a.lpReq = true)
    (hlow : b.lpReq = false) (hpend : flag a.pend .tim = true) (hien : flag a.ien .tim = true) :
    b.svc = .ack .tim := by
  obtain hreset | ⟨hbit, src, hack, -⟩ := h.lpReq_fall hhigh hlow
  · exact absurd hreset hr
  · obtain rfl := h.eq_events hbit
    rw [hack, Block.events_ack_tim (a.lpReq_iff.mp hhigh).2 hpend hien hack]

/-- TIM comes to be in service by its acknowledge only. -/
theorem Effect.source?_tim (h : Effect i a b) (hb : b.svc.source? = some .tim) :
    a.svc.source? = some .tim ∨ b.svc = .ack .tim := by
  cases h with
  | events e =>
    obtain hsame | ⟨-, x, k, hsvc, hnext, hk⟩ | ⟨-, x, hsvc, -, hclr⟩ | ⟨-, -, -, q, hack, -⟩ := a.events_svc_cases e
    · exact .inl (hsame ▸ hb)
    · rw [hk, Svc.source?, (Handler.next?_some hnext).1] at hb
      exact .inl (hsvc ▸ hb)
    · rw [hclr] at hb
      exact .inl (hsvc ▸ hb)
    · rw [hack] at hb ⊢
      cases hb
      exact .inr rfl
  | enter src hack =>
    rw [Block.enter_svc, Svc.source?, firstHandler_source] at hb
    exact .inl (hack ▸ hb)
  | clear | reset => cases hb
  | _ => exact .inl (by simpa using hb)

/-- A step that moves the counter begins the handlers of TIM, one tick later. -/
theorem Effect.advance_of_tick_ne (h : Effect i a b) (hr : i ≠ .sysReset) (hne : b.tick ≠ a.tick) :
    b.tick = a.tick + 1 ∧ b.svc.beforeEnter = false := by
  obtain hsame | ⟨rfl, -, hadv⟩ := h.tick_eq_or_intEnter hr
  · exact absurd hsame hne
  · obtain ⟨src, -, rfl⟩ := h.eq_enter
    exact ⟨hadv, by rw [Block.enter_svc]; rfl⟩

/-- The step that moves TIM on from its acknowledge moves the counter. -/
theorem Effect.tick_of_ack_tim (h : Effect i a b) (hr : i ≠ .sysReset) (hack : a.svc = .ack .tim)
    (hmove : b.svc ≠ a.svc) : b.tick = a.tick + 1 := by
  obtain hsame | ⟨hi, -⟩ | ⟨-, x, hhnd, -⟩ | ⟨-, src, hclr, -⟩ := h.svc_cases (by rw [hack]; nofun) hr
  · exact absurd hsame hmove
  · rw [h.tick hr, if_pos ⟨hi, hack⟩]
  · rw [hack] at hhnd; cases hhnd
  · rw [hack] at hclr; cases hclr

/-! ### At the deadline (41_deadline_wait.md R127, R130) -/

theorem Block.svc_idle_of_check {b : Block} (hwf : b.wf = true) (hws : b.ws = .check) : b.svc = .idle := by
  refine (Svc.source?_eq_none _).mp (Option.eq_none_iff_forall_ne_some.mpr fun src hsrc => ?_)
  obtain ⟨-, hne, -⟩ := (b.wf_iff.mp hwf).1 src hsrc
  exact hne hws

/-- In both modes the loop condition holds at the deadline. -/
theorem Block.waitOver_of_tick_eq {b : Block} (h : b.tick = b.target) : b.waitOver := by
  have hmatch := b.matches_iff.mpr h
  rw [← Block.done_iff, Block.done]
  split
  · exact Block.reached_of_matches hmatch
  · exact hmatch

/-- The counter stands at the deadline, and if the CPU is halted the service that wakes it has begun: the re-test that
ends the wait comes before the next advance. -/
structure Block.AtDeadline (b : Block) : Prop where
  tick : b.tick = b.target
  begun : b.ws = .halt → b.svc.beforeEnter = false

/-- While the wait goes on it stays at the deadline. -/
theorem Effect.atDeadline (h : Effect i a b) (hr : i ≠ .sysReset) (hwf : a.wf = true) (hws : a.ws ≠ .idle)
    (hbusy : b.ws ≠ .idle) (hat : a.AtDeadline) : b.AtDeadline := by
  obtain ⟨htick, hbegun⟩ := hat
  cases h with
  | events e => exact ⟨by simpa, by simpa [Block.events_beforeEnter]⟩
  | enter src hack =>
    have hcheck : a.ws ≠ .check := fun hc => by rw [Block.svc_idle_of_check hwf hc] at hack; cases hack
    have hlate := hbegun (WaitState.eq_halt hws hcheck)
    rw [hack] at hlate
    cases hlate
  | clear => exact ⟨htick, fun hhalt => absurd hhalt (WaitState.afterService_ne_halt _)⟩
  | poll =>
    rw [Block.poll_of_waitOver (Block.waitOver_of_tick_eq htick)] at hbusy
    exact absurd rfl hbusy
  | arm _ hidle => exact absurd hidle hws
  | reset => exact absurd rfl hr
  | _ => exact ⟨by simpa, by simpa⟩

end Effects

/-! ### Fair runs -/

/-- A run as the progress assumptions take it: without a reset, from a well-formed state, and fair to the CPU, the
handlers and the internal steps. -/
structure FairRun (w : Nat → StepWord) (st : Nat → State) : Prop where
  run : InfiniteRun w st
  wf_zero : (st 0).blk.wf = true
  noReset : ∀ n, decode (w n) ≠ .sysReset
  cpu : FairCpu st
  hnd : FairHnd w st
  int : FairInt w st

section Runs
variable {w : Nat → StepWord} {st : Nat → State}

theorem FairRun.effect (h : FairRun w st) (n : Nat) : Effect (decode (w n)) (st n).blk (st (n + 1)).blk :=
  (exec_effect (h.run n)).1

theorem FairRun.wf (h : FairRun w st) (n : Nat) : (st n).blk.wf = true := by
  induction n with
  | zero => exact h.wf_zero
  | succ n ih => exact (h.effect n).wf ih

/-- Every service moves on: its next step is enabled, or its handler runs, and both come. -/
theorem FairRun.exists_move (h : FairRun w st) {m : Nat} (hsvc : (st m).blk.svc ≠ .idle) :
    ∃ k, m ≤ k ∧ (st k).blk.svc = (st m).blk.svc ∧ (st (k + 1)).blk.svc ≠ (st m).blk.svc := by
  refine exists_last (P := fun k => (st k).blk.svc = (st m).blk.svc) rfl fun hstay => ?_
  cases hs : (st m).blk.svc with
  | idle => exact hsvc hs
  | ack src =>
    obtain ⟨k, hk, hw⟩ := (h.int m).1 (by rw [Block.enterEnabled, hs])
    obtain ⟨q, -, hnext⟩ := (hw ▸ h.effect k).eq_enter
    have hkept := hstay (k + 1) (by omega)
    rw [hnext, Block.enter_svc, hs] at hkept
    cases hkept
  | hnd x =>
    obtain ⟨k, hk, hw⟩ := h.hnd m (by rw [Block.dispValid, Block.handler?, hs]; rfl)
    have hnext := (h.effect k).eq_events hw
    have hkept := hstay (k + 1) (by omega)
    rw [hnext, hs] at hkept
    exact Block.events_svc_ne_of_hret ((hstay k hk).trans hs) hw hkept
  | clr src =>
    obtain ⟨k, hk, hw⟩ := (h.int m).2.1 (by rw [Block.clearEnabled, hs])
    obtain ⟨q, -, hnext⟩ := (hw ▸ h.effect k).eq_clear
    have hkept := hstay (k + 1) (by omega)
    rw [hnext, Block.clear_svc, hs] at hkept
    cases hkept

/-- Every service ends, by induction on the moves it has left. -/
theorem FairRun.exists_idle (h : FairRun w st) (m : Nat) : ∃ k, m ≤ k ∧ (st k).blk.svc = .idle := by
  induction hn : (st m).blk.svc.movesLeft using Nat.strong_induction_on generalizing m with
  | _ n ih =>
    by_cases hidle : (st m).blk.svc = .idle
    · exact ⟨m, Nat.le_refl m, hidle⟩
    · obtain ⟨k, hk, hsame, hmove⟩ := h.exists_move hidle
      have hlt := (h.effect k).movesLeft_lt (h.noReset k) (hsame ▸ hidle) (hsame ▸ hmove)
      rw [hsame, hn] at hlt
      obtain ⟨j, hj, hend⟩ := ih _ hlt (k + 1) rfl
      exact ⟨j, by omega, hend⟩

/-- Every re-test outstanding is made. -/
theorem FairRun.exists_poll (h : FairRun w st) {m : Nat} (hws : (st m).blk.ws = .check) :
    ∃ k, m ≤ k ∧ (st k).blk.ws = .check ∧ (st (k + 1)).blk = (st k).blk.poll := by
  obtain ⟨k, hk, hcheck, hleft⟩ := exists_last (P := fun k => (st k).blk.ws = .check) hws fun hstay => by
    obtain ⟨k, hk, hw⟩ := (h.int m).2.2 (by rw [Block.pollEnabled, hws]; rfl)
    have hpoll := (hw ▸ h.effect k).eq_poll
    have hkept := hstay (k + 1) (by omega)
    rw [hpoll, Block.poll_ws] at hkept
    split at hkept <;> cases hkept
  exact ⟨k, hk, hcheck, (h.effect k).eq_poll_of_leave (h.noReset k) hcheck hleft⟩

end Runs

/-! ### A wait that never returns -/

/-- A fair run in which, from step `n` on, a wait is in progress and TIM is enabled, and TIM raises again and again.
It is what the proof refutes: there is none (`EndlessWait.false`). -/
structure EndlessWait (w : Nat → StepWord) (st : Nat → State) (n : Nat) : Prop extends FairRun w st where
  busy : ∀ m, n ≤ m → (st m).blk.ws ≠ .idle
  enabled : ∀ m, n ≤ m → flag (st m).blk.ien .tim = true
  raises : ∀ m, ∃ k, m ≤ k ∧ (decode (w k)).raises .tim = true

section Endless
variable {w : Nat → StepWord} {st : Nat → State} {n : Nat}

/-- The CPU halts again and again. -/
theorem EndlessWait.exists_halted (h : EndlessWait w st n) {m : Nat} (hm : n ≤ m) :
    ∃ k, m ≤ k ∧ (st k).blk.lpReq = true := by
  obtain ⟨j, hj, hidle⟩ := h.exists_idle m
  by_cases hcheck : (st j).blk.ws = .check
  · obtain ⟨k, hk, hws, hpoll⟩ := h.exists_poll hcheck
    have hbusy := h.busy (k + 1) (by omega)
    refine ⟨k + 1, by omega, (Block.lpReq_iff _).mpr ⟨WaitState.eq_halt hbusy ?_, ?_⟩⟩
    · rw [hpoll, Block.poll_ws]
      split <;> nofun
    · rw [hpoll, Block.poll_svc]
      exact Block.svc_idle_of_check (h.wf k) hws
  · exact ⟨j, hj, (Block.lpReq_iff _).mpr ⟨WaitState.eq_halt (h.busy j (by omega)) hcheck, hidle⟩⟩

/-- While TIM requests, a halted CPU comes to acknowledge it. -/
theorem EndlessWait.exists_ack_of_pend (h : EndlessWait w st n) {m : Nat} (hm : n ≤ m)
    (hpend : ∀ k, m ≤ k → flag (st k).blk.pend .tim = true) : ∃ k, m ≤ k ∧ (st k).blk.svc = .ack .tim := by
  obtain ⟨j, hj, hhalted⟩ := h.exists_halted hm
  obtain ⟨k, hk, hhigh, hlow⟩ := exists_last (P := fun k => (st k).blk.lpReq = true) hhalted fun hstay => by
    obtain ⟨k, hk, hcpu⟩ := h.cpu j
    obtain hirq | ⟨-, src, hack⟩ := hcpu
    · obtain ⟨hws, hsvc⟩ := (Block.lpReq_iff _).mp (hstay k hk)
      have hhigh : (st k).blk.irq = true := (Block.irq_iff _).mpr
        ⟨hsvc, by rw [hws]; nofun, .tim, hpend k (by omega), h.enabled k (by omega)⟩
      rw [hirq] at hhigh
      cases hhigh
    · obtain ⟨-, hsvc⟩ := (Block.lpReq_iff _).mp (hstay (k + 1) (by omega))
      rw [hack] at hsvc
      cases hsvc
  exact ⟨k + 1, by omega, (h.effect k).ack_tim_of_lpReq (h.noReset k) hhigh (Bool.eq_false_iff.mpr hlow)
    (hpend k (by omega)) (h.enabled k (by omega))⟩

/-- TIM is acknowledged again and again: an event of TIM stays pending until then. -/
theorem EndlessWait.exists_ack (h : EndlessWait w st n) {m : Nat} (hm : n ≤ m) :
    ∃ k, m ≤ k ∧ (st k).blk.svc = .ack .tim := by
  by_contra hnone
  obtain ⟨j, hj, hidle⟩ := h.exists_idle m
  have hunserved : ∀ k, j ≤ k → (st k).blk.svc.source? ≠ some .tim := by
    intro k hk
    induction k, hk using Nat.le_induction with
    | base => rw [hidle]; nofun
    | succ k hk ih =>
      intro hserved
      obtain hbefore | hack := (h.effect k).source?_tim hserved
      · exact ih hbefore
      · exact hnone ⟨k + 1, by omega, hack⟩
  obtain ⟨r, hr, hraise⟩ := h.raises j
  have hpend : ∀ k, r + 1 ≤ k → flag (st k).blk.pend .tim = true := by
    intro k hk
    induction k, hk using Nat.le_induction with
    | base =>
      rw [(h.effect r).eq_events hraise, Block.flag_events_pend]
      exact Bool.or_eq_true_iff.mpr (.inr hraise)
    | succ k hk ih =>
      obtain ⟨-, hset⟩ | ⟨-, hclr, -⟩ | hsame := (h.effect k).flag_pend (h.noReset k) .tim
      · exact hset
      · exact absurd (by rw [hclr]; rfl) (hunserved k (by omega))
      · rw [hsame, ih]
  obtain ⟨k, hk, hack⟩ := h.exists_ack_of_pend (by omega) hpend
  exact hnone ⟨k, by omega, hack⟩

/-- The counter advances again and again. -/
theorem EndlessWait.exists_advance (h : EndlessWait w st n) {m : Nat} (hm : n ≤ m) :
    ∃ k, m ≤ k ∧ (st (k + 1)).blk.tick = (st m).blk.tick + 1 ∧ (st (k + 1)).blk.svc.beforeEnter = false := by
  obtain ⟨k, hk, hsame, hne⟩ := exists_last (P := fun k => (st k).blk.tick = (st m).blk.tick) rfl fun hstay => by
    obtain ⟨j, hj, hack⟩ := h.exists_ack hm
    obtain ⟨k, hk, hsvc, hmove⟩ := h.exists_move (m := j) (by rw [hack]; nofun)
    have hadv := (h.effect k).tick_of_ack_tim (h.noReset k) (hsvc.trans hack) (hsvc ▸ hmove)
    rw [hstay (k + 1) (by omega), hstay k (by omega)] at hadv
    simp at hadv
  obtain ⟨hadv, hbegun⟩ := (h.effect k).advance_of_tick_ne (h.noReset k) (hsame ▸ hne)
  exact ⟨k, hk, by rw [hadv, hsame], hbegun⟩

/-- During the wait `TARGET` stays. -/
theorem EndlessWait.target_eq (h : EndlessWait w st n) {m k : Nat} (hm : n ≤ m) (hk : m ≤ k) :
    (st k).blk.target = (st m).blk.target := by
  induction k, hk using Nat.le_induction with
  | base => rfl
  | succ k hk ih => rw [((h.effect k).wait_frame (h.noReset k) (h.busy k (by omega))).1, ih]

/-- The counter comes to the deadline, by induction on the advances it lacks after the next one. -/
theorem EndlessWait.exists_atDeadline (h : EndlessWait w st n) (d : Nat) {m : Nat} (hm : n ≤ m)
    (hd : (st m).blk.target = (st m).blk.tick + 1 + BitVec.ofNat 32 d) : ∃ k, m ≤ k ∧ (st k).blk.AtDeadline := by
  induction d generalizing m with
  | zero =>
    obtain ⟨k, hk, htick, hbegun⟩ := h.exists_advance hm
    refine ⟨k + 1, by omega, ?_, fun _ => hbegun⟩
    rw [htick, h.target_eq hm (by omega), hd]
    simp
  | succ d ih =>
    obtain ⟨k, hk, htick, -⟩ := h.exists_advance hm
    obtain ⟨j, hj, hat⟩ := ih (m := k + 1) (by omega) (by
      rw [htick, h.target_eq hm (by omega), hd, Nat.add_comm d, BitVec.ofNat_add, ← BitVec.add_assoc]
      rfl)
    exact ⟨j, by omega, hat⟩

/-- At the deadline the wait would stay for ever, and the counter with it; but the counter advances. -/
theorem EndlessWait.false (h : EndlessWait w st n) : False := by
  obtain ⟨m, hm, hat⟩ := h.exists_atDeadline ((st n).blk.target - ((st n).blk.tick + 1)).toNat (Nat.le_refl n)
    (by rw [BitVec.ofNat_toNat, BitVec.setWidth_eq, BitVec.add_comm, BitVec.sub_add_cancel])
  have hstays : ∀ k, m ≤ k → (st k).blk.AtDeadline := by
    intro k hk
    induction k, hk using Nat.le_induction with
    | base => exact hat
    | succ k hk ih =>
      exact (h.effect k).atDeadline (h.noReset k) (h.wf k) (h.busy k (by omega)) (h.busy (k + 1) (by omega)) ih
  obtain ⟨k, hk, hadv, -⟩ := h.exists_advance hm
  rw [(hstays (k + 1) (by omega)).tick, h.target_eq hm (by omega), hat.tick] at hadv
  simp at hadv

end Endless

/-- Settles O60: a wait that did not return would be endless from where TIM stays enabled. -/
theorem fairRunsReturnFromEveryWait : Obligations.FairRunsReturnFromEveryWait := by
  intro w st hrun hwf hreset hcpu hhnd hint ⟨hraises, e, henabled⟩ n _
  by_contra hnone
  have hbusy : ∀ m, n ≤ m → (st m).blk.ws ≠ .idle := fun m hm hidle => hnone ⟨m, hm, hidle⟩
  exact EndlessWait.false (n := max n e) ⟨⟨hrun, hwf, hreset, hcpu, hhnd, hint⟩, fun m hm => hbusy m (by omega),
    fun m hm => henabled m (by omega), hraises⟩

end Sys2Proof.Machine
end
